-- ==== Sys2Proof/Word.lean ====
section
/-! DEFINITION. The bit vectors of the machine: what the spec treats as bits (00_scope.md R6, R8). -/

namespace Sys2Proof

/-- One byte: an entry of a matrix or a vector, a byte of DMEM (10_state.md R24, R27, R47). -/
abbrev Byte := BitVec 8

/-- One 32-bit word: an instruction word, a scalar register, a control register (10_state.md R21, R33, R46). -/
abbrev Word := BitVec 32

/-- A word index of IMEM, the content of `pc` (10_state.md R28). -/
abbrev CodeIndex := BitVec 16

/-- A byte address of the 21-bit host space (20_memory.md R60, R62). -/
abbrev HostAddr := BitVec 21

end Sys2Proof
end

