-- ==== Sys2Proof/Config.lean ====
section
/-! DEFINITION. The parameters of the hardware (00_scope.md R5), at the values of the reference configuration (log 1). -/

namespace Sys2Proof.Config

/-- `MOD`: the modulus, fixed (00_scope.md R5; 10_state.md R43). -/
def modulus : Nat := 256

/-- `NMAX`: the largest row count, column count and vector length (00_scope.md R5: 1 to 15, reference 8).
DESIGN CHOICE: the reference value of a parameter, log 1. -/
def nmax : Nat := 8

/-- `IMEM_WORDS`: the number of words of IMEM (00_scope.md R5: 1 to 65536, reference 1024).
DESIGN CHOICE: the reference value of a parameter, log 1. -/
def imemWords : Nat := 1024

/-- `DMEM_SIZE`: the number of bytes of DMEM (00_scope.md R5: 256 to 1048576, reference 65536).
DESIGN CHOICE: the reference value of a parameter, log 1. -/
def dmemSize : Nat := 65536

/-- `NSREG` (00_scope.md R5). -/
def nsreg : Nat := 16

/-- `NMREG` (00_scope.md R5). -/
def nmreg : Nat := 8

/-- `NVREG` (00_scope.md R5). -/
def nvreg : Nat := 8

/-- The content of `ID`: ASCII "AHE", then version 1 (10_state.md R34). -/
def idWord : Word := 0x41484501

end Sys2Proof.Config
end

