-- ==== Sys2Proof/Syntax.lean ====
section
/-! DEFINITION. The 34 instructions (30_encoding.md R94, R95), one constructor per row of spec/opcode_table.json. -/

namespace Sys2Proof

/-- The number of a scalar register, slot kind `s` (30_encoding.md R93). -/
abbrev SReg := Fin 16

/-- The number of a matrix register, slot kind `m` (30_encoding.md R93). -/
abbrev MReg := Fin 8

/-- The number of a vector register, slot kind `v` (30_encoding.md R93). -/
abbrev VReg := Fin 8

/-- An instruction with its operands, in the order of the slots F1 to F5 and then the immediate (30_encoding.md R95, R101).
A dimension (slot kind `d`) is the count it encodes; its bounds are checked by `Instr.wf`. -/
inductive Instr where
  | nop
  | halt
  | jmp (target : CodeIndex)
  | beqz (sa : SReg) (target : CodeIndex)
  | bnez (sa : SReg) (target : CodeIndex)
  | sli (sd : SReg) (imm : BitVec 16)
  | saddi (sd sa : SReg) (imm : BitVec 16)
  | sadd (sd sa sb : SReg)
  | ssub (sd sa sb : SReg)
  | sload (sd sa : SReg)
  | sstore (ss sa : SReg)
  | sloadb (sd sa : SReg)
  | sstoreb (ss sa : SReg)
  | xgcd (sg sx sy sa sm : SReg)
  | modinv (sd sa : SReg)
  | modred (sd sa : SReg)
  | mload (md : MReg) (sa : SReg) (rows cols : Nat)
  | mstore (ms : MReg) (sa : SReg)
  | mident (md : MReg) (n : Nat)
  | mcopy (md ms : MReg)
  | mmul (md ma mb : MReg)
  | mtrans (md ms : MReg)
  | minvert (md ms : MReg)
  | mvmul (vd : VReg) (ma : MReg) (vx : VReg)
  | vload (vd : VReg) (sa : SReg) (len : Nat)
  | vstore (vs : VReg) (sa : SReg)
  | vcopy (vd vs : VReg)
  | vadd (vd va vb : VReg)
  | vsub (vd va vb : VReg)
  | affenc (vd : VReg) (ma : MReg) (vx vb : VReg)
  | affdec (vd : VReg) (ma : MReg) (vy vb : VReg)
  | encrypt (ma : MReg) (vb : VReg) (ssrc sdst scnt : SReg)
  | decrypt (ma : MReg) (vb : VReg) (ssrc sdst scnt : SReg)
  | recover (md : MReg) (vd : VReg) (n : Nat)
deriving DecidableEq, Repr

/-- The opcode of an instruction, bits [31:24] of its word (30_encoding.md R94). -/
def Instr.opcode : Instr → Nat
  | .nop => 0x01
  | .halt => 0x02
  | .jmp _ => 0x03
  | .beqz _ _ => 0x04
  | .bnez _ _ => 0x05
  | .sli _ _ => 0x10
  | .saddi _ _ _ => 0x11
  | .sadd _ _ _ => 0x12
  | .ssub _ _ _ => 0x13
  | .sload _ _ => 0x14
  | .sstore _ _ => 0x15
  | .sloadb _ _ => 0x16
  | .sstoreb _ _ => 0x17
  | .xgcd _ _ _ _ _ => 0x20
  | .modinv _ _ => 0x21
  | .modred _ _ => 0x22
  | .mload _ _ _ _ => 0x30
  | .mstore _ _ => 0x31
  | .mident _ _ => 0x32
  | .mcopy _ _ => 0x33
  | .mmul _ _ _ => 0x34
  | .mtrans _ _ => 0x35
  | .minvert _ _ => 0x36
  | .mvmul _ _ _ => 0x37
  | .vload _ _ _ => 0x40
  | .vstore _ _ => 0x41
  | .vcopy _ _ => 0x42
  | .vadd _ _ _ => 0x43
  | .vsub _ _ _ => 0x44
  | .affenc _ _ _ _ => 0x50
  | .affdec _ _ _ _ => 0x51
  | .encrypt _ _ _ _ _ => 0x52
  | .decrypt _ _ _ _ _ => 0x53
  | .recover _ _ _ => 0x60

/-- The pseudo-instruction `SMOV sd, sa` (30_encoding.md R102). -/
def Instr.smov (sd sa : SReg) : Instr := .saddi sd sa 0

/-- The pseudo-instruction `SDEC sd` (30_encoding.md R102). -/
def Instr.sdec (sd : SReg) : Instr := .saddi sd sd 0xFFFF

end Sys2Proof
end

