-- ==== Sys2Proof/WellFormed.lean ====
section
/-! DEFINITION. Well-formed instructions: every dimension is one a `d` slot may hold (30_encoding.md R93). -/

namespace Sys2Proof

/-- A dimension a `d` slot may hold: 1..NMAX (30_encoding.md R93). -/
def dimOk (d : Nat) : Bool := decide (1 ≤ d) && decide (d ≤ Config.nmax)

/-- The instruction has an encoding: each of its dimensions is in 1..NMAX (30_encoding.md R93, R95).
Register numbers and immediates are in range by their types. -/
def Instr.wf : Instr → Bool
  | .mload _ _ rows cols => dimOk rows && dimOk cols
  | .mident _ n => dimOk n
  | .vload _ _ len => dimOk len
  | .recover _ _ n => dimOk n
  | .nop => true
  | .halt => true
  | .jmp _ => true
  | .beqz _ _ => true
  | .bnez _ _ => true
  | .sli _ _ => true
  | .saddi _ _ _ => true
  | .sadd _ _ _ => true
  | .ssub _ _ _ => true
  | .sload _ _ => true
  | .sstore _ _ => true
  | .sloadb _ _ => true
  | .sstoreb _ _ => true
  | .xgcd _ _ _ _ _ => true
  | .modinv _ _ => true
  | .modred _ _ => true
  | .mstore _ _ => true
  | .mcopy _ _ => true
  | .mmul _ _ _ => true
  | .mtrans _ _ => true
  | .minvert _ _ => true
  | .mvmul _ _ _ => true
  | .vstore _ _ => true
  | .vcopy _ _ => true
  | .vadd _ _ _ => true
  | .vsub _ _ _ => true
  | .affenc _ _ _ _ => true
  | .affdec _ _ _ _ => true
  | .encrypt _ _ _ _ _ => true
  | .decrypt _ _ _ _ _ => true

end Sys2Proof
end

