-- ==== Sys2Proof/Decode.lean ====
section
/-! DEFINITION. Decoding of 32-bit words, total, rejecting by name (30_encoding.md R90 to R99), and the encoder. -/

namespace Sys2Proof

/-- Why a word is illegal: the three cases of 30_encoding.md R98, (a), (b), (c). -/
inductive Illegal where
  /-- (a) the opcode is not in the opcode map. -/
  | reservedOpcode
  /-- (b) a must-be-zero field is not 0: an unused slot, the Z nibble, bit 3 of an `m` or `v` slot (R97). -/
  | mustBeZero
  /-- (c) a `d` slot holds 0 or a value above NMAX. -/
  | badDimension
deriving DecidableEq, Repr

/-! The fields of the two layouts (30_encoding.md R91, R92). -/

def fieldOpcode (w : Word) : BitVec 8 := w.extractLsb' 24 8
def fieldF1 (w : Word) : BitVec 4 := w.extractLsb' 20 4
def fieldF2 (w : Word) : BitVec 4 := w.extractLsb' 16 4
def fieldF3 (w : Word) : BitVec 4 := w.extractLsb' 12 4
def fieldF4 (w : Word) : BitVec 4 := w.extractLsb' 8 4
def fieldF5 (w : Word) : BitVec 4 := w.extractLsb' 4 4
def fieldZ (w : Word) : BitVec 4 := w.extractLsb' 0 4
def fieldImm (w : Word) : BitVec 16 := w.extractLsb' 0 16

/-! The slot kinds (30_encoding.md R93). -/

/-- Kind `s`: all 16 values are legal. -/
def slotS (x : BitVec 4) : SReg := ⟨x.toNat, x.isLt⟩

/-- Kinds `m` and `v`: bit 3 must be 0. -/
def slotMV (x : BitVec 4) : Except Illegal (Fin 8) :=
  if h : x.toNat < 8 then .ok ⟨x.toNat, h⟩ else .error .mustBeZero

/-- Kind `d`: 1..NMAX. -/
def slotD (x : BitVec 4) : Except Illegal Nat :=
  if dimOk x.toNat then .ok x.toNat else .error .badDimension

/-- Kind `0`, and the Z nibble: must be 0. -/
def slotZero (x : BitVec 4) : Except Illegal Unit :=
  if x = 0 then .ok () else .error .mustBeZero

/-- Layout R with F5 and Z zero. -/
def tailF5 (w : Word) : Except Illegal Unit := do
  slotZero (fieldF5 w)
  slotZero (fieldZ w)

/-- Layout R with F4, F5 and Z zero. -/
def tailF4 (w : Word) : Except Illegal Unit := do
  slotZero (fieldF4 w)
  tailF5 w

/-- Layout R with F3, F4, F5 and Z zero. -/
def tailF3 (w : Word) : Except Illegal Unit := do
  slotZero (fieldF3 w)
  tailF4 w

/-- Layout R with every slot zero. -/
def tailF1 (w : Word) : Except Illegal Unit := do
  slotZero (fieldF1 w)
  slotZero (fieldF2 w)
  tailF3 w

/-- The slots of layout R that hold two scalar registers in F1 and F2 and nothing else. -/
def twoS (w : Word) (mk : SReg → SReg → Instr) : Except Illegal Instr := do
  tailF3 w
  return mk (slotS (fieldF1 w)) (slotS (fieldF2 w))

/-- Three scalar registers in F1, F2, F3. -/
def threeS (w : Word) (mk : SReg → SReg → SReg → Instr) : Except Illegal Instr := do
  tailF4 w
  return mk (slotS (fieldF1 w)) (slotS (fieldF2 w)) (slotS (fieldF3 w))

/-- A matrix or vector register in F1, a scalar register in F2. -/
def oneMVoneS (w : Word) (mk : Fin 8 → SReg → Instr) : Except Illegal Instr := do
  let r ← slotMV (fieldF1 w)
  tailF3 w
  return mk r (slotS (fieldF2 w))

/-- Matrix or vector registers in F1 and F2. -/
def twoMV (w : Word) (mk : Fin 8 → Fin 8 → Instr) : Except Illegal Instr := do
  let r1 ← slotMV (fieldF1 w)
  let r2 ← slotMV (fieldF2 w)
  tailF3 w
  return mk r1 r2

/-- Matrix or vector registers in F1, F2, F3. -/
def threeMV (w : Word) (mk : Fin 8 → Fin 8 → Fin 8 → Instr) : Except Illegal Instr := do
  let r1 ← slotMV (fieldF1 w)
  let r2 ← slotMV (fieldF2 w)
  let r3 ← slotMV (fieldF3 w)
  tailF4 w
  return mk r1 r2 r3

/-- Matrix or vector registers in F1, F2, F3, F4. -/
def fourMV (w : Word) (mk : Fin 8 → Fin 8 → Fin 8 → Fin 8 → Instr) : Except Illegal Instr := do
  let r1 ← slotMV (fieldF1 w)
  let r2 ← slotMV (fieldF2 w)
  let r3 ← slotMV (fieldF3 w)
  let r4 ← slotMV (fieldF4 w)
  tailF5 w
  return mk r1 r2 r3 r4

/-- A matrix in F1, a vector in F2, scalar registers in F3, F4, F5 (the block-run instructions). -/
def blockRun (w : Word) (mk : Fin 8 → Fin 8 → SReg → SReg → SReg → Instr) : Except Illegal Instr := do
  let r1 ← slotMV (fieldF1 w)
  let r2 ← slotMV (fieldF2 w)
  slotZero (fieldZ w)
  return mk r1 r2 (slotS (fieldF3 w)) (slotS (fieldF4 w)) (slotS (fieldF5 w))

/-- `decode` of 30_encoding.md R99: the slot table of R95, one row an opcode; it reads only the word. -/
def decode (w : Word) : Except Illegal Instr :=
  match (fieldOpcode w).toNat with
  | 0x01 => do tailF1 w; return .nop
  | 0x02 => do tailF1 w; return .halt
  | 0x03 => do slotZero (fieldF1 w); slotZero (fieldF2 w); return .jmp (fieldImm w)
  | 0x04 => do slotZero (fieldF1 w); return .beqz (slotS (fieldF2 w)) (fieldImm w)
  | 0x05 => do slotZero (fieldF1 w); return .bnez (slotS (fieldF2 w)) (fieldImm w)
  | 0x10 => do slotZero (fieldF2 w); return .sli (slotS (fieldF1 w)) (fieldImm w)
  | 0x11 => return .saddi (slotS (fieldF1 w)) (slotS (fieldF2 w)) (fieldImm w)
  | 0x12 => threeS w .sadd
  | 0x13 => threeS w .ssub
  | 0x14 => twoS w .sload
  | 0x15 => twoS w .sstore
  | 0x16 => twoS w .sloadb
  | 0x17 => twoS w .sstoreb
  | 0x20 => do
    slotZero (fieldZ w)
    return .xgcd (slotS (fieldF1 w)) (slotS (fieldF2 w)) (slotS (fieldF3 w)) (slotS (fieldF4 w)) (slotS (fieldF5 w))
  | 0x21 => twoS w .modinv
  | 0x22 => twoS w .modred
  | 0x30 => do
    let md ← slotMV (fieldF1 w)
    tailF5 w
    let rows ← slotD (fieldF3 w)
    let cols ← slotD (fieldF4 w)
    return .mload md (slotS (fieldF2 w)) rows cols
  | 0x31 => oneMVoneS w .mstore
  | 0x32 => do
    let md ← slotMV (fieldF1 w)
    slotZero (fieldF2 w)
    tailF4 w
    let n ← slotD (fieldF3 w)
    return .mident md n
  | 0x33 => twoMV w .mcopy
  | 0x34 => threeMV w .mmul
  | 0x35 => twoMV w .mtrans
  | 0x36 => twoMV w .minvert
  | 0x37 => threeMV w .mvmul
  | 0x40 => do
    let vd ← slotMV (fieldF1 w)
    tailF4 w
    let len ← slotD (fieldF3 w)
    return .vload vd (slotS (fieldF2 w)) len
  | 0x41 => oneMVoneS w .vstore
  | 0x42 => twoMV w .vcopy
  | 0x43 => threeMV w .vadd
  | 0x44 => threeMV w .vsub
  | 0x50 => fourMV w .affenc
  | 0x51 => fourMV w .affdec
  | 0x52 => blockRun w .encrypt
  | 0x53 => blockRun w .decrypt
  | 0x60 => do
    let md ← slotMV (fieldF1 w)
    let vd ← slotMV (fieldF2 w)
    tailF4 w
    let n ← slotD (fieldF3 w)
    return .recover md vd n
  | _ => .error .reservedOpcode

/-- A word of layout R (30_encoding.md R91): opcode, F1 to F5, Z = 0. -/
def wordR (op f1 f2 f3 f4 f5 : Nat) : Word :=
  BitVec.ofNat 32 (op * 2 ^ 24 + f1 * 2 ^ 20 + f2 * 2 ^ 16 + f3 * 2 ^ 12 + f4 * 2 ^ 8 + f5 * 2 ^ 4)

/-- A word of layout I (30_encoding.md R92): opcode, F1, F2, imm16. -/
def wordI (op f1 f2 : Nat) (imm : BitVec 16) : Word :=
  BitVec.ofNat 32 (op * 2 ^ 24 + f1 * 2 ^ 20 + f2 * 2 ^ 16 + imm.toNat)

/-- The word of an instruction (30_encoding.md R94, R95). It is the instruction's encoding when `Instr.wf` holds. -/
def encode : Instr → Word
  | .nop => wordR 0x01 0 0 0 0 0
  | .halt => wordR 0x02 0 0 0 0 0
  | .jmp target => wordI 0x03 0 0 target
  | .beqz sa target => wordI 0x04 0 sa.val target
  | .bnez sa target => wordI 0x05 0 sa.val target
  | .sli sd imm => wordI 0x10 sd.val 0 imm
  | .saddi sd sa imm => wordI 0x11 sd.val sa.val imm
  | .sadd sd sa sb => wordR 0x12 sd.val sa.val sb.val 0 0
  | .ssub sd sa sb => wordR 0x13 sd.val sa.val sb.val 0 0
  | .sload sd sa => wordR 0x14 sd.val sa.val 0 0 0
  | .sstore ss sa => wordR 0x15 ss.val sa.val 0 0 0
  | .sloadb sd sa => wordR 0x16 sd.val sa.val 0 0 0
  | .sstoreb ss sa => wordR 0x17 ss.val sa.val 0 0 0
  | .xgcd sg sx sy sa sm => wordR 0x20 sg.val sx.val sy.val sa.val sm.val
  | .modinv sd sa => wordR 0x21 sd.val sa.val 0 0 0
  | .modred sd sa => wordR 0x22 sd.val sa.val 0 0 0
  | .mload md sa rows cols => wordR 0x30 md.val sa.val rows cols 0
  | .mstore ms sa => wordR 0x31 ms.val sa.val 0 0 0
  | .mident md n => wordR 0x32 md.val 0 n 0 0
  | .mcopy md ms => wordR 0x33 md.val ms.val 0 0 0
  | .mmul md ma mb => wordR 0x34 md.val ma.val mb.val 0 0
  | .mtrans md ms => wordR 0x35 md.val ms.val 0 0 0
  | .minvert md ms => wordR 0x36 md.val ms.val 0 0 0
  | .mvmul vd ma vx => wordR 0x37 vd.val ma.val vx.val 0 0
  | .vload vd sa len => wordR 0x40 vd.val sa.val len 0 0
  | .vstore vs sa => wordR 0x41 vs.val sa.val 0 0 0
  | .vcopy vd vs => wordR 0x42 vd.val vs.val 0 0 0
  | .vadd vd va vb => wordR 0x43 vd.val va.val vb.val 0 0
  | .vsub vd va vb => wordR 0x44 vd.val va.val vb.val 0 0
  | .affenc vd ma vx vb => wordR 0x50 vd.val ma.val vx.val vb.val 0
  | .affdec vd ma vy vb => wordR 0x51 vd.val ma.val vy.val vb.val 0
  | .encrypt ma vb ssrc sdst scnt => wordR 0x52 ma.val vb.val ssrc.val sdst.val scnt.val
  | .decrypt ma vb ssrc sdst scnt => wordR 0x53 ma.val vb.val ssrc.val sdst.val scnt.val
  | .recover md vd n => wordR 0x60 md.val vd.val n 0 0

/-- The instruction the decoder reads from the table word `w` of `nbits` bits, numbered as spec/opcode_table.json
numbers them: an instruction is one 32-bit word and the host port carries it as a 32-bit number
(30_encoding.md R90; 20_memory.md R63), so there is no byte order; bits above `nbits` are 0. -/
def decodeTableWord (nbits w : Nat) : Option Instr :=
  match decode (BitVec.ofNat 32 (w % 2 ^ nbits)) with
  | .ok i => some i
  | .error _ => none

end Sys2Proof
end

