-- ==== Sys2Proof/Machine/State.lean ====
section
/-! DEFINITION. The architectural state (10_state.md R20), the reasons a step can stop, and the state after reset (R50). -/

namespace Sys2Proof.Machine

/-- A matrix value (00_scope.md R9, 10_state.md R24): a shape and `rows * cols` entries in row-major order.
`Mat.wf` says that the shape and the entries agree. -/
structure Mat where
  rows : Nat
  cols : Nat
  entries : List Byte
deriving DecidableEq, Repr

/-- A vector value (10_state.md R27): its entries, in index order; its length is the length of the list. -/
abbrev Vec := List Byte

/-- DMEM by byte address (10_state.md R47). A byte nothing has written since power-on is not listed and has no value
(93_implementation_defined.md U6; DESIGN CHOICE, safe, log 2). -/
abbrev Memory := List Host.Cell

/-- IMEM by word index (10_state.md R46). A word nothing has written since power-on is not listed and has no value
(93_implementation_defined.md U6; DESIGN CHOICE, safe, log 2). -/
abbrev CodeMemory := List (Nat × Word)

/-- The canonical form of DMEM: addresses strictly rising, each below DMEM_SIZE. -/
abbrev Memory.wf (m : Memory) : Prop :=
  m.Pairwise (fun c d => c.1 < d.1) ∧ ∀ c ∈ m, c.1 < Config.dmemSize

/-- The canonical form of IMEM: indexes strictly rising, each below IMEM_WORDS. -/
abbrev CodeMemory.wf (m : CodeMemory) : Prop :=
  m.Pairwise (fun c d => c.1 < d.1) ∧ ∀ c ∈ m, c.1 < Config.imemWords

/-- A matrix value a register may hold: dimensions in 1..NMAX and `rows * cols` entries (10_state.md R24). -/
abbrev Mat.wf (A : Mat) : Prop :=
  1 ≤ A.rows ∧ A.rows ≤ Config.nmax ∧ 1 ≤ A.cols ∧ A.cols ≤ Config.nmax ∧ A.entries.length = A.rows * A.cols

/-- A vector value a register may hold: a length in 1..NMAX (10_state.md R27). -/
abbrev Vec.wf (x : Vec) : Prop := 1 ≤ x.length ∧ x.length ≤ Config.nmax

/-- `STATE`, the run state (10_state.md R31). -/
inductive RunState where
  | idle
  | running
  | halted
  | faulted
deriving DecidableEq, Repr

/-- The causes of a fault (60_exceptions.md R263). -/
inductive Cause where
  | noInverse
  | singularMatrix
  | dimensionMismatch
  | recoveryExhausted
  | illegalInstruction
  | fetchFault
  | accessFault
  | emptyOperand
  | operandRange
deriving DecidableEq, Repr

/-- What the host does at its port: a transaction (60_exceptions.md R280), or asserting the `reset` wire
(70_reset_and_hazards.md R300). A transaction of a size carries data of that size. -/
inductive HostOp where
  | read8 (addr : HostAddr)
  | read32 (addr : HostAddr)
  | write8 (addr : HostAddr) (data : Byte)
  | write32 (addr : HostAddr) (data : Word)
  | reset
deriving DecidableEq, Repr

/-- The response of a transaction (60_exceptions.md R280). -/
inductive HostReply where
  /-- the response `ok` of a write. -/
  | done
  | data8 (b : Byte)
  | data32 (w : Word)
  /-- the error response: the transaction had no effect at all. -/
  | errorResponse
deriving DecidableEq, Repr

/-- Who moves in one step: the engine, or the host (60_exceptions.md R280, R287; log 3). -/
inductive Turn where
  | engine
  | host (op : HostOp)
deriving DecidableEq, Repr

/-- The state: every piece of 10_state.md R20, and two fields of the model's own (`turns`, `lastReply`). -/
structure State where
  /-- s0..s15 (R21). -/
  sregs : Vector Word 16
  /-- m0..m7 (R24); `none` is the spec's 'empty'. -/
  mregs : Vector (Option Mat) 8
  /-- v0..v7 (R27); `none` is the spec's 'empty'. -/
  vregs : Vector (Option Vec) 8
  /-- `pc` (R28). -/
  pc : CodeIndex
  /-- `STATE` (R31). -/
  runState : RunState
  /-- `STOPREQ` (R32). -/
  stopReq : Bool
  /-- `ECAUSE[7:0]` (R39); bits [31:8] are constant 0. -/
  ecause : BitVec 8
  /-- `EPC[15:0]` (R40); bits [31:16] are constant 0. -/
  epc : CodeIndex
  /-- `EINFO` (R41). -/
  einfo : Word
  /-- `IE[1:0]` (R42): bit 0 `HALT_IE`, bit 1 `FAULT_IE`; bits [31:2] are constant 0. -/
  ie : BitVec 2
  /-- IMEM (R46). -/
  imem : CodeMemory
  /-- DMEM (R47). -/
  dmem : Memory
  /-- MODEL'S OWN: who moves at the coming steps; when the list is empty, the engine (log 3). -/
  turns : List Turn
  /-- MODEL'S OWN: the response of the latest transaction (log 4). -/
  lastReply : Option HostReply
deriving DecidableEq, Repr

/-- The model's own stops. The spec's faults (60_exceptions.md R263) are none of these: they lead to a next state. -/
inductive Fault where
  /-- A fetch, or the host, reads an IMEM word never written since power-on (93_implementation_defined.md U6: 'refuse';
  70_reset_and_hazards.md R301). Safe: the hardware goes on with an unspecified word (log 2). -/
  | unwrittenCode (index : Nat)
  /-- An instruction, or the host, reads a DMEM byte never written since power-on (93_implementation_defined.md U6: 'refuse';
  70_reset_and_hazards.md R301). Safe: the hardware goes on with an unspecified byte (log 2). -/
  | unwrittenData (addr : Nat)
deriving DecidableEq, Repr

/-- Refusals: there is one constructor, the host's, and no arm of `exec` uses it. -/
inductive Refusal where
  /-- Raised by an arm of `exec` whose instruction has no meaning yet. Safe. No instruction is in this case. -/
  | notModelled (mnemonic : String)
deriving DecidableEq, Repr

/-- The machine right after power-on (70_reset_and_hazards.md R301): every register at its reset value (10_state.md R50),
both memories with nothing written (log 2), no turn scheduled (log 3), no transaction answered (log 4). -/
def State.reset : State where
  sregs := Vector.replicate 16 0
  mregs := Vector.replicate 8 none
  vregs := Vector.replicate 8 none
  pc := 0
  runState := .idle
  stopReq := false
  ecause := 0
  epc := 0
  einfo := 0
  ie := 0
  imem := []
  dmem := []
  turns := []
  lastReply := none

end Sys2Proof.Machine
end

