-- ==== Sys2Proof/Machine/Algebra.lean ====
section
/-! DEFINITION. The arithmetic of the engine over the integers modulo 256: extended gcd and inverse (40_modarith.md), matrices
and vectors (41_matrix.md), the per-block transforms (43_cipher.md R191). No definition here reads the state. -/

namespace Sys2Proof.Machine

/-! ## Extended gcd and modular inverse -/

/-- The loop of `xgcd` (40_modarith.md R121), its turns bounded by `fuel`; `r1` falls in every turn, so `fuel > r1` suffices. -/
def xgcdLoop : Nat → Nat → Nat → Int → Int → Int → Int → Nat × Int × Int
  | 0, r0, _, x0, _, y0, _ => (r0, x0, y0)
  | fuel + 1, r0, r1, x0, x1, y0, y1 =>
    if r1 = 0 then (r0, x0, y0)
    else
      let q := r0 / r1
      xgcdLoop fuel r1 (r0 - q * r1) x1 (x0 - q * x1) y1 (y0 - q * y1)

/-- `xgcd(a, m)`: the iterative Euclidean form (40_modarith.md R121; the choice of the Bezout pair: U1, log 7). -/
def xgcd (a m : Nat) : Nat × Int × Int := xgcdLoop (m + 1) a m 1 0 0 1

/-- A unit modulo 256: `gcd(u, 256) = 1` (00_scope.md R7, 41_matrix.md R152). -/
def isUnitByte (u : Byte) : Bool := decide (Nat.gcd u.toNat Config.modulus = 1)

/-- `modinv8(u)`: `x mod 256`, or no inverse (40_modarith.md R124). -/
def modinv8 (u : Byte) : Option Byte :=
  let r := xgcd u.toNat Config.modulus
  if r.1 = 1 then some (BitVec.ofInt 8 r.2.1) else none

/-! ## Matrices and vectors -/

/-- Entry `[i][j]` of a matrix, row-major (20_memory.md R69). Outside the entries it is 0, which no well-formed value shows
(log 11). -/
def Mat.get (A : Mat) (i j : Nat) : Byte := A.entries.getD (i * A.cols + j) 0

/-- The `rows x cols` matrix with the entries `f i j`. -/
def Mat.ofFn (rows cols : Nat) (f : Nat → Nat → Byte) : Mat where
  rows := rows
  cols := cols
  entries := (List.range (rows * cols)).map fun p => f (p / cols) (p % cols)

/-- The entries of a matrix in row-major order, as MSTORE stores them (20_memory.md R69, 41_matrix.md R143). -/
def Mat.bytes (A : Mat) : List Byte :=
  (List.range (A.rows * A.cols)).map fun p => A.get (p / A.cols) (p % A.cols)

/-- Entry `k` of a vector (00_scope.md R9). Outside the vector it is 0, which no checked operation reads. -/
def Vec.get (x : Vec) (k : Nat) : Byte := x.getD k 0

/-- The vector of length `n` with the entries `f k`. -/
def Vec.ofFn (n : Nat) (f : Nat → Byte) : Vec := (List.range n).map f

/-- `Σ_{t < k} f t * g t` over the integers (41_matrix.md R147). -/
def dot (k : Nat) (f g : Nat → Byte) : Nat :=
  ((List.range k).map fun t => (f t).toNat * (g t).toNat).sum

/-- `v mod 256` of a natural number: an entry is reduced once (41_matrix.md R147). -/
def reduce (v : Nat) : Byte := BitVec.ofNat 8 v

/-- `I_n` (41_matrix.md R144). -/
def Mat.identity (n : Nat) : Mat := Mat.ofFn n n fun i j => if i = j then 1 else 0

/-- The matrix product, every entry reduced (41_matrix.md R146, R147). -/
def Mat.mul (A B : Mat) : Mat :=
  Mat.ofFn A.rows B.cols fun i j => reduce (dot A.cols (fun t => A.get i t) (fun t => B.get t j))

/-- The transpose (41_matrix.md R148). -/
def Mat.transpose (A : Mat) : Mat := Mat.ofFn A.cols A.rows fun j i => A.get i j

/-- The matrix-vector product (41_matrix.md R160, R147). -/
def Mat.mulVec (A : Mat) (x : Vec) : Vec :=
  Vec.ofFn A.rows fun i => reduce (dot A.cols (fun t => A.get i t) (fun t => x.get t))

/-- The entry-wise sum modulo 256 (41_matrix.md R165). -/
def Vec.add (x y : Vec) : Vec := Vec.ofFn x.length fun k => reduce ((x.get k).toNat + (y.get k).toNat)

/-- `(a - b) mod 256`, the floor remainder (00_scope.md R7, 41_matrix.md R147). -/
def subMod (a b : Byte) : Byte := BitVec.ofInt 8 ((a.toNat : Int) - (b.toNat : Int))

/-- The entry-wise difference modulo 256 (41_matrix.md R166). -/
def Vec.sub (x y : Vec) : Vec := Vec.ofFn x.length fun k => subMod (x.get k) (y.get k)

/-! ## Gauss-Jordan inversion modulo 256 (41_matrix.md R151, R152) -/

/-- Step 1: the augmented matrix `[A | I_n]`. -/
def augment (A : Mat) : Mat :=
  Mat.ofFn A.rows (2 * A.rows) fun i j =>
    if j < A.rows then A.get i j else if i = j - A.rows then 1 else 0

/-- Step 2: the first row, among the `k` rows from `r` downward, whose entry in column `col` is a unit. -/
def pivotFrom (W : Mat) (col : Nat) : Nat → Nat → Option Nat
  | 0, _ => none
  | k + 1, r => if isUnitByte (W.get r col) then some r else pivotFrom W col k (r + 1)

/-- Step 4a: swap two rows. -/
def swapRows (W : Mat) (r c : Nat) : Mat :=
  Mat.ofFn W.rows W.cols fun i j => if i = r then W.get c j else if i = c then W.get r j else W.get i j

/-- Step 4b: scale row `c` by `p`. -/
def scaleRow (W : Mat) (c : Nat) (p : Byte) : Mat :=
  Mat.ofFn W.rows W.cols fun i j => if i = c then reduce ((W.get i j).toNat * p.toNat) else W.get i j

/-- Step 4c: subtract from every other row its multiple of row `c`. -/
def eliminate (W : Mat) (c : Nat) : Mat :=
  Mat.ofFn W.rows W.cols fun i j =>
    if i = c then W.get i j
    else BitVec.ofInt 8 (((W.get i j).toNat : Int) - ((W.get i c).toNat : Int) * ((W.get c j).toNat : Int))

/-- Steps 2 to 4 for one column; `none` when the column has no unit pivot (step 3), and when the pivot has no inverse, which
never happens (41_matrix.md R153). -/
def invertColumn (W : Mat) (col : Nat) : Option Mat :=
  match pivotFrom W col (W.rows - col) col with
  | none => none
  | some r =>
    let W1 := swapRows W r col
    match modinv8 (W1.get col col) with
    | none => none
    | some p => some (eliminate (scaleRow W1 col p) col)

/-- The columns in order; the error is the column at which no unit pivot was found. -/
def invertColumns : List Nat → Mat → Except Nat Mat
  | [], W => .ok W
  | col :: cols, W =>
    match invertColumn W col with
    | none => .error col
    | some W' => invertColumns cols W'

/-- `invert(A)` for a square matrix (41_matrix.md R151): the inverse, or `SingularMatrix(col)`. -/
def invert (A : Mat) : Except Nat Mat :=
  match invertColumns (List.range A.rows) (augment A) with
  | .ok W => .ok (Mat.ofFn A.rows A.rows fun i j => W.get i (A.rows + j))
  | .error col => .error col

/-! ## The per-block transforms (43_cipher.md R191) -/

/-- `enc(A, b, x)`: `y = (A x + b) mod 256`. -/
def enc (A : Mat) (b x : Vec) : Vec :=
  Vec.ofFn A.rows fun i => reduce (dot A.cols (fun t => A.get i t) (fun t => x.get t) + (b.get i).toNat)

/-- `dec(Ainv, b, y)`: `x = Ainv ((y - b) mod 256)`. -/
def dec (Ainv : Mat) (b y : Vec) : Vec :=
  Vec.ofFn Ainv.rows fun i =>
    reduce (dot Ainv.cols (fun t => Ainv.get i t) (fun t => subMod (y.get t) (b.get t)))

/-- The `cnt` consecutive blocks of `n` bytes at the head of a byte sequence (42_blockcodec.md R180). -/
def blocksOf (n cnt : Nat) (bytes : List Byte) : List Vec :=
  (List.range cnt).map fun i => (bytes.drop (i * n)).take n

/-! ## Combinations (44_recovery.md R216) -/

/-- The selections of exactly `n` members of a list in list order, in the lexicographic order of their positions. -/
def combinations : Nat → List Nat → List (List Nat)
  | 0, _ => [[]]
  | _ + 1, [] => []
  | n + 1, x :: xs => (combinations n xs).map (x :: ·) ++ combinations (n + 1) xs

end Sys2Proof.Machine
end

