-- ==== Sys2Proof/Machine/Ops.lean ====
section
/-! DEFINITION. The named operations over memory and registers, taking a fault and the return from one. -/

namespace Sys2Proof.Machine

/-! ## Memory cells: lists of (address, cell) in canonical form -/

/-- The cell at `a`, if it has been written (log 2). -/
def cellGet {α : Type} : List (Nat × α) → Nat → Option α
  | [], _ => none
  | (c, x) :: m, a => if c = a then some x else cellGet m a

/-- Write the cell at `a`, keeping the addresses strictly rising. -/
def cellPut {α : Type} : List (Nat × α) → Nat → α → List (Nat × α)
  | [], a, b => [(a, b)]
  | (c, x) :: m, a, b =>
    if a < c then (a, b) :: (c, x) :: m
    else if a = c then (a, b) :: m
    else (c, x) :: cellPut m a b

/-- Write consecutive bytes from `a` upward (20_memory.md R65). -/
def putBytes : Memory → Nat → List Byte → Memory
  | m, _, [] => m
  | m, a, b :: bs => putBytes (cellPut m a b) (a + 1) bs

/-! ## Ending an instruction -/

/-- Why an instruction does not complete: it raises a cause of the spec with its `EINFO` (00_scope.md R9, 60_exceptions.md
R262, R264), or it needs a cell that has no value (log 2). -/
inductive Stop where
  | raise (c : Cause) (info : Word)
  | stuck (f : Fault)
deriving DecidableEq, Repr

/-- What an instruction computes before it takes effect: a value, or a stop. -/
abbrev Res (α : Type) := Except Stop α

/-- `raise <Cause>(info)` (00_scope.md R9). -/
def raise {α : Type} (c : Cause) (info : Word) : Res α := .error (.raise c info)

/-- A check of an instruction's rule: when `p` fails, raise the cause. -/
def require (p : Bool) (c : Cause) (info : Word) : Res Unit :=
  if p then .ok () else raise c info

/-- The code of a cause (60_exceptions.md R263). -/
def causeCode : Cause → BitVec 8
  | .noInverse => 1
  | .singularMatrix => 2
  | .dimensionMismatch => 3
  | .recoveryExhausted => 4
  | .illegalInstruction => 5
  | .fetchFault => 6
  | .accessFault => 7
  | .emptyOperand => 8
  | .operandRange => 9

/-- TAKING A FAULT (60_exceptions.md R262): from the state before the instruction, the fault record is written, the engine
stops, a pending stop request is dropped; `pc` and everything else keep their values. -/
def takeFault (c : Cause) (info : Word) (s : State) : State :=
  { s with ecause := causeCode c, epc := s.pc, einfo := info, runState := .faulted, stopReq := false }

/-- THE RETURN FROM A FAULT is the host's (60_exceptions.md R277, R285): `CTRL.CLEAR` in FAULTED clears the fault record and
leads to IDLE, keeping `pc`; in the other run states it is ignored. -/
def clearFault (s : State) : State :=
  if s.runState = .faulted then { s with ecause := 0, epc := 0, einfo := 0, runState := .idle } else s

/-- The end of an instruction (60_exceptions.md R262, R287): its writes and its `pc` update take effect together, or the fault
it raised is taken from the state `s` before it. -/
def finish (s : State) (r : Res State) : Host.Outcome State Fault Refusal :=
  match r with
  | .ok t => .next t
  | .error (.raise c info) => .next (takeFault c info s)
  | .error (.stuck f) => .fault f

/-! ## Registers -/

/-- `wrap32(x)`: the pattern of the 32-bit two's-complement value congruent to `x` (00_scope.md R8). -/
def wrap32 (x : Int) : Word := BitVec.ofInt 32 x

/-- The pattern of `s[i]`. -/
def scalar (s : State) (i : SReg) : Word := s.sregs[i]

/-- `s[i]`, read as a signed 32-bit integer (00_scope.md R9). -/
def scalarInt (s : State) (i : SReg) : Int := (scalar s i).toInt

/-- Write the pattern of `s[i]`. -/
def setScalar (s : State) (i : SReg) (w : Word) : State := { s with sregs := s.sregs.set i w }

/-- `m[i]`, or `EmptyOperand` (10_state.md R26, 60_exceptions.md R272). -/
def readMat (s : State) (i : MReg) : Res Mat :=
  match s.mregs[i] with
  | some A => .ok A
  | none => raise .emptyOperand 0

/-- `m[i] <- M` (00_scope.md R9): shape and entries together. -/
def setMat (s : State) (i : MReg) (A : Mat) : State := { s with mregs := s.mregs.set i (some A) }

/-- `v[i]`, or `EmptyOperand` (10_state.md R26, 60_exceptions.md R272). -/
def readVec (s : State) (i : VReg) : Res Vec :=
  match s.vregs[i] with
  | some x => .ok x
  | none => raise .emptyOperand 0

/-- `v[i] <- V` (00_scope.md R9). -/
def setVec (s : State) (i : VReg) (x : Vec) : State := { s with vregs := s.vregs.set i (some x) }

/-- `pc <- (pc + 1) mod 2^16` (10_state.md R29). -/
def advance (s : State) : State := { s with pc := s.pc + 1 }

/-- `pc <- t` (10_state.md R29). -/
def jumpTo (s : State) (t : CodeIndex) : State := { s with pc := t }

/-! ## Data memory (20_memory.md R64, R65) -/

/-- The range check of `MemRead` and `MemWrite`, on unbounded integers (20_memory.md R64, R65, R70): a failing range raises
`AccessFault` with its start address as a 32-bit two's-complement pattern (60_exceptions.md R264). -/
def checkRange (addr n : Int) : Res Unit :=
  require (decide (0 ≤ addr) && decide (addr + n ≤ (Config.dmemSize : Int))) .accessFault (wrap32 addr)

/-- One byte of DMEM; a byte never written has no value (log 2). -/
def byteAt (m : Memory) (a : Nat) : Res Byte :=
  match cellGet m a with
  | some b => .ok b
  | none => .error (.stuck (.unwrittenData a))

/-- `n` bytes of DMEM from `a` upward, lowest address first. -/
def bytesAt (m : Memory) (a : Nat) : Nat → Res (List Byte)
  | 0 => .ok []
  | n + 1 => do
    let b ← byteAt m a
    let bs ← bytesAt m (a + 1) n
    return b :: bs

/-- `MemRead(addr, n)` (20_memory.md R64). -/
def memRead (s : State) (addr : Int) (n : Nat) : Res (List Byte) := do
  checkRange addr n
  bytesAt s.dmem addr.toNat n

/-- `MemWrite(addr, n, bytes)` with `n` the number of bytes (20_memory.md R65). -/
def memWrite (s : State) (addr : Int) (bytes : List Byte) : Res State := do
  checkRange addr bytes.length
  return { s with dmem := putBytes s.dmem addr.toNat bytes }

/-! ## The reset event -/

/-- The reset event (70_reset_and_hazards.md R300): every register at its reset value, IMEM and DMEM unchanged.
The model's own fields `turns` and `lastReply` are no part of the machine and stay. -/
def resetEvent (s : State) : State :=
  { State.reset with imem := s.imem, dmem := s.dmem, turns := s.turns, lastReply := s.lastReply }

end Sys2Proof.Machine
end

