-- ==== Sys2Proof/Machine/Operands.lean ====
section
/-! DEFINITION. The operand forms (30_encoding.md R96) and the width conversions (00_scope.md R8). -/

namespace Sys2Proof.Machine

/-- `low8` of a register: its value mod 256 (00_scope.md R8). -/
def low8 (w : Word) : Byte := BitVec.ofInt 8 w.toInt

/-- `zext_16(imm16)` as a value: 0..65535 (00_scope.md R8, 30_encoding.md R96). -/
def zext16 (imm : BitVec 16) : Int := imm.toNat

/-- `sext_16(imm16)` as a value: -32768..32767 (00_scope.md R8, 30_encoding.md R96). -/
def sext16 (imm : BitVec 16) : Int := imm.toInt

/-- `s[i] <- x` for an integer `x`: writes `wrap32(x)` (00_scope.md R9). -/
def setScalarInt (s : State) (i : SReg) (x : Int) : State := setScalar s i (wrap32 x)

/-- A byte as the value of a scalar register, zero-extended: 0..255. -/
def byteValue (b : Byte) : Int := b.toNat

/-- A branch: to the target when the condition holds, else to the next word (10_state.md R29, 30_encoding.md R96). -/
def branch (c : Bool) (target : CodeIndex) (s : State) : State :=
  if c then jumpTo s target else advance s

/-- The four bytes of a word, little-endian (20_memory.md R68). -/
def wordBytes (w : Word) : List Byte :=
  [w.extractLsb' 0 8, w.extractLsb' 8 8, w.extractLsb' 16 8, w.extractLsb' 24 8]

/-- The word of four bytes, little-endian (20_memory.md R68; 45_support.md R239). -/
def wordOfBytes (bs : List Byte) : Word :=
  BitVec.ofNat 32 ((bs.getD 0 0).toNat + 2 ^ 8 * (bs.getD 1 0).toNat + 2 ^ 16 * (bs.getD 2 0).toNat
    + 2 ^ 24 * (bs.getD 3 0).toNat)

/-! The six implicit operands of RECOVER (10_state.md R23). -/

def recoverPbase : SReg := 8
def recoverCbase : SReg := 9
def recoverCount : SReg := 10
def recoverAnchor : SReg := 11
def recoverCandBase : SReg := 12
def recoverCandCount : SReg := 13

end Sys2Proof.Machine
end

