-- ==== Sys2Proof/Machine/Cipher.lean ====
section
/-! DEFINITION. The cipher unit (43_cipher.md R190 to R198). -/

namespace Sys2Proof.Machine

/-- The key shape check (43_cipher.md R190): `A` square, `b` of its order. -/
def keyShapeOk (A : Mat) (b : Vec) : Bool := decide (A.rows = A.cols) && decide (b.length = A.rows)

/-- The register forms (43_cipher.md R192, R194), `f` the per-block transform. -/
def blockTransform (f : Mat → Vec → Vec → Vec) (vd : VReg) (ma : MReg) (vx vb : VReg) (s : State) : Res State := do
  let A ← readMat s ma
  let x ← readVec s vx
  let b ← readVec s vb
  require (keyShapeOk A b && decide (x.length = A.rows)) .dimensionMismatch 0
  return advance (setVec s vd (f A b x))

/-- AFFENC (43_cipher.md R192). -/
def execAffenc (vd : VReg) (ma : MReg) (vx vb : VReg) (s : State) : Host.Outcome State Fault Refusal :=
  finish s (blockTransform enc vd ma vx vb s)

/-- AFFDEC (43_cipher.md R194): the matrix operand is the inverse key matrix, used as it stands (R193). -/
def execAffdec (vd : VReg) (ma : MReg) (vy vb : VReg) (s : State) : Host.Outcome State Fault Refusal :=
  finish s (blockTransform dec vd ma vy vb s)

/-- Two runs of `len` bytes overlap without being the same (20_memory.md R73). -/
def partialOverlap (src dst len : Int) : Bool :=
  decide (0 < len) && decide (src ≠ dst) && decide (src < dst + len) && decide (dst < src + len)

/-- The memory forms (43_cipher.md R197), `f` the per-block transform. All checks come first; the source run is read whole
before the destination run is written, which the same-or-disjoint rule makes the same as the loop over blocks (R197, log 9). -/
def runTransform (f : Mat → Vec → Vec → Vec) (ma : MReg) (vb : VReg) (ssrc sdst scnt : SReg) (s : State) : Res State := do
  let A ← readMat s ma
  let b ← readVec s vb
  require (keyShapeOk A b) .dimensionMismatch 0
  let src := scalarInt s ssrc
  let dst := scalarInt s sdst
  let cnt := scalarInt s scnt
  require (decide (0 ≤ cnt)) .operandRange 0
  let len : Int := cnt * A.rows
  checkRange src len
  checkRange dst len
  require (!partialOverlap src dst len) .accessFault (wrap32 dst)
  let bytes ← bytesAt s.dmem src.toNat len.toNat
  let out := (blocksOf A.rows cnt.toNat bytes).flatMap (f A b)
  return advance { s with dmem := putBytes s.dmem dst.toNat out }

/-- ENCRYPT (43_cipher.md R196). -/
def execEncrypt (ma : MReg) (vb : VReg) (ssrc sdst scnt : SReg) (s : State) : Host.Outcome State Fault Refusal :=
  finish s (runTransform enc ma vb ssrc sdst scnt s)

/-- DECRYPT (43_cipher.md R198): the matrix operand is the inverse key matrix, used as it stands (R193). -/
def execDecrypt (ma : MReg) (vb : VReg) (ssrc sdst scnt : SReg) (s : State) : Host.Outcome State Fault Refusal :=
  finish s (runTransform dec ma vb ssrc sdst scnt s)

end Sys2Proof.Machine
end

