-- ==== Sys2Proof/Machine/Flags.lean ====
section
/-! DEFINITION. There are no flags (10_state.md R30): what a program tests is a scalar register, and what the host sees of the
engine's condition is the `STATUS` register and the interrupt output. Those tests and views stand here. -/

namespace Sys2Proof.Machine

/-- The test of BEQZ and BNEZ, on the whole 32-bit value (45_support.md R233, R234). -/
def isZero (s : State) (i : SReg) : Bool := decide (scalarInt s i = 0)

/-- `IE.HALT_IE` (10_state.md R42). -/
def haltIe (s : State) : Bool := s.ie.getLsbD 0

/-- `IE.FAULT_IE` (10_state.md R42). -/
def faultIe (s : State) : Bool := s.ie.getLsbD 1

/-- The level of the interrupt output (60_exceptions.md R276). -/
def irq (s : State) : Bool :=
  (haltIe s && decide (s.runState = .halted)) || (faultIe s && decide (s.runState = .faulted))

/-- The code of a run state (10_state.md R31). -/
def runStateCode : RunState → Nat
  | .idle => 0
  | .running => 1
  | .halted => 2
  | .faulted => 3

/-- The content of `STATUS` (10_state.md R37). -/
def statusWord (s : State) : Word :=
  BitVec.ofNat 32 (runStateCode s.runState + 4 * s.stopReq.toNat + 8 * (irq s).toNat)

end Sys2Proof.Machine
end

