-- ==== Sys2Proof/Machine/Control.lean ====
section
/-! DEFINITION. Control flow (45_support.md R230 to R234). -/

namespace Sys2Proof.Machine

/-- NOP (45_support.md R230). -/
def execNop (s : State) : Host.Outcome State Fault Refusal := finish s (.ok (advance s))

/-- HALT (45_support.md R231): the engine stops, a pending stop request is dropped. -/
def execHalt (s : State) : Host.Outcome State Fault Refusal :=
  finish s (.ok { advance s with runState := .halted, stopReq := false })

/-- JMP (45_support.md R232). -/
def execJmp (target : CodeIndex) (s : State) : Host.Outcome State Fault Refusal := finish s (.ok (jumpTo s target))

/-- BEQZ (45_support.md R233). -/
def execBeqz (sa : SReg) (target : CodeIndex) (s : State) : Host.Outcome State Fault Refusal :=
  finish s (.ok (branch (isZero s sa) target s))

/-- BNEZ (45_support.md R234). -/
def execBnez (sa : SReg) (target : CodeIndex) (s : State) : Host.Outcome State Fault Refusal :=
  finish s (.ok (branch (!isZero s sa) target s))

end Sys2Proof.Machine
end

