-- ==== Sys2Proof/Machine/MatrixUnit.lean ====
section
/-! DEFINITION. The matrix unit (41_matrix.md R142 to R160). Every instruction reads its sources, makes its checks and computes
its result before it writes (R140), so a destination may be a source (R141). -/

namespace Sys2Proof.Machine

/-- MLOAD (41_matrix.md R142): `rows * cols` bytes, row-major. -/
def execMload (md : MReg) (sa : SReg) (rows cols : Nat) (s : State) : Host.Outcome State Fault Refusal :=
  finish s do
    let bs ← memRead s (scalarInt s sa) (rows * cols)
    return advance (setMat s md (Mat.ofFn rows cols fun i j => bs.getD (i * cols + j) 0))

/-- MSTORE (41_matrix.md R143). -/
def execMstore (ms : MReg) (sa : SReg) (s : State) : Host.Outcome State Fault Refusal :=
  finish s do
    let A ← readMat s ms
    let t ← memWrite s (scalarInt s sa) A.bytes
    return advance t

/-- MIDENT (41_matrix.md R144). -/
def execMident (md : MReg) (n : Nat) (s : State) : Host.Outcome State Fault Refusal :=
  finish s (.ok (advance (setMat s md (Mat.identity n))))

/-- MCOPY (41_matrix.md R145). -/
def execMcopy (md ms : MReg) (s : State) : Host.Outcome State Fault Refusal :=
  finish s do
    let A ← readMat s ms
    return advance (setMat s md A)

/-- MMUL (41_matrix.md R146). -/
def execMmul (md ma mb : MReg) (s : State) : Host.Outcome State Fault Refusal :=
  finish s do
    let A ← readMat s ma
    let B ← readMat s mb
    require (decide (A.cols = B.rows)) .dimensionMismatch 0
    return advance (setMat s md (A.mul B))

/-- MTRANS (41_matrix.md R148). -/
def execMtrans (md ms : MReg) (s : State) : Host.Outcome State Fault Refusal :=
  finish s do
    let A ← readMat s ms
    return advance (setMat s md A.transpose)

/-- `invert` as a part of an instruction: no unit pivot in a column raises SingularMatrix with the column (41_matrix.md R151). -/
def invertOrRaise (A : Mat) : Res Mat :=
  match invert A with
  | .ok R => .ok R
  | .error col => raise .singularMatrix (BitVec.ofNat 32 col)

/-- MINVERT (41_matrix.md R150, R155, R156). -/
def execMinvert (md ms : MReg) (s : State) : Host.Outcome State Fault Refusal :=
  finish s do
    let A ← readMat s ms
    require (decide (A.rows = A.cols)) .dimensionMismatch 0
    let R ← invertOrRaise A
    return advance (setMat s md R)

/-- MVMUL (41_matrix.md R160). -/
def execMvmul (vd : VReg) (ma : MReg) (vx : VReg) (s : State) : Host.Outcome State Fault Refusal :=
  finish s do
    let A ← readMat s ma
    let x ← readVec s vx
    require (decide (A.cols = x.length)) .dimensionMismatch 0
    return advance (setVec s vd (A.mulVec x))

end Sys2Proof.Machine
end

