-- ==== Sys2Proof/Machine/ModArith.lean ====
section
/-! DEFINITION. The modular arithmetic unit (40_modarith.md R122, R125, R127). -/

namespace Sys2Proof.Machine

/-- XGCD (40_modarith.md R122): both sources are read before any write; the destinations are written in the order g, x, y. -/
def execXgcd (sg sx sy sa sm : SReg) (s : State) : Host.Outcome State Fault Refusal :=
  finish s do
    let a := scalarInt s sa
    let m := scalarInt s sm
    require (decide (0 ≤ a) && decide (0 ≤ m)) .operandRange 0
    let r := xgcd a.toNat m.toNat
    return advance (setScalarInt (setScalarInt (setScalarInt s sg (r.1 : Int)) sx r.2.1) sy r.2.2)

/-- MODINV (40_modarith.md R125): the source is reduced first; an even value raises NoInverse with that value. -/
def execModinv (sd sa : SReg) (s : State) : Host.Outcome State Fault Refusal :=
  finish s
    (match modinv8 (low8 (scalar s sa)) with
    | some r => .ok (advance (setScalarInt s sd (byteValue r)))
    | none => raise .noInverse ((low8 (scalar s sa)).setWidth 32))

/-- MODRED (40_modarith.md R127). -/
def execModred (sd sa : SReg) (s : State) : Host.Outcome State Fault Refusal :=
  finish s (.ok (advance (setScalarInt s sd (byteValue (low8 (scalar s sa))))))

end Sys2Proof.Machine
end

