-- ==== Sys2Proof/Machine/Recovery.lean ====
section
/-! DEFINITION. The key-recovery unit (44_recovery.md R210 to R223). -/

namespace Sys2Proof.Machine

/-- The candidate list (44_recovery.md R212, R213): `k` entries of 16 bits, little-endian, from `a` upward, each below `count`. -/
def readCandidates (m : Memory) (count : Int) : Nat → Nat → Res (List Nat)
  | _, 0 => .ok []
  | a, k + 1 => do
    let lo ← byteAt m a
    let hi ← byteAt m (a + 1)
    let c := lo.toNat + 256 * hi.toNat
    require (decide ((c : Int) < count)) .operandRange 0
    let cs ← readCandidates m count (a + 2) k
    return c :: cs

/-- Block `i` of the run of blocks of `n` bytes at `base` (42_blockcodec.md R180). -/
def readBlock (m : Memory) (base n i : Nat) : Res Vec := bytesAt m (base + i * n) n

/-- The blocks with the given indices, in their order. -/
def readBlocks (m : Memory) (base n : Nat) : List Nat → Res (List Vec)
  | [] => .ok []
  | i :: is => do
    let x ← readBlock m base n i
    let xs ← readBlocks m base n is
    return x :: xs

/-- The difference matrix (44_recovery.md R215): column `c` is `(xs[c] - x0) mod 256`. -/
def differences (n : Nat) (x0 : Vec) (xs : List Vec) : Mat :=
  Mat.ofFn n n fun r c => subMod ((xs.getD c []).get r) (x0.get r)

/-- Where RECOVER finds its inputs (44_recovery.md R212). -/
structure Samples where
  pbase : Nat
  cbase : Nat
  n : Nat
  anchor : Nat
deriving DecidableEq, Repr

/-- One trial (44_recovery.md R214, R215, R217, R218) on a combination of block indices: the key, or nothing when the plaintext
difference matrix is singular. The ciphertext blocks are read when the inversion has succeeded (log 8). -/
def trial (m : Memory) (p : Samples) (comb : List Nat) : Res (Option (Mat × Vec)) := do
  let x0 ← readBlock m p.pbase p.n p.anchor
  let xs ← readBlocks m p.pbase p.n comb
  match invert (differences p.n x0 xs) with
  | .error _ => return none
  | .ok xinv => do
    let y0 ← readBlock m p.cbase p.n p.anchor
    let ys ← readBlocks m p.cbase p.n comb
    let A := (differences p.n y0 ys).mul xinv
    return some (A, Vec.sub y0 (A.mulVec x0))

/-- The search (44_recovery.md R219): the key of the first combination whose trial succeeds, else RecoveryExhausted. -/
def search (m : Memory) (p : Samples) : List (List Nat) → Res (Mat × Vec)
  | [] => raise .recoveryExhausted 0
  | comb :: combs => do
    match ← trial m p comb with
    | some key => return key
    | none => search m p combs

/-- RECOVER (44_recovery.md R211): validation (R213), then the search over the combinations of candidates (R216). -/
def execRecover (md : MReg) (vd : VReg) (n : Nat) (s : State) : Host.Outcome State Fault Refusal :=
  finish s do
    let count := scalarInt s recoverCount
    let anchor := scalarInt s recoverAnchor
    let k := scalarInt s recoverCandCount
    let pbase := scalarInt s recoverPbase
    let cbase := scalarInt s recoverCbase
    let candBase := scalarInt s recoverCandBase
    require (decide (0 ≤ count) && decide (0 ≤ k) && decide (0 ≤ anchor) && decide (anchor < count)) .operandRange 0
    checkRange pbase (count * n)
    checkRange cbase (count * n)
    checkRange candBase (2 * k)
    let cands ← readCandidates s.dmem count candBase.toNat k.toNat
    let key ← search s.dmem ⟨pbase.toNat, cbase.toNat, n, anchor.toNat⟩ (combinations n cands)
    return advance (setVec (setMat s md key.1) vd key.2)

end Sys2Proof.Machine
end

