-- ==== Sys2Proof/Machine/Scalar.lean ====
section
/-! DEFINITION. Scalar arithmetic, loads and stores (45_support.md R235 to R242). -/

namespace Sys2Proof.Machine

/-- SLI (45_support.md R235): the immediate is zero-extended. -/
def execSli (sd : SReg) (imm : BitVec 16) (s : State) : Host.Outcome State Fault Refusal :=
  finish s (.ok (advance (setScalarInt s sd (zext16 imm))))

/-- SADDI (45_support.md R236): the immediate is sign-extended. -/
def execSaddi (sd sa : SReg) (imm : BitVec 16) (s : State) : Host.Outcome State Fault Refusal :=
  finish s (.ok (advance (setScalarInt s sd (scalarInt s sa + sext16 imm))))

/-- SADD (45_support.md R237). -/
def execSadd (sd sa sb : SReg) (s : State) : Host.Outcome State Fault Refusal :=
  finish s (.ok (advance (setScalarInt s sd (scalarInt s sa + scalarInt s sb))))

/-- SSUB (45_support.md R238). -/
def execSsub (sd sa sb : SReg) (s : State) : Host.Outcome State Fault Refusal :=
  finish s (.ok (advance (setScalarInt s sd (scalarInt s sa - scalarInt s sb))))

/-- SLOAD (45_support.md R239): 32 bits, little-endian. -/
def execSload (sd sa : SReg) (s : State) : Host.Outcome State Fault Refusal :=
  finish s do
    let bs ← memRead s (scalarInt s sa) 4
    return advance (setScalar s sd (wordOfBytes bs))

/-- SSTORE (45_support.md R240): 32 bits, little-endian. -/
def execSstore (ss sa : SReg) (s : State) : Host.Outcome State Fault Refusal :=
  finish s do
    let t ← memWrite s (scalarInt s sa) (wordBytes (scalar s ss))
    return advance t

/-- SLOADB (45_support.md R241): one byte, zero-extended. -/
def execSloadb (sd sa : SReg) (s : State) : Host.Outcome State Fault Refusal :=
  finish s do
    let bs ← memRead s (scalarInt s sa) 1
    return advance (setScalarInt s sd (byteValue (bs.getD 0 0)))

/-- SSTOREB (45_support.md R242): the low byte. -/
def execSstoreb (ss sa : SReg) (s : State) : Host.Outcome State Fault Refusal :=
  finish s do
    let t ← memWrite s (scalarInt s sa) [low8 (scalar s ss)]
    return advance t

end Sys2Proof.Machine
end

