-- ==== Sys2Proof/Machine/VectorUnit.lean ====
section
/-! DEFINITION. Vector moves and entry-wise arithmetic (41_matrix.md R162 to R166). -/

namespace Sys2Proof.Machine

/-- VLOAD (41_matrix.md R162). -/
def execVload (vd : VReg) (sa : SReg) (len : Nat) (s : State) : Host.Outcome State Fault Refusal :=
  finish s do
    let bs ← memRead s (scalarInt s sa) len
    return advance (setVec s vd bs)

/-- VSTORE (41_matrix.md R163). -/
def execVstore (vs : VReg) (sa : SReg) (s : State) : Host.Outcome State Fault Refusal :=
  finish s do
    let x ← readVec s vs
    let t ← memWrite s (scalarInt s sa) x
    return advance t

/-- VCOPY (41_matrix.md R164). -/
def execVcopy (vd vs : VReg) (s : State) : Host.Outcome State Fault Refusal :=
  finish s do
    let x ← readVec s vs
    return advance (setVec s vd x)

/-- VADD (41_matrix.md R165). -/
def execVadd (vd va vb : VReg) (s : State) : Host.Outcome State Fault Refusal :=
  finish s do
    let x ← readVec s va
    let y ← readVec s vb
    require (decide (x.length = y.length)) .dimensionMismatch 0
    return advance (setVec s vd (x.add y))

/-- VSUB (41_matrix.md R166). -/
def execVsub (vd va vb : VReg) (s : State) : Host.Outcome State Fault Refusal :=
  finish s do
    let x ← readVec s va
    let y ← readVec s vb
    require (decide (x.length = y.length)) .dimensionMismatch 0
    return advance (setVec s vd (x.sub y))

end Sys2Proof.Machine
end

