-- ==== Sys2Proof/Machine/Dispatch.lean ====
section
/-! DEFINITION. One arm per instruction (30_encoding.md R94): each calls the meaning of its own. -/

namespace Sys2Proof.Machine

def exec (i : Instr) (s : State) : Host.Outcome State Fault Refusal :=
  match i with
  | .nop => Sys2Proof.Machine.execNop s
  | .halt => Sys2Proof.Machine.execHalt s
  | .jmp target => Sys2Proof.Machine.execJmp target s
  | .beqz sa target => Sys2Proof.Machine.execBeqz sa target s
  | .bnez sa target => Sys2Proof.Machine.execBnez sa target s
  | .sli sd imm => Sys2Proof.Machine.execSli sd imm s
  | .saddi sd sa imm => Sys2Proof.Machine.execSaddi sd sa imm s
  | .sadd sd sa sb => Sys2Proof.Machine.execSadd sd sa sb s
  | .ssub sd sa sb => Sys2Proof.Machine.execSsub sd sa sb s
  | .sload sd sa => Sys2Proof.Machine.execSload sd sa s
  | .sstore ss sa => Sys2Proof.Machine.execSstore ss sa s
  | .sloadb sd sa => Sys2Proof.Machine.execSloadb sd sa s
  | .sstoreb ss sa => Sys2Proof.Machine.execSstoreb ss sa s
  | .xgcd sg sx sy sa sm => Sys2Proof.Machine.execXgcd sg sx sy sa sm s
  | .modinv sd sa => Sys2Proof.Machine.execModinv sd sa s
  | .modred sd sa => Sys2Proof.Machine.execModred sd sa s
  | .mload md sa rows cols => Sys2Proof.Machine.execMload md sa rows cols s
  | .mstore ms sa => Sys2Proof.Machine.execMstore ms sa s
  | .mident md n => Sys2Proof.Machine.execMident md n s
  | .mcopy md ms => Sys2Proof.Machine.execMcopy md ms s
  | .mmul md ma mb => Sys2Proof.Machine.execMmul md ma mb s
  | .mtrans md ms => Sys2Proof.Machine.execMtrans md ms s
  | .minvert md ms => Sys2Proof.Machine.execMinvert md ms s
  | .mvmul vd ma vx => Sys2Proof.Machine.execMvmul vd ma vx s
  | .vload vd sa len => Sys2Proof.Machine.execVload vd sa len s
  | .vstore vs sa => Sys2Proof.Machine.execVstore vs sa s
  | .vcopy vd vs => Sys2Proof.Machine.execVcopy vd vs s
  | .vadd vd va vb => Sys2Proof.Machine.execVadd vd va vb s
  | .vsub vd va vb => Sys2Proof.Machine.execVsub vd va vb s
  | .affenc vd ma vx vb => Sys2Proof.Machine.execAffenc vd ma vx vb s
  | .affdec vd ma vy vb => Sys2Proof.Machine.execAffdec vd ma vy vb s
  | .encrypt ma vb ssrc sdst scnt => Sys2Proof.Machine.execEncrypt ma vb ssrc sdst scnt s
  | .decrypt ma vb ssrc sdst scnt => Sys2Proof.Machine.execDecrypt ma vb ssrc sdst scnt s
  | .recover md vd n => Sys2Proof.Machine.execRecover md vd n s

end Sys2Proof.Machine
end

