-- ==== Sys2Proof/Machine/HostPort.lean ====
section
/-! DEFINITION. The host port (60_exceptions.md R280): the control and status registers (10_state.md R33 to R45), the windows
onto IMEM and DMEM (20_memory.md R62, R63, R67), run control (60_exceptions.md R281 to R286). -/

namespace Sys2Proof.Machine

/-! ## Commands -/

/-- `CTRL.START` (60_exceptions.md R282). -/
def ctrlStart (s : State) : State :=
  if s.runState = .idle ∨ s.runState = .halted then { s with runState := .running } else s

/-- `CTRL.STOP` (60_exceptions.md R283). -/
def ctrlStop (s : State) : State :=
  if s.runState = .running then { s with stopReq := true } else s

/-- A write of `CTRL` (10_state.md R36): SRESET drops the other commands, which else act in the order CLEAR, START, STOP. -/
def ctrlWrite (d : Word) (s : State) : State :=
  if d.getLsbD 3 then resetEvent s
  else
    let s1 := if d.getLsbD 2 then clearFault s else s
    let s2 := if d.getLsbD 0 then ctrlStart s1 else s1
    if d.getLsbD 1 then ctrlStop s2 else s2

/-! ## Control and status registers -/

/-- `CONFIG` (10_state.md R35). -/
def configWord : Word :=
  BitVec.ofNat 32 (Config.nmax + Config.nmreg * 2 ^ 4 + Config.nvreg * 2 ^ 8 + Config.nsreg * 2 ^ 12)

/-- The offset is that of one of `S0`..`S15` (10_state.md R33, R44). -/
def scalarWindow (off : Nat) : Bool := decide (0x40 ≤ off) && decide (off < 0x80) && decide (off % 4 = 0)

/-- The scalar register at an offset of the window. -/
def scalarOf (off : Nat) : SReg := Fin.ofNat 16 ((off - 0x40) / 4)

/-- An aligned 32-bit read at an offset below 0x100 (10_state.md R33 to R45); `none` is the error response.
`PC` while RUNNING reads the `pc` of the boundary at which the read takes effect (U14, log 6). -/
def csrRead (off : Nat) (s : State) : Option Word :=
  if off = 0x00 then some Config.idWord
  else if off = 0x04 then some configWord
  else if off = 0x08 then some 0
  else if off = 0x0C then some (statusWord s)
  else if off = 0x10 then some (s.pc.setWidth 32)
  else if off = 0x14 then some (s.ecause.setWidth 32)
  else if off = 0x18 then some (s.epc.setWidth 32)
  else if off = 0x1C then some s.einfo
  else if off = 0x20 then some (s.ie.setWidth 32)
  else if off = 0x24 then some (BitVec.ofNat 32 Config.modulus)
  else if off = 0x2C then some (BitVec.ofNat 32 Config.imemWords)
  else if off = 0x30 then some (BitVec.ofNat 32 Config.dmemSize)
  else if scalarWindow off then
    if s.runState = .running then none else some (scalar s (scalarOf off))
  else none

/-- An aligned 32-bit write at an offset below 0x100 (10_state.md R33 to R45); `none` is the error response. -/
def csrWrite (off : Nat) (d : Word) (s : State) : Option State :=
  if off = 0x08 then some (ctrlWrite d s)
  else if off = 0x10 then
    if s.runState = .running then none else some { s with pc := d.setWidth 16 }
  else if off = 0x20 then some { s with ie := d.setWidth 2 }
  else if scalarWindow off then
    if s.runState = .running then none else some (setScalar s (scalarOf off) d)
  else none

/-! ## The host space (20_memory.md R62) -/

/-- An aligned address of the IMEM window, inside the configured size. -/
def inCodeWindow (a : Nat) : Bool :=
  decide (0x010000 ≤ a) && decide (a < 0x010000 + 4 * Config.imemWords) && decide (a % 4 = 0)

/-- The word index an address of the IMEM window reaches. -/
def codeIndexOf (a : Nat) : Nat := (a - 0x010000) / 4

/-- An address of the DMEM window, inside the configured size. -/
def inDataWindow (a : Nat) : Bool := decide (0x100000 ≤ a) && decide (a < 0x100000 + Config.dmemSize)

/-- The byte address an address of the DMEM window reaches. -/
def dataAddrOf (a : Nat) : Nat := a - 0x100000

/-- An aligned offset of the control and status registers. -/
def inCsrBlock (a : Nat) : Bool := decide (a < 0x100) && decide (a % 4 = 0)

/-- `read(addr, 32)`. A word never written since power-on has no value (log 2). -/
def hostRead32 (a : Nat) (s : State) : Except Fault HostReply :=
  if inCsrBlock a then
    match csrRead a s with
    | some w => .ok (.data32 w)
    | none => .ok .errorResponse
  else if inCodeWindow a then
    if s.runState = .running then .ok .errorResponse
    else match cellGet s.imem (codeIndexOf a) with
      | some w => .ok (.data32 w)
      | none => .error (.unwrittenCode (codeIndexOf a))
  else .ok .errorResponse

/-- `read(addr, 8)`. A byte never written since power-on has no value (log 2). -/
def hostRead8 (a : Nat) (s : State) : Except Fault HostReply :=
  if inDataWindow a then
    if s.runState = .running then .ok .errorResponse
    else match cellGet s.dmem (dataAddrOf a) with
      | some b => .ok (.data8 b)
      | none => .error (.unwrittenData (dataAddrOf a))
  else .ok .errorResponse

/-- `write(addr, 32, data)`; `none` is the error response. -/
def hostWrite32 (a : Nat) (d : Word) (s : State) : Option State :=
  if inCsrBlock a then csrWrite a d s
  else if inCodeWindow a then
    if s.runState = .running then none else some { s with imem := cellPut s.imem (codeIndexOf a) d }
  else none

/-- `write(addr, 8, data)`; `none` is the error response. -/
def hostWrite8 (a : Nat) (d : Byte) (s : State) : Option State :=
  if inDataWindow a then
    if s.runState = .running then none else some { s with dmem := cellPut s.dmem (dataAddrOf a) d }
  else none

/-- The end of a write transaction: its effect and the response `ok`, or the error response and no effect (R280). -/
def finishWrite (s : State) (r : Option State) : State :=
  match r with
  | some t => { t with lastReply := some .done }
  | none => { s with lastReply := some .errorResponse }

/-- The end of a read transaction: the response; no read has a side effect (R280). -/
def finishRead (s : State) (r : Except Fault HostReply) : Host.Outcome State Fault Refusal :=
  match r with
  | .ok reply => .next { s with lastReply := some reply }
  | .error f => .fault f

/-- What the host does at its port takes effect between two instructions (60_exceptions.md R280; 70_reset_and_hazards.md R300).
The reset wire is no transaction and gets no response. -/
def hostAct (op : HostOp) (s : State) : Host.Outcome State Fault Refusal :=
  match op with
  | .read8 a => finishRead s (hostRead8 a.toNat s)
  | .read32 a => finishRead s (hostRead32 a.toNat s)
  | .write8 a d => .next (finishWrite s (hostWrite8 a.toNat d s))
  | .write32 a d => .next (finishWrite s (hostWrite32 a.toNat d s))
  | .reset => .next (resetEvent s)

end Sys2Proof.Machine
end

