-- ==== Sys2Proof/Machine/Engine.lean ====
section
/-! DEFINITION. Fetching, the engine's step (60_exceptions.md R287), and whose turn it is (log 3). -/

namespace Sys2Proof.Machine

/-- `Fetch(pc)` (20_memory.md R61, 60_exceptions.md R270). A word never written since power-on has no value (log 2). -/
def fetch (s : State) : Res Word :=
  if Config.imemWords ≤ s.pc.toNat then raise .fetchFault (s.pc.setWidth 32)
  else match cellGet s.imem s.pc.toNat with
    | some w => .ok w
    | none => .error (.stuck (.unwrittenCode s.pc.toNat))

/-- What the word at `pc` decodes to; an illegal word raises IllegalInstruction with the word (60_exceptions.md R269). -/
def fetchInstr (s : State) : Res Instr := do
  let w ← fetch s
  match decode w with
  | .ok i => return i
  | .error _ => raise .illegalInstruction w

/-- The engine's step (60_exceptions.md R287). While `STATE` is not RUNNING the engine does nothing; a pending stop request is
honoured before the fetch (R284). -/
def engineStep (s : State) : Host.Outcome State Fault Refusal :=
  if s.runState ≠ .running then .next s
  else if s.stopReq then .next { s with runState := .idle, stopReq := false }
  else match fetchInstr s with
    | .ok i => exec i s
    | .error (.raise c info) => .next (takeFault c info s)
    | .error (.stuck f) => .fault f

/-- One step of the machine: the next turn is the host's or the engine's; with no turn listed it is the engine's (log 3). -/
def turnStep (s : State) : Host.Outcome State Fault Refusal :=
  match s.turns with
  | [] => engineStep s
  | .engine :: ts => engineStep { s with turns := ts }
  | .host op :: ts => hostAct op { s with turns := ts }

/-- The word index at which the engine fetches next, `pc`, or 0 when `pc` is beyond IMEM (log 10). -/
def fetchIndex (s : State) : CodeIndex := if s.pc.toNat < Config.imemWords then s.pc else 0

/-- The engine moves next: a listed host turn waits for one engine turn (log 10). -/
def engineFirst : List Turn → List Turn
  | [] => []
  | t :: ts => .engine :: t :: ts

/-- The state in which the next step fetches and runs the word `w`: the host has stored it, cleared a recorded fault and started
the engine, with no stop request pending (70_reset_and_hazards.md R304; log 10). -/
def placeFetchWord (w : Word) (s : State) : State :=
  { clearFault s with
    pc := fetchIndex s
    imem := cellPut s.imem (fetchIndex s).toNat w
    runState := .running
    stopReq := false
    turns := engineFirst s.turns }

end Sys2Proof.Machine
end

