-- ==== Sys2Proof/Machine/Step.lean ====
section
/-! DEFINITION. One step of the machine, and the state whose next step runs a given word. -/

namespace Sys2Proof.Machine

/-- One step: a host turn or an engine turn (60_exceptions.md R280, R287; log 3). -/
def step : State → Host.Outcome State Fault Refusal := turnStep

/-- `s` with the table word `w` of `nbits` bits stored where the next step fetches it (log 10). -/
def State.withFetchWord (s : State) (nbits w : Nat) : State := placeFetchWord (BitVec.ofNat 32 (w % 2 ^ nbits)) s

end Sys2Proof.Machine
end

