-- ==== Sys2Proof/Assembly.lean ====
section
/-! DEFINITION. The assembly text of an instruction and the assembling of a listing (30_encoding.md R101, R102). -/

namespace Sys2Proof

/-- The name of a scalar register: `s0`..`s15`. -/
def textS (r : SReg) : String := "s" ++ toString r.val
/-- The name of a matrix register: `m0`..`m7`. -/
def textM (r : MReg) : String := "m" ++ toString r.val
/-- The name of a vector register: `v0`..`v7`. -/
def textV (r : VReg) : String := "v" ++ toString r.val
/-- A scalar register used as a byte address, in brackets. -/
def textA (r : SReg) : String := "[" ++ textS r ++ "]"

/-- Mnemonic and operands, separated by commas. -/
def textLine (mnemonic : String) (operands : List String) : String :=
  match operands with
  | [] => mnemonic
  | _ => mnemonic ++ " " ++ String.intercalate ", " operands

/-- The assembly text of an instruction, numbers in decimal (30_encoding.md R101). -/
def Instr.text : Instr → String
  | .nop => textLine "NOP" []
  | .halt => textLine "HALT" []
  | .jmp target => textLine "JMP" [toString target.toNat]
  | .beqz sa target => textLine "BEQZ" [textS sa, toString target.toNat]
  | .bnez sa target => textLine "BNEZ" [textS sa, toString target.toNat]
  | .sli sd imm => textLine "SLI" [textS sd, toString imm.toNat]
  | .saddi sd sa imm => textLine "SADDI" [textS sd, textS sa, toString imm.toInt]
  | .sadd sd sa sb => textLine "SADD" [textS sd, textS sa, textS sb]
  | .ssub sd sa sb => textLine "SSUB" [textS sd, textS sa, textS sb]
  | .sload sd sa => textLine "SLOAD" [textS sd, textA sa]
  | .sstore ss sa => textLine "SSTORE" [textS ss, textA sa]
  | .sloadb sd sa => textLine "SLOADB" [textS sd, textA sa]
  | .sstoreb ss sa => textLine "SSTOREB" [textS ss, textA sa]
  | .xgcd sg sx sy sa sm => textLine "XGCD" [textS sg, textS sx, textS sy, textS sa, textS sm]
  | .modinv sd sa => textLine "MODINV" [textS sd, textS sa]
  | .modred sd sa => textLine "MODRED" [textS sd, textS sa]
  | .mload md sa rows cols => textLine "MLOAD" [textM md, textA sa, toString rows, toString cols]
  | .mstore ms sa => textLine "MSTORE" [textM ms, textA sa]
  | .mident md n => textLine "MIDENT" [textM md, toString n]
  | .mcopy md ms => textLine "MCOPY" [textM md, textM ms]
  | .mmul md ma mb => textLine "MMUL" [textM md, textM ma, textM mb]
  | .mtrans md ms => textLine "MTRANS" [textM md, textM ms]
  | .minvert md ms => textLine "MINVERT" [textM md, textM ms]
  | .mvmul vd ma vx => textLine "MVMUL" [textV vd, textM ma, textV vx]
  | .vload vd sa len => textLine "VLOAD" [textV vd, textA sa, toString len]
  | .vstore vs sa => textLine "VSTORE" [textV vs, textA sa]
  | .vcopy vd vs => textLine "VCOPY" [textV vd, textV vs]
  | .vadd vd va vb => textLine "VADD" [textV vd, textV va, textV vb]
  | .vsub vd va vb => textLine "VSUB" [textV vd, textV va, textV vb]
  | .affenc vd ma vx vb => textLine "AFFENC" [textV vd, textM ma, textV vx, textV vb]
  | .affdec vd ma vy vb => textLine "AFFDEC" [textV vd, textM ma, textV vy, textV vb]
  | .encrypt ma vb ssrc sdst scnt => textLine "ENCRYPT" [textM ma, textV vb, textA ssrc, textA sdst, textS scnt]
  | .decrypt ma vb ssrc sdst scnt => textLine "DECRYPT" [textM ma, textV vb, textA ssrc, textA sdst, textS scnt]
  | .recover md vd n => textLine "RECOVER" [textM md, textV vd, toString n]

/-- One line of a listing (30_encoding.md R101): a label, an instruction, or a branch to a label. -/
inductive AsmLine where
  | label (name : String)
  | op (i : Instr)
  | jmpTo (name : String)
  | beqzTo (sa : SReg) (name : String)
  | bnezTo (sa : SReg) (name : String)
deriving DecidableEq, Repr

/-- The word index a label stands for: that of the next instruction after it (30_encoding.md R101).
DESIGN CHOICE (log 15), the spec being silent: where two labels of a listing have one name, the first counts; a label with no
instruction after it stands for the index one past the listing's last word; a label whose word index is above 65535, which no
branch target holds, stands for nothing, and so does a name that no line declares. -/
def labelIndex (name : String) : Nat → List AsmLine → Option CodeIndex
  | _, [] => none
  | k, .label l :: rest => 
    if l = name then (if k < 2 ^ 16 then some (BitVec.ofNat 16 k) else none) else labelIndex name k rest
  | k, _ :: rest => labelIndex name (k + 1) rest

/-- The word of one line, with the labels of the whole listing; a label of its own gives no word. -/
def assembleLine (all : List AsmLine) : AsmLine → Option (List Word)
  | .label _ => some []
  | .op i => if i.wf then some [encode i] else none
  | .jmpTo l => (labelIndex l 0 all).map fun t => [encode (.jmp t)]
  | .beqzTo sa l => (labelIndex l 0 all).map fun t => [encode (.beqz sa t)]
  | .bnezTo sa l => (labelIndex l 0 all).map fun t => [encode (.bnez sa t)]

/-- The words of a listing; none when a label a branch names is missing or beyond word 65535 (log 15), or an instruction has no encoding (30_encoding.md R101, R102). -/
def assemble (all : List AsmLine) : Option (List Word) := (all.mapM (assembleLine all)).map List.flatten

end Sys2Proof
end

