-- ==== Sys2Proof/Encodings.lean ====
section
/-! DEFINITION. The table of `match` and `mask` of every instruction (30_encoding.md R95), written from the spec and used only to
state what the decoder accepts; the decoder itself is written from the slot kinds (R93). -/

namespace Sys2Proof

/-- One row of the table: the opcode, `mask`, `match`, and the low bit of each `d` slot. -/
structure EncodingRow where
  opcode : Nat
  mask : Word
  pattern : Word
  dslots : List Nat
deriving DecidableEq, Repr

/-- A word is the row's instruction exactly when this holds (30_encoding.md R95). -/
abbrev EncodingRow.legal (row : EncodingRow) (w : Word) : Prop :=
  w &&& row.mask = row.pattern ∧
    ∀ lo ∈ row.dslots, 1 ≤ (w.extractLsb' lo 4).toNat ∧ (w.extractLsb' lo 4).toNat ≤ Config.nmax

/-- The 34 rows of 30_encoding.md R95. -/
def encodingTable : List EncodingRow :=
  [ ⟨0x01, 0xFFFFFFFF, 0x01000000, []⟩,  -- NOP
    ⟨0x02, 0xFFFFFFFF, 0x02000000, []⟩,  -- HALT
    ⟨0x03, 0xFFFF0000, 0x03000000, []⟩,  -- JMP
    ⟨0x04, 0xFFF00000, 0x04000000, []⟩,  -- BEQZ
    ⟨0x05, 0xFFF00000, 0x05000000, []⟩,  -- BNEZ
    ⟨0x10, 0xFF0F0000, 0x10000000, []⟩,  -- SLI
    ⟨0x11, 0xFF000000, 0x11000000, []⟩,  -- SADDI
    ⟨0x12, 0xFF000FFF, 0x12000000, []⟩,  -- SADD
    ⟨0x13, 0xFF000FFF, 0x13000000, []⟩,  -- SSUB
    ⟨0x14, 0xFF00FFFF, 0x14000000, []⟩,  -- SLOAD
    ⟨0x15, 0xFF00FFFF, 0x15000000, []⟩,  -- SSTORE
    ⟨0x16, 0xFF00FFFF, 0x16000000, []⟩,  -- SLOADB
    ⟨0x17, 0xFF00FFFF, 0x17000000, []⟩,  -- SSTOREB
    ⟨0x20, 0xFF00000F, 0x20000000, []⟩,  -- XGCD
    ⟨0x21, 0xFF00FFFF, 0x21000000, []⟩,  -- MODINV
    ⟨0x22, 0xFF00FFFF, 0x22000000, []⟩,  -- MODRED
    ⟨0x30, 0xFF8000FF, 0x30000000, [12, 8]⟩,  -- MLOAD
    ⟨0x31, 0xFF80FFFF, 0x31000000, []⟩,  -- MSTORE
    ⟨0x32, 0xFF8F0FFF, 0x32000000, [12]⟩,  -- MIDENT
    ⟨0x33, 0xFF88FFFF, 0x33000000, []⟩,  -- MCOPY
    ⟨0x34, 0xFF888FFF, 0x34000000, []⟩,  -- MMUL
    ⟨0x35, 0xFF88FFFF, 0x35000000, []⟩,  -- MTRANS
    ⟨0x36, 0xFF88FFFF, 0x36000000, []⟩,  -- MINVERT
    ⟨0x37, 0xFF888FFF, 0x37000000, []⟩,  -- MVMUL
    ⟨0x40, 0xFF800FFF, 0x40000000, [12]⟩,  -- VLOAD
    ⟨0x41, 0xFF80FFFF, 0x41000000, []⟩,  -- VSTORE
    ⟨0x42, 0xFF88FFFF, 0x42000000, []⟩,  -- VCOPY
    ⟨0x43, 0xFF888FFF, 0x43000000, []⟩,  -- VADD
    ⟨0x44, 0xFF888FFF, 0x44000000, []⟩,  -- VSUB
    ⟨0x50, 0xFF8888FF, 0x50000000, []⟩,  -- AFFENC
    ⟨0x51, 0xFF8888FF, 0x51000000, []⟩,  -- AFFDEC
    ⟨0x52, 0xFF88000F, 0x52000000, []⟩,  -- ENCRYPT
    ⟨0x53, 0xFF88000F, 0x53000000, []⟩,  -- DECRYPT
    ⟨0x60, 0xFF880FFF, 0x60000000, [12]⟩  -- RECOVER
  ]

end Sys2Proof
end

