-- ==== Sys2Proof/Machine/BlockCodec.lean ====
section
/-! DEFINITION. The host's duties around block runs (42_blockcodec.md R180 to R182). -/

namespace Sys2Proof.Machine

/-- The number of blocks of width `n` that `len` bytes fill: `ceil(len / n)` (42_blockcodec.md R181). -/
def blockCount (len n : Nat) : Nat := (len + n - 1) / n

/-- The bytes of the run `chunk(D, n)`: `D`, then zeros to a whole number of blocks (42_blockcodec.md R181). -/
def paddedBytes (D : List Byte) (n : Nat) : List Byte :=
  D ++ List.replicate (blockCount D.length n * n - D.length) 0

/-- `chunk(D, n)`: the blocks of the run (42_blockcodec.md R181). -/
def chunk (D : List Byte) (n : Nat) : List Vec := blocksOf n (blockCount D.length n) (paddedBytes D n)

/-- `unchunk(blocks, original_length)` (42_blockcodec.md R182). -/
def unchunk (blocks : List Vec) (originalLength : Nat) : List Byte := blocks.flatten.take originalLength

end Sys2Proof.Machine
end

