-- ==== Sys2Proof/Machine/Boot.lean ====
section
/-! DEFINITION. The boot sequence the host follows after reset (70_reset_and_hazards.md R304), as turns of the machine. -/

namespace Sys2Proof.Machine

/-- Write a program into IMEM from word `i` upward (R304 step 2). -/
def loadProgram : Nat → List Word → List Turn
  | _, [] => []
  | i, w :: ws => .host (.write32 (BitVec.ofNat 21 (0x010000 + 4 * i)) w) :: loadProgram (i + 1) ws

/-- Write bytes into DMEM from address `a` upward (R304 step 3). -/
def loadData : Nat → List Byte → List Turn
  | _, [] => []
  | a, b :: bs => .host (.write8 (BitVec.ofNat 21 (0x100000 + a)) b) :: loadData (a + 1) bs

/-- Write preset scalar registers (R304 step 4). -/
def loadScalars : List (SReg × Word) → List Turn
  | [] => []
  | (i, w) :: rest => .host (.write32 (BitVec.ofNat 21 (0x40 + 4 * i.val)) w) :: loadScalars rest

/-- The boot sequence (R304 steps 2 to 7): the program from word 0, data ranges, preset scalars, the entry point, the interrupt
enables, and `CTRL.START`. -/
def bootTurns (program : List Word) (data : List (Nat × List Byte)) (scalars : List (SReg × Word)) (entry : CodeIndex)
    (ie : Word) : List Turn :=
  loadProgram 0 program ++ data.flatMap (fun d => loadData d.1 d.2) ++ loadScalars scalars
    ++ [.host (.write32 0x10 (entry.setWidth 32)), .host (.write32 0x20 ie), .host (.write32 0x08 1)]

end Sys2Proof.Machine
end

