-- ==== Sys2Proof/Safety.lean ====
section
/-! DEFINITION. What a good state is and what an instruction may touch, in the terms the statements use. -/

namespace Sys2Proof.Machine

/-! ## Good states -/

/-- The fault record agrees with the run state (60_exceptions.md R278). -/
abbrev State.recordOk (s : State) : Prop :=
  (s.ecause ≠ 0 ↔ s.runState = .faulted) ∧
    (s.runState ≠ .faulted → s.ecause = 0 ∧ s.epc = 0 ∧ s.einfo = 0)

/-- Every matrix register is empty or holds a well-formed matrix (10_state.md R24). -/
abbrev State.matsOk (s : State) : Prop := ∀ i : MReg, ∀ A ∈ s.mregs[i], A.wf

/-- Every vector register is empty or holds a well-formed vector (10_state.md R27). -/
abbrev State.vecsOk (s : State) : Prop := ∀ i : VReg, ∀ x ∈ s.vregs[i], Vec.wf x

/-- A stop request is pending only while the engine runs (10_state.md R32). -/
abbrev State.stopOk (s : State) : Prop := s.stopReq = true → s.runState = .running

/-- The states a run may be in: both memories in canonical form, well-formed matrix and vector registers, a fault record that
agrees with the run state, a cause code that is one of R263's, no stop request outside RUNNING. -/
abbrev State.Inv (s : State) : Prop :=
  s.imem.wf ∧ s.dmem.wf ∧ s.matsOk ∧ s.vecsOk ∧ s.recordOk ∧ s.ecause.toNat ≤ 9 ∧ s.stopOk

/-! ## Addresses -/

/-- The range `[addr, addr + n)` passes the check of 20_memory.md R64 and R65. -/
abbrev inRange (addr n : Int) : Prop := 0 ≤ addr ∧ addr + n ≤ (Config.dmemSize : Int)

/-- The bytes of DMEM from `a` upward are `B 0`, `B 1`, .., `B (n - 1)`. -/
abbrev holds (m : Memory) (a n : Nat) (B : Nat → Byte) : Prop := ∀ k, k < n → cellGet m (a + k) = some (B k)

/-- Every address outside `[a, a + n)` reads in `m'` as it reads in `m`. -/
abbrev sameOutside (m m' : Memory) (a n : Nat) : Prop :=
  ∀ x, (x < a ∨ a + n ≤ x) → cellGet m' x = cellGet m x

/-- `w` is the pattern a 32-bit two's-complement register holds after the integer `x` is written to it (00_scope.md R8). -/
abbrev wrapsTo (w : Word) (x : Int) : Prop := -2 ^ 31 ≤ w.toInt ∧ w.toInt < 2 ^ 31 ∧ (2 ^ 32 : Int) ∣ x - w.toInt

/-- The instruction takes the fault `c` with the information `info`, from the state before it (60_exceptions.md R262). -/
abbrev raises (i : Instr) (s : State) (c : Cause) (info : Word) : Prop := exec i s = .next (takeFault c info s)

/-! ## What an instruction may write -/

/-- The scalar registers an instruction writes (10_state.md R22). -/
def scalarDests : Instr → List SReg
  | .sli sd _ => [sd]
  | .saddi sd _ _ => [sd]
  | .sadd sd _ _ => [sd]
  | .ssub sd _ _ => [sd]
  | .sload sd _ => [sd]
  | .sloadb sd _ => [sd]
  | .xgcd sg sx sy _ _ => [sg, sx, sy]
  | .modinv sd _ => [sd]
  | .modred sd _ => [sd]
  | _ => []

/-- The matrix registers an instruction writes (10_state.md R25). -/
def matDests : Instr → List MReg
  | .mload md _ _ _ => [md]
  | .mident md _ => [md]
  | .mcopy md _ => [md]
  | .mmul md _ _ => [md]
  | .mtrans md _ => [md]
  | .minvert md _ => [md]
  | .recover md _ _ => [md]
  | _ => []

/-- The vector registers an instruction writes (10_state.md R27). -/
def vecDests : Instr → List VReg
  | .vload vd _ _ => [vd]
  | .vcopy vd _ => [vd]
  | .vadd vd _ _ => [vd]
  | .vsub vd _ _ => [vd]
  | .mvmul vd _ _ => [vd]
  | .affenc vd _ _ _ => [vd]
  | .affdec vd _ _ _ => [vd]
  | .recover _ vd _ => [vd]
  | _ => []

/-- The bytes of DMEM an instruction writes, as a start address and a length (20_memory.md R66): the address is the signed value
of the address register, the length the size of what is stored. -/
def storeRange (s : State) : Instr → Nat × Nat
  | .sstore _ sa => ((scalarInt s sa).toNat, 4)
  | .sstoreb _ sa => ((scalarInt s sa).toNat, 1)
  | .mstore ms sa => ((scalarInt s sa).toNat, match s.mregs[ms] with | some A => A.rows * A.cols | none => 0)
  | .vstore vs sa => ((scalarInt s sa).toNat, match s.vregs[vs] with | some x => x.length | none => 0)
  | .encrypt ma _ _ sdst scnt =>
    ((scalarInt s sdst).toNat, match s.mregs[ma] with | some A => (scalarInt s scnt).toNat * A.rows | none => 0)
  | .decrypt ma _ _ sdst scnt =>
    ((scalarInt s sdst).toNat, match s.mregs[ma] with | some A => (scalarInt s scnt).toNat * A.rows | none => 0)
  | _ => (0, 0)

/-- The causes an instruction can raise (60_exceptions.md R290). -/
def allowedCauses : Instr → List Cause
  | .sload _ _ | .sstore _ _ | .sloadb _ _ | .sstoreb _ _ | .mload _ _ _ _ | .vload _ _ _ => [.accessFault]
  | .xgcd _ _ _ _ _ => [.operandRange]
  | .modinv _ _ => [.noInverse]
  | .mstore _ _ | .vstore _ _ => [.emptyOperand, .accessFault]
  | .mcopy _ _ | .mtrans _ _ | .vcopy _ _ => [.emptyOperand]
  | .mmul _ _ _ | .mvmul _ _ _ | .vadd _ _ _ | .vsub _ _ _ | .affenc _ _ _ _ | .affdec _ _ _ _ =>
    [.emptyOperand, .dimensionMismatch]
  | .minvert _ _ => [.emptyOperand, .dimensionMismatch, .singularMatrix]
  | .encrypt _ _ _ _ _ | .decrypt _ _ _ _ _ => [.emptyOperand, .dimensionMismatch, .operandRange, .accessFault]
  | .recover _ _ _ => [.operandRange, .accessFault, .recoveryExhausted]
  | _ => []

/-- The place a taken branch goes to (10_state.md R29). -/
def branchTarget (s : State) : Instr → Option CodeIndex
  | .jmp t => some t
  | .beqz sa t => if scalarInt s sa = 0 then some t else none
  | .bnez sa t => if scalarInt s sa = 0 then none else some t
  | _ => none

/-! ## The loop over the blocks of a run, and the inputs of RECOVER -/

/-- The loop of 43_cipher.md R197, literally: for `cnt` blocks of `n` bytes, read the block at `src`, transform it, write it at
`dst`, and go on with the next block of each run. -/
def blockLoop (f : Vec → Vec) (n : Nat) : Nat → Nat → Nat → Memory → Res Memory
  | 0, _, _, m => .ok m
  | cnt + 1, src, dst, m => do
    let blk ← bytesAt m src n
    blockLoop f n cnt (src + n) (dst + n) (putBytes m dst (f blk))

/-- The inputs of RECOVER as 44_recovery.md R212 lays them out, all valid (R213): plaintext entry `P i k`, ciphertext entry
`C i k`, the candidate list `cands`. -/
structure RecoverInputs (s : State) (n : Nat) (P C : Nat → Nat → Byte) (cands : List Nat) : Prop where
  anchor_nonneg : 0 ≤ scalarInt s recoverAnchor
  anchor_lt : scalarInt s recoverAnchor < scalarInt s recoverCount
  plain_inRange : inRange (scalarInt s recoverPbase) (scalarInt s recoverCount * n)
  cipher_inRange : inRange (scalarInt s recoverCbase) (scalarInt s recoverCount * n)
  cands_inRange : inRange (scalarInt s recoverCandBase) (2 * scalarInt s recoverCandCount)
  cands_length : (cands.length : Int) = scalarInt s recoverCandCount
  cands_lt : ∀ c ∈ cands, (c : Int) < scalarInt s recoverCount
  cands_held : ∀ j, j < cands.length → ∃ lo hi : Byte,
    cellGet s.dmem ((scalarInt s recoverCandBase).toNat + 2 * j) = some lo ∧
    cellGet s.dmem ((scalarInt s recoverCandBase).toNat + 2 * j + 1) = some hi ∧
    cands.getD j 0 = lo.toNat + 256 * hi.toNat
  plain_held : ∀ i k : Nat, (i : Int) < scalarInt s recoverCount → k < n →
    cellGet s.dmem ((scalarInt s recoverPbase).toNat + i * n + k) = some (P i k)
  cipher_held : ∀ i k : Nat, (i : Int) < scalarInt s recoverCount → k < n →
    cellGet s.dmem ((scalarInt s recoverCbase).toNat + i * n + k) = some (C i k)

/-- The difference matrix of 44_recovery.md R215 for the samples `X` and a combination of block indices. -/
def diffOf (n anchor : Nat) (X : Nat → Nat → Byte) (comb : List Nat) : Mat :=
  Mat.ofFn n n fun r c => X (comb.getD c 0) r - X anchor r

end Sys2Proof.Machine
end

