-- ==== Sys2Proof/Certificates/Slice0/Obligations.lean ====
section
/-! DEFINITION. The statements for the provers, from the spec's numbered rules. -/

open Sys2Proof Sys2Proof.Machine

/-- Decoding the word of any well-formed instruction gives that instruction.
DERIVED: 30_encoding.md sections 1 to 3.
For every instruction i whose dimensions are in 1..NMAX, decode (encode i) = i, with every register number and every immediate at every value. -/
def Obligations.DecodeInvertsEncode : Prop :=
  ∀ i : Instr, i.wf = true → decode (encode i) = .ok i

/-- Every word that decodes is the one encoding of a well-formed instruction.
DERIVED: 30_encoding.md section 4 (one encoding per legal instruction).
If a 32-bit word decodes to i, then i is well-formed and the word is encode i: no legal instruction has a second encoding. -/
def Obligations.EncodeInvertsDecode : Prop :=
  ∀ (w : Word) (i : Instr), decode w = .ok i → i.wf = true ∧ encode i = w

/-- A word decodes to a row's instruction exactly when it passes the row's mask, match and dimensions.
DERIVED: 30_encoding.md section 2 (the match and mask of every instruction).
For the 34 rows of the table of match and mask (opcode, mask, match, d slots): a word that decodes passes the row with the opcode of its instruction, and a word that passes a row ((w AND mask) = match, every d slot in 1..NMAX) decodes to an instruction with that row's opcode. -/
def Obligations.LegalWordsAreThoseOfTheEncodingTable : Prop :=
  (∀ (w : Word) (i : Instr), decode w = .ok i → ∃ row ∈ encodingTable, row.opcode = i.opcode ∧ row.legal w) ∧
  (∀ (w : Word), ∀ row ∈ encodingTable, row.legal w → ∃ i, decode w = .ok i ∧ i.opcode = row.opcode)

/-- Which words are illegal, and that executing one raises IllegalInstruction with the word.
STATED: R98.
A word is illegal exactly when (a) its opcode is in no row, or (b) it fails its row's mask and match, or (c) a d slot holds 0 or a value above NMAX; the reserved opcodes are the listed ranges; 0x00000000 and 0xFFFFFFFF are illegal; only 0x01000000 is NOP; an engine that is RUNNING with no stop pending and an illegal word at pc takes the fault IllegalInstruction with the word. -/
def Obligations.IllegalWordsRaiseIllegalInstruction : Prop :=
  (∀ w : Word, (∃ e, decode w = .error e) ↔
    (∀ row ∈ encodingTable, row.opcode ≠ (fieldOpcode w).toNat) ∨
    ∃ row ∈ encodingTable, row.opcode = (fieldOpcode w).toNat ∧
      (w &&& row.mask ≠ row.pattern ∨
        ∃ lo ∈ row.dslots, (w.extractLsb' lo 4).toNat = 0 ∨ Config.nmax < (w.extractLsb' lo 4).toNat)) ∧
  (∀ op : Nat, op < 256 → ((∀ row ∈ encodingTable, row.opcode ≠ op) ↔
    op = 0 ∨ (0x06 ≤ op ∧ op ≤ 0x0F) ∨ (0x18 ≤ op ∧ op ≤ 0x1F) ∨ (0x23 ≤ op ∧ op ≤ 0x2F) ∨
    (0x38 ≤ op ∧ op ≤ 0x3F) ∨ (0x45 ≤ op ∧ op ≤ 0x4F) ∨ (0x54 ≤ op ∧ op ≤ 0x5F) ∨ 0x61 ≤ op)) ∧
  (∃ e, decode 0x00000000 = .error e) ∧ (∃ e, decode 0xFFFFFFFF = .error e) ∧
  (∀ w : Word, decode w = .ok .nop ↔ w = 0x01000000) ∧
  (∀ (s : State) (w : Word) (e : Illegal), s.runState = .running → s.stopReq = false → s.pc.toNat < Config.imemWords →
    cellGet s.imem s.pc.toNat = some w → decode w = .error e →
    engineStep s = .next (takeFault .illegalInstruction w s))

/-- The worked encodings decode to the instructions they stand for, the illegal examples do not.
STATED: R103.
Each word of the list of worked encodings decodes to the instruction beside it; each of the six illegal examples is refused. -/
def Obligations.WorkedEncodingsDecode : Prop :=
  decode 0x34201000 = .ok (.mmul 2 0 1) ∧ decode 0x30012200 = .ok (.mload 0 1 2 2) ∧
  decode 0x20456120 = .ok (.xgcd 4 5 6 1 2) ∧ decode 0x10100100 = .ok (.sli 1 256) ∧
  decode 0x1133FFFF = .ok (.saddi 3 3 (-1)) ∧ decode 0x05030007 = .ok (.bnez 3 7) ∧
  decode 0x52001230 = .ok (.encrypt 0 0 1 2 3) ∧ decode 0x60112000 = .ok (.recover 1 1 2) ∧
  decode 0x02000000 = .ok .halt ∧
  decode 0x34801000 = .error .mustBeZero ∧ decode 0x30010200 = .error .badDimension ∧
  decode 0x30019200 = .error .badDimension ∧ decode 0x02000001 = .error .mustBeZero ∧
  decode 0x00000000 = .error .reservedOpcode ∧ decode 0x07000000 = .error .reservedOpcode

/-- A step is the engine's or the host's; the engine's, running, executes the instruction its word at pc decodes to.
DERIVED: 60_exceptions.md section 9 (the engine's step), 60_exceptions.md section 8 (transactions fall between two instructions), notes/assumptions/3.md.
If STATE is RUNNING, no stop is pending, pc is inside IMEM and the word there decodes to i, then a step with no turn listed is exec i, and a step whose next turn is the engine's is exec i on the state with that turn taken. In every state a step with no turn listed is the engine's step; one whose next turn is the engine's, or the host's with op, is the engine's step, or hostAct op, on the state with that turn taken. The turns are the model's own field (log 3). -/
def Obligations.StepRunsTheDecodedInstruction : Prop :=
  (∀ (s : State) (w : Word) (i : Instr), s.runState = .running → s.stopReq = false → s.pc.toNat < Config.imemWords →
    cellGet s.imem s.pc.toNat = some w → decode w = .ok i →
    (s.turns = [] → step s = exec i s) ∧
    (∀ ts, s.turns = .engine :: ts → step s = exec i { s with turns := ts })) ∧
  (∀ s : State,
    (s.turns = [] → step s = engineStep s) ∧
    (∀ ts, s.turns = .engine :: ts → step s = engineStep { s with turns := ts }) ∧
    (∀ op ts, s.turns = .host op :: ts → step s = hostAct op { s with turns := ts }))

/-- The engine's step: not running, stop request, fetch fault, illegal word, execution, in that order.
STATED: R287.
While STATE is not RUNNING the engine's step changes nothing; with a stop request it goes to IDLE and clears STOPREQ; with pc at or beyond IMEM_WORDS it takes FetchFault(pc); with an illegal word at pc it takes IllegalInstruction(word); else it executes the decoded instruction. -/
def Obligations.EngineStepFollowsItsOrder : Prop :=
  ∀ s : State,
    (s.runState ≠ .running → engineStep s = .next s) ∧
    (s.runState = .running → s.stopReq = true → engineStep s = .next { s with runState := .idle, stopReq := false }) ∧
    (s.runState = .running → s.stopReq = false →
      (Config.imemWords ≤ s.pc.toNat → engineStep s = .next (takeFault .fetchFault (s.pc.setWidth 32) s)) ∧
      (∀ w, s.pc.toNat < Config.imemWords → cellGet s.imem s.pc.toNat = some w →
        (∀ e, decode w = .error e → engineStep s = .next (takeFault .illegalInstruction w s)) ∧
        (∀ i, decode w = .ok i → engineStep s = exec i s)))

/-- What taking a fault writes: ECAUSE, EPC, EINFO, STATE, STOPREQ, and nothing else.
STATED: R262.
For every cause, information word and state: ECAUSE is the cause's code 1 to 9, EPC is pc, EINFO the information, STATE FAULTED, STOPREQ 0, every other field as before; the engine then does nothing; irq is high exactly when FAULT_IE is set. -/
def Obligations.FaultEntryWritesOnlyTheRecord : Prop :=
  ∀ (c : Cause) (info : Word) (s : State),
    takeFault c info s = { s with ecause := causeCode c, epc := s.pc, einfo := info, runState := .faulted, stopReq := false } ∧
    engineStep (takeFault c info s) = .next (takeFault c info s) ∧
    irq (takeFault c info s) = s.ie.getLsbD 1 ∧
    (causeCode .noInverse = 1 ∧ causeCode .singularMatrix = 2 ∧ causeCode .dimensionMismatch = 3 ∧
      causeCode .recoveryExhausted = 4 ∧ causeCode .illegalInstruction = 5 ∧ causeCode .fetchFault = 6 ∧
      causeCode .accessFault = 7 ∧ causeCode .emptyOperand = 8 ∧ causeCode .operandRange = 9)

/-- An instruction that ends in FAULTED has done nothing but take one of the faults it may raise.
STATED: R266.
For every instruction i and every state not FAULTED: if exec i gives a next state that is FAULTED, that state is the fault entry of a cause the fault table allows i, taken from the state before the instruction; so no register and no byte has changed. -/
def Obligations.FaultingInstructionsChangeOnlyTheFaultRecord : Prop :=
  ∀ (i : Instr) (s t : State), s.runState ≠ .faulted → exec i s = .next t → t.runState = .faulted →
    ∃ c ∈ allowedCauses i, ∃ info, t = takeFault c info s

/-- No instruction changes IMEM, IE or the host's side; only HALT and a fault change STATE and STOPREQ.
DERIVED: 60_exceptions.md section 7 (HALT is the only instruction that changes the run state), 20_memory.md section 5 (no instruction can write IMEM).
For every instruction that gives a next state: IMEM, IE, the turns and the last reply are as before; STATE and STOPREQ and the fault record are as before, or it is HALT, STATE is HALTED, STOPREQ is 0 and the fault record is as before, or STATE is FAULTED. -/
def Obligations.OnlyHaltAndFaultsChangeTheRunState : Prop :=
  ∀ (i : Instr) (s t : State), exec i s = .next t →
    t.imem = s.imem ∧ t.ie = s.ie ∧ t.turns = s.turns ∧ t.lastReply = s.lastReply ∧
    (t.runState = .faulted ∨
      (t.ecause = s.ecause ∧ t.epc = s.epc ∧ t.einfo = s.einfo ∧
        ((t.runState = s.runState ∧ t.stopReq = s.stopReq) ∨
          (i = .halt ∧ t.runState = .halted ∧ t.stopReq = false))))

/-- pc after an instruction: the branch target, or pc + 1 modulo 2^16, or unchanged by a fault.
DERIVED: 10_state.md section 5 (advance of pc).
For every instruction and every RUNNING state: if exec gives a next state, either it is FAULTED and pc is unchanged, or it is not and pc is the immediate of JMP or of a taken BEQZ or BNEZ, and pc + 1 otherwise. -/
def Obligations.PcAdvancesJumpsOrStays : Prop :=
  ∀ (i : Instr) (s t : State), s.runState = .running → exec i s = .next t →
    (t.runState = .faulted ∧ t.pc = s.pc) ∨
    (t.runState ≠ .faulted ∧ t.pc = (branchTarget s i).getD (s.pc + 1))

/-- Every scalar, matrix and vector register but an instruction's destinations keeps its value.
DERIVED: 10_state.md sections 2 to 4 (which instructions write scalar, matrix and vector registers).
For every instruction that gives a next state: a scalar register that is no destination of it, a matrix register that is none and a vector register that is none hold what they held. The destinations are those of the spec's lists of writers. -/
def Obligations.RegistersChangeOnlyInTheirDestinations : Prop :=
  ∀ (i : Instr) (s t : State), exec i s = .next t →
    (∀ r : SReg, r ∉ scalarDests i → t.sregs[r] = s.sregs[r]) ∧
    (∀ r : MReg, r ∉ matDests i → t.mregs[r] = s.mregs[r]) ∧
    (∀ r : VReg, r ∉ vecDests i → t.vregs[r] = s.vregs[r])

/-- Every byte of DMEM outside the range an instruction stores to reads as before.
DERIVED: 20_memory.md section 2 (the instructions that reach DMEM, direction and number of bytes).
For every instruction that gives a next state: every address outside the range that starts at the signed value of its address register (the destination address of ENCRYPT and DECRYPT) and has the length of what it stores (4, 1, rows x cols, len, cnt x n; 0 for an instruction that stores nothing) reads as before. -/
def Obligations.MemoryChangesOnlyInTheStoredRange : Prop :=
  ∀ (i : Instr) (s t : State), exec i s = .next t →
    sameOutside s.dmem t.dmem (storeRange s i).1 (storeRange s i).2

/-- ECAUSE is not 0 exactly when STATE is FAULTED, else the whole record is 0: every step keeps it.
STATED: R278.
For every state in which ECAUSE is not 0 exactly when STATE is FAULTED and ECAUSE, EPC and EINFO are 0 in every other run state, a step of the machine, whether the engine's or the host's, gives such a state; the state after reset is one. -/
def Obligations.FaultRecordAgreesWithTheRunState : Prop :=
  State.reset.recordOk ∧ ∀ s t : State, s.recordOk → step s = .next t → t.recordOk

/-- Well-formed registers, canonical memories, a true fault record: every step keeps them.
DERIVED: 10_state.md sections 3, 4, 7 and 9, 20_memory.md section 2, 60_exceptions.md sections 2 and 6.
For every state in which both memories are in canonical form and inside their sizes, every matrix register is empty or has dimensions in 1..NMAX and rows x cols entries, every vector register is empty or has length 1..NMAX, the fault record agrees with STATE, ECAUSE is at most 9 and STOPREQ is set only in RUNNING, a step gives such a state. -/
def Obligations.EveryStepKeepsTheInvariant : Prop :=
  ∀ s t : State, s.Inv → step s = .next t → t.Inv

/-- The state after reset satisfies the invariant.
DERIVED: 10_state.md section 11 (reset values collected), notes/assumptions/2.md.
The state after reset has canonical memories (empty by the model's choice, log 2), empty matrix and vector registers, a fault record of zeros and no stop request. -/
def Obligations.ResetSatisfiesTheInvariant : Prop :=
  State.reset.Inv

/-- After power-on every register has its reset value and no memory cell has a value.
DERIVED: 70_reset_and_hazards.md section 1 (power-on), notes/assumptions/2.md.
In the state after reset every scalar register is 0, every matrix and vector register is empty, pc, ECAUSE, EPC, EINFO and IE are 0, STATE is IDLE, STOPREQ is 0; no IMEM word and no DMEM byte has a value (the model's choice for unwritten memory, log 2). -/
def Obligations.PowerOnStateIsTheResetState : Prop :=
  (∀ r : SReg, State.reset.sregs[r] = 0) ∧ (∀ r : MReg, State.reset.mregs[r] = none) ∧
  (∀ r : VReg, State.reset.vregs[r] = none) ∧ State.reset.pc = 0 ∧ State.reset.runState = .idle ∧
  State.reset.stopReq = false ∧ State.reset.ecause = 0 ∧ State.reset.epc = 0 ∧ State.reset.einfo = 0 ∧
  State.reset.ie = 0 ∧ (∀ a, cellGet State.reset.imem a = none) ∧ (∀ a, cellGet State.reset.dmem a = none)

/-- What the reset wire and CTRL.SRESET leave: every register at its reset value, both memories unchanged.
STATED: R50, R300.
For every state, the reset wire gives the state in which every scalar register is 0, every matrix and vector register empty, pc, ECAUSE, EPC, EINFO, IE 0, STATE IDLE, STOPREQ 0, irq low, IMEM and DMEM unchanged; CTRL.SRESET does the same and is answered ok; the engine then does nothing, and a START lets it run at 0; the constants read the same. The response stands in the model's own field lastReply (log 4). -/
def Obligations.ResetEventLeavesTheResetValues : Prop :=
  ∀ s : State, ∃ t, hostAct .reset s = .next t ∧
    (∀ r : SReg, t.sregs[r] = 0) ∧ (∀ r : MReg, t.mregs[r] = none) ∧ (∀ r : VReg, t.vregs[r] = none) ∧
    t.pc = 0 ∧ t.runState = .idle ∧ t.stopReq = false ∧ t.ecause = 0 ∧ t.epc = 0 ∧ t.einfo = 0 ∧ t.ie = 0 ∧
    irq t = false ∧ t.imem = s.imem ∧ t.dmem = s.dmem ∧
    (∀ d : Word, d.getLsbD 3 = true → hostAct (.write32 0x08 d) s = .next { t with lastReply := some .done }) ∧
    engineStep t = .next t ∧ (ctrlStart t).runState = .running ∧ (ctrlStart t).pc = 0 ∧
    (∀ off ∈ [0x00, 0x04, 0x24, 0x2C, 0x30], csrRead off t = csrRead off s)

/-- What an instruction does depends neither on IE nor on STOPREQ nor on the host's turns and replies.
DERIVED: 70_reset_and_hazards.md section 3 (host and engine never race on data), 10_state.md section 7 (the stop request), notes/assumptions/3.md, notes/assumptions/4.md.
For every instruction: if exec gives a next state, then from the state with any other IE, any other turns and any other last reply it gives the same next state with those values; and if STATE is RUNNING, also with any other STOPREQ, which a completing instruction keeps and HALT and a fault drop. The turns and the last reply are the model's own fields (log 3, log 4). -/
def Obligations.HostWritesDuringARunDoNotReachInstructions : Prop :=
  ∀ (i : Instr) (s t : State) (ie : BitVec 2) (ts : List Turn) (r : Option HostReply), exec i s = .next t →
    exec i { s with ie := ie, turns := ts, lastReply := r } = .next { t with ie := ie, turns := ts, lastReply := r } ∧
    (s.runState = .running → ∀ q : Bool,
      exec i { s with ie := ie, turns := ts, lastReply := r, stopReq := q } =
        .next { t with ie := ie, turns := ts, lastReply := r, stopReq := if t.runState = .running then q else false })

/-- After a fault, CLEAR and START bring back the very state that faulted.
DERIVED: 60_exceptions.md section 6 (return from a fault).
If the engine, RUNNING with no stop pending and a clean fault record, takes a step into FAULTED, then CLEAR followed by START gives the state before that step, so that the same instruction is executed again. -/
def Obligations.ClearAndStartReturnToTheFaultingInstruction : Prop :=
  ∀ s t : State, s.recordOk → s.runState = .running → s.stopReq = false → engineStep s = .next t →
    t.runState = .faulted → ctrlStart (clearFault t) = s

/-- NOP changes nothing but pc, and 0x01000000 is its only word.
STATED: R230.
For every state NOP gives the state with pc + 1; a word decodes to NOP exactly when it is 0x01000000. -/
def Obligations.NopOnlyAdvances : Prop :=
  (∀ s : State, exec .nop s = .next { s with pc := s.pc + 1 }) ∧ ∀ w : Word, decode w = .ok .nop ↔ w = 0x01000000

/-- HALT advances pc, stops the engine and drops a stop request; START resumes after it.
STATED: R231.
For every state HALT gives the state with pc + 1, STATE HALTED, STOPREQ 0; there the engine does nothing, irq is the HALT_IE bit, and START gives RUNNING at the pc after the HALT; 0x02000000 is its only word. -/
def Obligations.HaltStopsTheEngine : Prop :=
  (∀ s : State, ∃ t, exec .halt s = .next t ∧ t = { s with pc := s.pc + 1, runState := .halted, stopReq := false } ∧
    engineStep t = .next t ∧ irq t = s.ie.getLsbD 0 ∧ ctrlStart t = { t with runState := .running }) ∧
  ∀ w : Word, decode w = .ok .halt ↔ w = 0x02000000

/-- JMP, BEQZ and BNEZ set pc and nothing else; a target beyond IMEM faults at the next fetch.
STATED: R232, R233, R234.
For every state JMP sets pc to its immediate, BEQZ to its immediate when the whole 32-bit register is zero and to pc + 1 otherwise, BNEZ the other way round, changing nothing else; a RUNNING engine with no stop pending and pc at a target at or beyond IMEM_WORDS takes FetchFault with EPC and EINFO the target. -/
def Obligations.JumpsAndBranchesSetPc : Prop :=
  (∀ (s : State) (sa : SReg) (target : CodeIndex),
    exec (.jmp target) s = .next { s with pc := target } ∧
    exec (.beqz sa target) s = .next { s with pc := if s.sregs[sa] = 0 then target else s.pc + 1 } ∧
    exec (.bnez sa target) s = .next { s with pc := if s.sregs[sa] = 0 then s.pc + 1 else target }) ∧
  (∀ (s : State) (target : CodeIndex), s.runState = .running → s.stopReq = false → s.pc = target →
    Config.imemWords ≤ target.toNat →
    ∃ t, engineStep s = .next t ∧ t = takeFault .fetchFault (target.setWidth 32) s ∧ t.epc = target)

/-- SLI, SADDI, SADD, SSUB: the exact integer result, wrapped to 32 bits, in sd, and nothing else.
STATED: R235, R236, R237, R238.
For every state: SLI puts the zero-extended immediate into sd; SADDI, SADD and SSUB put there the 32-bit two's-complement value congruent modulo 2^32 to s[sa] + sext(imm), s[sa] + s[sb], s[sa] - s[sb]; pc advances; every other register and the rest of the state is as before; there is no fault. -/
def Obligations.ScalarArithmeticWraps : Prop :=
  ∀ (s : State) (sd sa sb : SReg) (imm : BitVec 16),
    (∃ w : Word, w.toInt = (imm.toNat : Int) ∧
      exec (.sli sd imm) s = .next { s with sregs := s.sregs.set sd w, pc := s.pc + 1 }) ∧
    (∃ w : Word, wrapsTo w (s.sregs[sa].toInt + imm.toInt) ∧
      exec (.saddi sd sa imm) s = .next { s with sregs := s.sregs.set sd w, pc := s.pc + 1 }) ∧
    (∃ w : Word, wrapsTo w (s.sregs[sa].toInt + s.sregs[sb].toInt) ∧
      exec (.sadd sd sa sb) s = .next { s with sregs := s.sregs.set sd w, pc := s.pc + 1 }) ∧
    (∃ w : Word, wrapsTo w (s.sregs[sa].toInt - s.sregs[sb].toInt) ∧
      exec (.ssub sd sa sb) s = .next { s with sregs := s.sregs.set sd w, pc := s.pc + 1 })

/-- SLOAD and SLOADB: the little-endian word, the zero-extended byte, or AccessFault.
STATED: R239, R241.
With a the signed value of s[sa]: if a >= 0 and a + 4 <= DMEM_SIZE and the four bytes there have the values B, SLOAD puts B0 + 2^8 B1 + 2^16 B2 + 2^24 B3 into sd and advances pc, nothing else; if the range fails it takes AccessFault with the register's pattern. SLOADB the same with one byte, zero-extended. -/
def Obligations.ScalarLoadsReadLittleEndian : Prop :=
  ∀ (s : State) (sd sa : SReg),
    (∀ B, inRange (scalarInt s sa) 4 → holds s.dmem (scalarInt s sa).toNat 4 B →
      ∃ w : Word,
        w.toNat = (B 0).toNat + 2 ^ 8 * (B 1).toNat + 2 ^ 16 * (B 2).toNat + 2 ^ 24 * (B 3).toNat ∧
        exec (.sload sd sa) s = .next { s with sregs := s.sregs.set sd w, pc := s.pc + 1 }) ∧
    (¬ inRange (scalarInt s sa) 4 → raises (.sload sd sa) s .accessFault s.sregs[sa]) ∧
    (∀ B, inRange (scalarInt s sa) 1 → holds s.dmem (scalarInt s sa).toNat 1 B →
      ∃ w : Word, w.toNat = (B 0).toNat ∧
        exec (.sloadb sd sa) s = .next { s with sregs := s.sregs.set sd w, pc := s.pc + 1 }) ∧
    (¬ inRange (scalarInt s sa) 1 → raises (.sloadb sd sa) s .accessFault s.sregs[sa])

/-- SSTORE and SSTOREB: four bytes little-endian, the low byte, or AccessFault; all else unchanged.
STATED: R240, R242.
With a the signed value of s[sa]: if a >= 0 and a + 4 <= DMEM_SIZE, SSTORE leaves at a + k the bits 8k+7..8k of s[ss] for k < 4, every other byte and the rest of the state unchanged but pc; if the range fails it takes AccessFault with the register's pattern. SSTOREB the same with the one byte s[ss] mod 256. -/
def Obligations.ScalarStoresWriteLittleEndian : Prop :=
  ∀ (s : State) (ss sa : SReg),
    (inRange (scalarInt s sa) 4 → ∃ d, exec (.sstore ss sa) s = .next { s with dmem := d, pc := s.pc + 1 } ∧
      holds d (scalarInt s sa).toNat 4 (fun k => s.sregs[ss].extractLsb' (8 * k) 8) ∧
      sameOutside s.dmem d (scalarInt s sa).toNat 4) ∧
    (¬ inRange (scalarInt s sa) 4 → raises (.sstore ss sa) s .accessFault s.sregs[sa]) ∧
    (inRange (scalarInt s sa) 1 → ∃ d, exec (.sstoreb ss sa) s = .next { s with dmem := d, pc := s.pc + 1 } ∧
      holds d (scalarInt s sa).toNat 1 (fun _ => BitVec.ofInt 8 (s.sregs[ss].toInt % 256)) ∧
      sameOutside s.dmem d (scalarInt s sa).toNat 1) ∧
    (¬ inRange (scalarInt s sa) 1 → raises (.sstoreb ss sa) s .accessFault s.sregs[sa])

/-- After SSTORE, SLOAD gives the word back, SLOADB its low byte, VLOAD of length 4 its four bytes in order.
DERIVED: 20_memory.md section 3 (byte order: a mixed-width access sees exactly the bytes).
If SSTORE completes (the state was RUNNING and still is), then at the same address register SLOAD completes and gives the stored word, SLOADB completes and gives its low byte, VLOAD of length 4 completes and gives its bytes, low byte first. -/
def Obligations.LoadsSeeTheStoredBytes : Prop :=
  ∀ (s t : State) (ss sa sd : SReg) (vd : VReg), s.runState = .running → exec (.sstore ss sa) s = .next t →
    t.runState = .running →
    (∃ u, exec (.sload sd sa) t = .next u ∧ u.runState = .running ∧ u.sregs[sd] = s.sregs[ss]) ∧
    (∃ u, exec (.sloadb sd sa) t = .next u ∧ u.runState = .running ∧ u.sregs[sd].toNat = s.sregs[ss].toNat % 256) ∧
    (∃ u x, exec (.vload vd sa 4) t = .next u ∧ u.runState = .running ∧ u.vregs[vd] = some x ∧ x.length = 4 ∧
      ∀ k, k < 4 → Vec.get x k = s.sregs[ss].extractLsb' (8 * k) 8)

/-- The extended gcd: g = gcd(a, m) and a x + m y = g in the integers.
STATED: R120.
For all natural numbers a and m, with (g, x, y) = xgcd(a, m): g = gcd(a, m) and a x + m y = g, not modulo anything. -/
def Obligations.XgcdGivesTheGcdAndBezoutCoefficients : Prop :=
  ∀ a m : Nat, (xgcd a m).1 = Nat.gcd a m ∧ (a : Int) * (xgcd a m).2.1 + m * (xgcd a m).2.2 = (xgcd a m).1

/-- xgcd(a, 0) = (a, 1, 0), and xgcd(a, m) comes from xgcd(m, a mod m) by one Euclidean step.
DERIVED: 40_modarith.md section 1 (the iterative Euclidean form), notes/assumptions/7.md.
The pair the iterative form returns, told without its loop: xgcd(a, 0) = (a, 1, 0); for m > 0, if xgcd(m, a mod m) = (g, x, y) then xgcd(a, m) = (g, y, x - (a div m) y). Which Bezout pair is returned is the spec's own choice (U1, log 7). -/
def Obligations.XgcdUnfoldsByTheEuclideanStep : Prop :=
  (∀ a : Nat, xgcd a 0 = (a, 1, 0)) ∧
  ∀ a m : Nat, 0 < m →
    xgcd a m = ((xgcd m (a % m)).1, (xgcd m (a % m)).2.2,
      (xgcd m (a % m)).2.1 - ((a / m : Nat) : Int) * (xgcd m (a % m)).2.2)

/-- The results of the extended gcd of operands below 2^31 fit a scalar register.
DERIVED: 40_modarith.md section 1 (size of the results), notes/assumptions/7.md.
For 0 <= a, m < 2^31 and (g, x, y) = xgcd(a, m): g, x and y lie in [-2^31, 2^31 - 1], and if g > 0 then |x| <= max(1, m / (2g)) and |y| <= max(1, a / (2g)). The bounds are those of the pair the iterative form returns, the spec's own choice among the Bezout pairs (U1, log 7). -/
def Obligations.XgcdResultsFitARegister : Prop :=
  ∀ a m : Nat, a < 2 ^ 31 → m < 2 ^ 31 →
    (xgcd a m).1 < 2 ^ 31 ∧
    (-2 ^ 31 ≤ (xgcd a m).2.1 ∧ (xgcd a m).2.1 < 2 ^ 31) ∧ (-2 ^ 31 ≤ (xgcd a m).2.2 ∧ (xgcd a m).2.2 < 2 ^ 31) ∧
    (0 < (xgcd a m).1 → (xgcd a m).2.1.natAbs ≤ max 1 (m / (2 * (xgcd a m).1)) ∧
      (xgcd a m).2.2.natAbs ≤ max 1 (a / (2 * (xgcd a m).1)))

/-- XGCD: exact g, x, y in its destinations, the last write standing, or OperandRange.
STATED: R122.
With a = s[sa] and m = s[sm]: if one is negative XGCD takes OperandRange(0). Otherwise it completes: sy holds y, sx holds x unless it is sy, sg holds g unless it is sx or sy, as exact integers, every other scalar register and the rest of the state is as before but pc, which advances. -/
def Obligations.XgcdInstructionWritesThreeRegisters : Prop :=
  ∀ (s : State) (sg sx sy sa sm : SReg),
    ((scalarInt s sa < 0 ∨ scalarInt s sm < 0) → raises (.xgcd sg sx sy sa sm) s .operandRange 0) ∧
    (∀ a m : Nat, scalarInt s sa = a → scalarInt s sm = m → ∃ R : Vector Word 16,
      exec (.xgcd sg sx sy sa sm) s = .next { s with sregs := R, pc := s.pc + 1 } ∧
      R[sy].toInt = (xgcd a m).2.2 ∧ (sx ≠ sy → R[sx].toInt = (xgcd a m).2.1) ∧
      (sg ≠ sx → sg ≠ sy → R[sg].toInt = (xgcd a m).1) ∧
      ∀ r : SReg, r ≠ sg → r ≠ sx → r ≠ sy → R[r] = s.sregs[r])

/-- modinv8: the unique inverse modulo 256 of an odd byte, none of an even one.
STATED: R124.
For every byte u: if u is odd, modinv8 u is r with u r = 1 modulo 256, and every byte r' with u r' = 1 modulo 256 is r; if u is even, there is none. -/
def Obligations.ModularInverseIsUniqueForOddBytes : Prop :=
  ∀ u : Byte,
    (u.toNat % 2 = 1 → ∃ r, modinv8 u = some r ∧ (u.toNat * r.toNat) % 256 = 1 ∧
      ∀ r' : Byte, (u.toNat * r'.toNat) % 256 = 1 → r' = r) ∧
    (u.toNat % 2 = 0 → modinv8 u = none)

/-- MODINV: the inverse of s[sa] mod 256, or NoInverse with the even value.
STATED: R125.
With u = s[sa] mod 256 (floor remainder, so every 32-bit value is accepted): if u is odd, MODINV puts into sd the r in [0, 256) with (u r) mod 256 = 1 and advances pc, nothing else, and modinv8 of r is u again; if u is even it takes NoInverse(u). -/
def Obligations.ModinvInvertsOddValues : Prop :=
  ∀ (s : State) (sd sa : SReg) (u : Nat), (u : Int) = s.sregs[sa].toInt % 256 →
    (u % 2 = 1 → ∃ w : Word, w.toNat < 256 ∧ (u * w.toNat) % 256 = 1 ∧
      modinv8 (w.setWidth 8) = some (BitVec.ofNat 8 u) ∧
      exec (.modinv sd sa) s = .next { s with sregs := s.sregs.set sd w, pc := s.pc + 1 }) ∧
    (u % 2 = 0 → raises (.modinv sd sa) s .noInverse (BitVec.ofNat 32 u))

/-- MODRED: s[sa] mod 256 in sd; of the coefficient x of XGCD with 256 and g = 1 it is the MODINV value.
STATED: R127.
For every state MODRED puts s[sa] mod 256 (floor remainder) into sd and advances pc, nothing else, with no fault; and for every a below 2^31 with gcd(a, 256) = 1, low8 of the register value of the coefficient x of xgcd(a, 256) is the inverse modinv8 gives for a mod 256. -/
def Obligations.ModredReducesAndAgreesWithModinv : Prop :=
  (∀ (s : State) (sd sa : SReg), ∃ w : Word, (w.toNat : Int) = s.sregs[sa].toInt % 256 ∧
    exec (.modred sd sa) s = .next { s with sregs := s.sregs.set sd w, pc := s.pc + 1 }) ∧
  (∀ a : Nat, a < 2 ^ 31 → (xgcd a 256).1 = 1 →
    modinv8 (BitVec.ofNat 8 a) = some (low8 (wrap32 (xgcd a 256).2.1)))

/-- MLOAD and VLOAD: the bytes in row-major or index order, or AccessFault.
STATED: R142, R162.
With a the signed value of s[sa]: if [a, a + rows cols) is inside DMEM and holds the bytes B, MLOAD puts into md the rows x cols matrix with entry [i][j] = B(i cols + j), pc advances, nothing else; if the range fails it takes AccessFault with the register's pattern. VLOAD the same with len bytes and entry [k] = B(k). -/
def Obligations.MatrixAndVectorLoads : Prop :=
  ∀ (s : State) (md : MReg) (vd : VReg) (sa : SReg) (rows cols len : Nat),
    (∀ B, inRange (scalarInt s sa) (rows * cols : Nat) → holds s.dmem (scalarInt s sa).toNat (rows * cols) B →
      ∃ M : Mat, exec (.mload md sa rows cols) s = .next { s with mregs := s.mregs.set md (some M), pc := s.pc + 1 } ∧
        M.rows = rows ∧ M.cols = cols ∧ M.entries.length = rows * cols ∧
        ∀ i j, i < rows → j < cols → M.get i j = B (i * cols + j)) ∧
    (¬ inRange (scalarInt s sa) (rows * cols : Nat) → raises (.mload md sa rows cols) s .accessFault s.sregs[sa]) ∧
    (∀ B, inRange (scalarInt s sa) len → holds s.dmem (scalarInt s sa).toNat len B →
      ∃ x : Vec, exec (.vload vd sa len) s = .next { s with vregs := s.vregs.set vd (some x), pc := s.pc + 1 } ∧
        x.length = len ∧ ∀ k, k < len → Vec.get x k = B k) ∧
    (¬ inRange (scalarInt s sa) len → raises (.vload vd sa len) s .accessFault s.sregs[sa])

/-- MSTORE and VSTORE: EmptyOperand, then AccessFault, else the entries in order and nothing else.
STATED: R143, R163.
MSTORE of an empty register takes EmptyOperand(0). Else, with a the signed value of s[sa]: if [a, a + rows cols) is not inside DMEM it takes AccessFault with the register's pattern, else entry [i][j] stands at a + i cols + j, every byte outside the range and the rest of the state is as before but pc. VSTORE the same with entry [k] at a + k. -/
def Obligations.MatrixAndVectorStores : Prop :=
  ∀ (s : State) (ms : MReg) (vs : VReg) (sa : SReg),
    (match s.mregs[ms] with
      | none => raises (.mstore ms sa) s .emptyOperand 0
      | some A =>
        if inRange (scalarInt s sa) (A.rows * A.cols : Nat) then
          ∃ d, exec (.mstore ms sa) s = .next { s with dmem := d, pc := s.pc + 1 } ∧
            (∀ i j, i < A.rows → j < A.cols →
              cellGet d ((scalarInt s sa).toNat + (i * A.cols + j)) = some (A.get i j)) ∧
            sameOutside s.dmem d (scalarInt s sa).toNat (A.rows * A.cols)
        else raises (.mstore ms sa) s .accessFault s.sregs[sa]) ∧
    (match s.vregs[vs] with
      | none => raises (.vstore vs sa) s .emptyOperand 0
      | some x =>
        if inRange (scalarInt s sa) x.length then
          ∃ d, exec (.vstore vs sa) s = .next { s with dmem := d, pc := s.pc + 1 } ∧
            holds d (scalarInt s sa).toNat x.length (Vec.get x) ∧
            sameOutside s.dmem d (scalarInt s sa).toNat x.length
        else raises (.vstore vs sa) s .accessFault s.sregs[sa])

/-- MIDENT, MCOPY and MTRANS write the identity, the copy, the transpose; an empty source faults.
STATED: R144, R145, R148.
MIDENT puts into md the n x n matrix with 1 on the diagonal and 0 elsewhere. MCOPY of an empty register takes EmptyOperand(0), else md holds the same matrix. MTRANS of an empty register takes EmptyOperand(0), else md holds the cols x rows matrix T with T[j][i] = A[i][j], and MTRANS of T gives A again (A with its rows x cols entries). pc advances, nothing else changes; md may be ms. -/
def Obligations.IdentityCopyAndTranspose : Prop :=
  ∀ (s : State) (md ms : MReg) (n : Nat),
    (∃ M : Mat, exec (.mident md n) s = .next { s with mregs := s.mregs.set md (some M), pc := s.pc + 1 } ∧
      M.rows = n ∧ M.cols = n ∧ M.entries.length = n * n ∧
      ∀ i j, i < n → j < n → M.get i j = if i = j then 1 else 0) ∧
    (match s.mregs[ms] with
      | none => raises (.mcopy md ms) s .emptyOperand 0 ∧ raises (.mtrans md ms) s .emptyOperand 0
      | some A =>
        exec (.mcopy md ms) s = .next { s with mregs := s.mregs.set md (some A), pc := s.pc + 1 } ∧
        ∃ T : Mat, exec (.mtrans md ms) s = .next { s with mregs := s.mregs.set md (some T), pc := s.pc + 1 } ∧
          T.rows = A.cols ∧ T.cols = A.rows ∧ T.entries.length = A.cols * A.rows ∧
          (∀ i j, i < A.rows → j < A.cols → T.get j i = A.get i j) ∧
          (A.entries.length = A.rows * A.cols → ∀ u : State, u.mregs[md] = some T →
            exec (.mtrans md md) u = .next { u with mregs := u.mregs.set md (some A), pc := u.pc + 1 }))

/-- MMUL and MVMUL: EmptyOperand, DimensionMismatch, or the integer sums reduced modulo 256.
STATED: R146, R160.
MMUL with an empty source takes EmptyOperand(0); with A.cols not B.rows, DimensionMismatch(0); else md holds the A.rows x B.cols matrix with entry [i][j] the integer sum of A[i][t] B[t][j] modulo 256. MVMUL the same with a vector of length A.cols, giving a vector of length A.rows. pc advances, nothing else changes. -/
def Obligations.MatrixProducts : Prop :=
  ∀ (s : State) (md ma mb : MReg) (vd vx : VReg),
    (match s.mregs[ma], s.mregs[mb] with
      | some A, some B =>
        if A.cols = B.rows then
          ∃ C : Mat, exec (.mmul md ma mb) s = .next { s with mregs := s.mregs.set md (some C), pc := s.pc + 1 } ∧
            C.rows = A.rows ∧ C.cols = B.cols ∧ C.entries.length = A.rows * B.cols ∧
            ∀ i j, i < A.rows → j < B.cols →
              (C.get i j).toNat = (∑ t ∈ Finset.range A.cols, (A.get i t).toNat * (B.get t j).toNat) % 256
        else raises (.mmul md ma mb) s .dimensionMismatch 0
      | _, _ => raises (.mmul md ma mb) s .emptyOperand 0) ∧
    (match s.mregs[ma], s.vregs[vx] with
      | some A, some x =>
        if A.cols = x.length then
          ∃ y : Vec, exec (.mvmul vd ma vx) s = .next { s with vregs := s.vregs.set vd (some y), pc := s.pc + 1 } ∧
            y.length = A.rows ∧
            ∀ i, i < A.rows →
              (Vec.get y i).toNat = (∑ t ∈ Finset.range A.cols, (A.get i t).toNat * (Vec.get x t).toNat) % 256
        else raises (.mvmul vd ma vx) s .dimensionMismatch 0
      | _, _ => raises (.mvmul vd ma vx) s .emptyOperand 0)

/-- MINVERT: EmptyOperand, DimensionMismatch, SingularMatrix(col), or the inverse in md.
STATED: R150, R155, R156.
MINVERT of an empty register takes EmptyOperand(0); of a matrix that is not square, DimensionMismatch(0); of a square matrix whose inversion finds no unit pivot in column col, SingularMatrix(col), from the unchanged state; else md holds the inverse, pc advances and nothing else changes. -/
def Obligations.MinvertChecksThenInverts : Prop :=
  ∀ (s : State) (md ms : MReg),
    match s.mregs[ms] with
    | none => raises (.minvert md ms) s .emptyOperand 0
    | some A =>
      if A.rows = A.cols then
        match invert A with
        | .ok R => exec (.minvert md ms) s = .next { s with mregs := s.mregs.set md (some R), pc := s.pc + 1 }
        | .error col => raises (.minvert md ms) s .singularMatrix (BitVec.ofNat 32 col)
      else raises (.minvert md ms) s .dimensionMismatch 0

/-- The pivot search returns the least row of its range with an odd entry, and nothing when all are even.
DERIVED: 41_matrix.md section 5 (the pivot test is the unit test, the scan takes the first unit it meets).
For every matrix, column and range of rows r .. r + k - 1: if the search gives p, then p is in the range, its entry in the column is odd, and every earlier row of the range has an even entry there, nonzero or not; if it gives nothing, every row of the range has an even entry there. -/
def Obligations.PivotIsTheFirstUnitOfItsColumn : Prop :=
  ∀ (W : Mat) (col k r : Nat),
    match pivotFrom W col k r with
    | some p => r ≤ p ∧ p < r + k ∧ (W.get p col).toNat % 2 = 1 ∧
        ∀ q, r ≤ q → q < p → (W.get q col).toNat % 2 = 0
    | none => ∀ q, r ≤ q → q < r + k → (W.get q col).toNat % 2 = 0

/-- When invert succeeds, the product with the matrix on either side is the identity.
DERIVED: 41_matrix.md section 5 (what invert guarantees, (a)).
For every well-formed square matrix A: if invert A gives R, then R is well-formed, of A's order, and both A R and R A are the identity matrix modulo 256. -/
def Obligations.InvertGivesATwoSidedInverse : Prop :=
  ∀ A R : Mat, A.wf → A.rows = A.cols → invert A = .ok R →
    R.wf ∧ R.rows = A.rows ∧ R.cols = A.rows ∧ A.mul R = Mat.identity A.rows ∧ R.mul A = Mat.identity A.rows

/-- MINVERT gives the unique two-sided inverse when the determinant is odd, SingularMatrix otherwise.
STATED: R154.
For every state, and a source register with a well-formed square matrix A of order n: if det A (over the integers) is odd, MINVERT completes, changes only md and pc, and md holds the n x n matrix R with A R = R A = identity, the only n x n matrix with R A = identity or A R = identity; if det A is even it takes SingularMatrix with a column below n. -/
def Obligations.MinvertCompletesExactlyForOddDeterminants : Prop :=
  ∀ (s : State) (md ms : MReg) (A : Mat) (n : Nat), s.mregs[ms] = some A → A.wf → A.rows = n → A.cols = n →
    (Matrix.det (Matrix.of fun (i j : Fin n) => ((A.get i.val j.val).toNat : Int)) % 2 = 1 →
      ∃ R : Mat, exec (.minvert md ms) s = .next { s with mregs := s.mregs.set md (some R), pc := s.pc + 1 } ∧
        R.wf ∧ R.rows = n ∧ R.cols = n ∧ A.mul R = Mat.identity n ∧ R.mul A = Mat.identity n ∧
        ∀ S : Mat, S.wf → S.rows = n → S.cols = n → (A.mul S = Mat.identity n ∨ S.mul A = Mat.identity n) → S = R) ∧
    (Matrix.det (Matrix.of fun (i j : Fin n) => ((A.get i.val j.val).toNat : Int)) % 2 = 0 →
      ∃ col < n, raises (.minvert md ms) s .singularMatrix (BitVec.ofNat 32 col))

/-- VCOPY, VADD, VSUB: EmptyOperand, DimensionMismatch, or the entry-wise result modulo 256.
STATED: R164, R165, R166.
VCOPY of an empty register takes EmptyOperand(0), else vd holds the vector. VADD and VSUB with an empty source take EmptyOperand(0), with different lengths DimensionMismatch(0), else vd holds the vector of that length with entry k (a + b) mod 256, (a - b) mod 256 by the floor remainder. pc advances, nothing else changes. -/
def Obligations.VectorCopySumAndDifference : Prop :=
  ∀ (s : State) (vd va vb : VReg),
    (match s.vregs[va] with
      | none => raises (.vcopy vd va) s .emptyOperand 0
      | some x => exec (.vcopy vd va) s = .next { s with vregs := s.vregs.set vd (some x), pc := s.pc + 1 }) ∧
    (match s.vregs[va], s.vregs[vb] with
      | some x, some y =>
        if x.length = y.length then
          (∃ z : Vec, exec (.vadd vd va vb) s = .next { s with vregs := s.vregs.set vd (some z), pc := s.pc + 1 } ∧
            z.length = x.length ∧
            ∀ k, k < x.length → (Vec.get z k).toNat = ((Vec.get x k).toNat + (Vec.get y k).toNat) % 256) ∧
          (∃ z : Vec, exec (.vsub vd va vb) s = .next { s with vregs := s.vregs.set vd (some z), pc := s.pc + 1 } ∧
            z.length = x.length ∧
            ∀ k, k < x.length →
              ((Vec.get z k).toNat : Int) = ((Vec.get x k).toNat - (Vec.get y k).toNat : Int) % 256)
        else raises (.vadd vd va vb) s .dimensionMismatch 0 ∧ raises (.vsub vd va vb) s .dimensionMismatch 0
      | _, _ => raises (.vadd vd va vb) s .emptyOperand 0 ∧ raises (.vsub vd va vb) s .emptyOperand 0)

/-- AFFENC and AFFDEC: EmptyOperand, DimensionMismatch, or (A x + b) mod 256 and Ainv ((y - b) mod 256) mod 256.
STATED: R192, R194.
With A, x, b the operands: an empty one makes both take EmptyOperand(0); A not square, or x or b not of its order, DimensionMismatch(0); else AFFENC puts into vd the vector with entry i (sum A[i][t] x[t] + b[i]) mod 256, AFFDEC the one with entry i (sum A[i][t] ((x[t] - b[t]) mod 256)) mod 256. pc advances, nothing else changes. -/
def Obligations.AffineBlockTransforms : Prop :=
  ∀ (s : State) (vd : VReg) (ma : MReg) (vx vb : VReg),
    match s.mregs[ma], s.vregs[vx], s.vregs[vb] with
    | some A, some x, some b =>
      if A.rows = A.cols ∧ x.length = A.rows ∧ b.length = A.rows then
        (∃ y : Vec, exec (.affenc vd ma vx vb) s = .next { s with vregs := s.vregs.set vd (some y), pc := s.pc + 1 } ∧
          y.length = A.rows ∧
          ∀ i, i < A.rows → (Vec.get y i).toNat =
            (∑ t ∈ Finset.range A.rows, (A.get i t).toNat * (Vec.get x t).toNat + (Vec.get b i).toNat) % 256) ∧
        (∃ y : Vec, exec (.affdec vd ma vx vb) s = .next { s with vregs := s.vregs.set vd (some y), pc := s.pc + 1 } ∧
          y.length = A.rows ∧
          ∀ i, i < A.rows → (Vec.get y i).toNat =
            (∑ t ∈ Finset.range A.rows,
              (A.get i t).toNat * ((256 + (Vec.get x t).toNat - (Vec.get b t).toNat) % 256)) % 256)
      else raises (.affenc vd ma vx vb) s .dimensionMismatch 0 ∧ raises (.affdec vd ma vx vb) s .dimensionMismatch 0
    | _, _, _ => raises (.affenc vd ma vx vb) s .emptyOperand 0 ∧ raises (.affdec vd ma vx vb) s .emptyOperand 0

/-- enc is the vector sum of A x and b, dec is the product of Ainv with y - b.
DERIVED: 43_cipher.md section 1 (the two transforms as VADD of MVMUL and MVMUL of VSUB).
For every matrix A and vectors of matching lengths: enc(A, b, x) = VADD(MVMUL(A, x), b) and dec(A, b, y) = MVMUL(A, VSUB(y, b)). -/
def Obligations.BlockTransformsAreProductsAndSums : Prop :=
  ∀ (A : Mat) (b x : Vec), b.length = A.rows → x.length = A.cols →
    enc A b x = Vec.add (A.mulVec x) b ∧ dec A b x = A.mulVec (Vec.sub x b)

/-- With the inverse key matrix, decrypting an encrypted block gives the block back.
DERIVED: 43_cipher.md section 4 (round trip).
For every well-formed square A that invert inverts to R, every offset b and block x of A's order: dec(R, b, enc(A, b, x)) = x. -/
def Obligations.DecryptionUndoesEncryptionOfABlock : Prop :=
  ∀ (A R : Mat) (b x : Vec), A.wf → A.rows = A.cols → invert A = .ok R → b.length = A.rows → x.length = A.rows →
    dec R b (enc A b x) = x

/-- ENCRYPT and DECRYPT of a run: the checks in order, then every block transformed and nothing else.
STATED: R196, R197, R198.
With A, b, src, dst, cnt the operands and L = cnt A.rows: EmptyOperand(0), then DimensionMismatch(0), then OperandRange(0) for cnt < 0, then AccessFault(src), AccessFault(dst), AccessFault(dst) for a partial overlap. Else, if the source run holds the bytes B, entry r of block i at dst + i n + r is the entry of the transformed block, every byte outside the destination run and the rest of the state is as before but pc. -/
def Obligations.RunsAreTransformedBlockByBlock : Prop :=
  ∀ (s : State) (ma : MReg) (vb : VReg) (ssrc sdst scnt : SReg) (i : Instr),
    (i = .encrypt ma vb ssrc sdst scnt ∨ i = .decrypt ma vb ssrc sdst scnt) →
    match s.mregs[ma], s.vregs[vb] with
    | some A, some b =>
      if ¬(A.rows = A.cols ∧ b.length = A.rows) then raises i s .dimensionMismatch 0
      else if scalarInt s scnt < 0 then raises i s .operandRange 0
      else if ¬ inRange (scalarInt s ssrc) (scalarInt s scnt * A.rows) then raises i s .accessFault s.sregs[ssrc]
      else if ¬ inRange (scalarInt s sdst) (scalarInt s scnt * A.rows) then raises i s .accessFault s.sregs[sdst]
      else if 0 < scalarInt s scnt * A.rows ∧ scalarInt s ssrc ≠ scalarInt s sdst ∧
          scalarInt s ssrc < scalarInt s sdst + scalarInt s scnt * A.rows ∧
          scalarInt s sdst < scalarInt s ssrc + scalarInt s scnt * A.rows then raises i s .accessFault s.sregs[sdst]
      else ∀ B, holds s.dmem (scalarInt s ssrc).toNat ((scalarInt s scnt).toNat * A.rows) B →
        ∃ d, exec i s = .next { s with dmem := d, pc := s.pc + 1 } ∧
          sameOutside s.dmem d (scalarInt s sdst).toNat ((scalarInt s scnt).toNat * A.rows) ∧
          ∀ k r, k < (scalarInt s scnt).toNat → r < A.rows →
            ∃ y : Byte, cellGet d ((scalarInt s sdst).toNat + (k * A.rows + r)) = some y ∧
              (i = .encrypt ma vb ssrc sdst scnt → y.toNat =
                (∑ t ∈ Finset.range A.rows, (A.get r t).toNat * (B (k * A.rows + t)).toNat + (Vec.get b r).toNat) % 256) ∧
              (i = .decrypt ma vb ssrc sdst scnt → y.toNat =
                (∑ t ∈ Finset.range A.rows,
                  (A.get r t).toNat * ((256 + (B (k * A.rows + t)).toNat - (Vec.get b t).toNat) % 256)) % 256)
    | _, _ => raises i s .emptyOperand 0

/-- Reading the whole run and then writing it gives what the spec's loop over the blocks gives.
DERIVED: 43_cipher.md section 3 (the loop over the blocks; any order gives the same result), notes/assumptions/9.md.
For every transform with results of n bytes, and a source and a destination run that are the same or disjoint, if the source run can be read: the loop that reads, transforms and writes one block after the other ends in the memory the model writes (the whole source run read first, log 9). -/
def Obligations.RunTransformIsTheLoopOverBlocks : Prop :=
  ∀ (f : Vec → Vec) (n cnt src dst : Nat) (m : Memory) (bytes : List Byte), (∀ x, (f x).length = n) →
    (src = dst ∨ src + cnt * n ≤ dst ∨ dst + cnt * n ≤ src) → bytesAt m src (cnt * n) = .ok bytes →
    blockLoop f n cnt src dst m = .ok (putBytes m dst ((blocksOf n cnt bytes).flatMap f))

/-- ENCRYPT in place and then DECRYPT in place with the inverse matrix leaves DMEM as it was.
DERIVED: 43_cipher.md section 4 (DECRYPT with the inverse undoes ENCRYPT on any run).
If a RUNNING engine's ENCRYPT with a well-shaped key (A, b), A well-formed, source and destination register the same, completes, and another matrix register holds invert(A), then DECRYPT with that register, the same b, run and count completes, and DMEM is the data it was before both. -/
def Obligations.DecryptInPlaceRestoresTheRun : Prop :=
  ∀ (s t : State) (ma mi : MReg) (vb : VReg) (sr sc : SReg) (A R : Mat) (b : Vec), s.runState = .running → s.dmem.wf →
    s.mregs[ma] = some A → A.wf → A.rows = A.cols → s.vregs[vb] = some b → b.length = A.rows →
    s.mregs[mi] = some R → invert A = .ok R →
    exec (.encrypt ma vb sr sr sc) s = .next t → t.runState = .running →
    exec (.decrypt mi vb sr sr sc) t = .next { t with dmem := s.dmem, pc := t.pc + 1 }

/-- RECOVER's validation: OperandRange, the three AccessFaults, then OperandRange of a candidate, in order.
STATED: R213.
With N, anchor, K, Pbase, Cbase, candBase in s10, s11, s13, s8, s9, s12: OperandRange(0) if N < 0, K < 0, anchor < 0 or anchor >= N; else AccessFault(Pbase), AccessFault(Cbase), AccessFault(candBase) for the first range that fails; else, if the candidate list can be read and an entry is at or above N, OperandRange(0). -/
def Obligations.RecoverValidatesItsInputs : Prop :=
  ∀ (s : State) (md : MReg) (vd : VReg) (n : Nat),
    if scalarInt s 10 < 0 ∨ scalarInt s 13 < 0 ∨ scalarInt s 11 < 0 ∨ scalarInt s 10 ≤ scalarInt s 11 then
      raises (.recover md vd n) s .operandRange 0
    else if ¬ inRange (scalarInt s 8) (scalarInt s 10 * n) then raises (.recover md vd n) s .accessFault s.sregs[8]
    else if ¬ inRange (scalarInt s 9) (scalarInt s 10 * n) then raises (.recover md vd n) s .accessFault s.sregs[9]
    else if ¬ inRange (scalarInt s 12) (2 * scalarInt s 13) then raises (.recover md vd n) s .accessFault s.sregs[12]
    else ∀ lo hi : Nat → Byte, (∀ j : Nat, (j : Int) < scalarInt s 13 →
        cellGet s.dmem ((scalarInt s 12).toNat + 2 * j) = some (lo j) ∧
        cellGet s.dmem ((scalarInt s 12).toNat + 2 * j + 1) = some (hi j)) →
      (∃ j : Nat, (j : Int) < scalarInt s 13 ∧ scalarInt s 10 ≤ ((lo j).toNat + 256 * (hi j).toNat : Nat)) →
      raises (.recover md vd n) s .operandRange 0

/-- RECOVER on valid inputs: the key of the first invertible combination in order, or RecoveryExhausted.
DERIVED: 44_recovery.md section 2 and section 3 (the search and the instruction).
On valid inputs with plaintext entries P, ciphertext entries C and candidate list cands: if a combination of n candidates, in enumeration order, is the first whose plaintext difference matrix inverts, to X, then RECOVER puts into md the product of the ciphertext difference matrix with X, into vd (y0 - A x0) mod 256, and advances pc, nothing else; if there is none it takes RecoveryExhausted(0). -/
def Obligations.RecoverReturnsTheFirstInvertibleCombination : Prop :=
  ∀ (s : State) (md : MReg) (vd : VReg) (n : Nat) (P C : Nat → Nat → Byte) (cands : List Nat),
    RecoverInputs s n P C cands →
    match (combinations n cands).find? (fun comb => (invert (diffOf n (scalarInt s 11).toNat P comb)).isOk) with
    | some comb => ∃ (X A : Mat) (b : Vec), invert (diffOf n (scalarInt s 11).toNat P comb) = .ok X ∧
        A = (diffOf n (scalarInt s 11).toNat C comb).mul X ∧
        b = Vec.sub (Vec.ofFn n (C (scalarInt s 11).toNat)) (A.mulVec (Vec.ofFn n (P (scalarInt s 11).toNat))) ∧
        exec (.recover md vd n) s =
          .next { s with mregs := s.mregs.set md (some A), vregs := s.vregs.set vd (some b), pc := s.pc + 1 }
    | none => raises (.recover md vd n) s .recoveryExhausted 0

/-- The combinations: every increasing sequence of n positions, each once, in lexicographic order.
STATED: R216.
For every n and K the enumeration over the positions 0 .. K-1 lists exactly the strictly increasing sequences of n positions, in strictly rising lexicographic order, C(K, n) in all; and for every list of candidates the enumeration is the one over positions with each position replaced by the list's entry there, in list order. -/
def Obligations.CombinationsAreTriedInLexicographicOrder : Prop :=
  ∀ n K : Nat,
    (∀ p : List Nat, p ∈ combinations n (List.range K) ↔ p.length = n ∧ p.Pairwise (· < ·) ∧ ∀ x ∈ p, x < K) ∧
    (combinations n (List.range K)).Pairwise (List.Lex (· < ·)) ∧
    (combinations n (List.range K)).length = Nat.choose K n ∧
    ∀ l : List Nat, l.length = K →
      combinations n l = (combinations n (List.range K)).map (fun p => p.map (fun j => l.getD j 0))

/-- If the pairs come from one affine map and RECOVER completes, it gives that very key.
DERIVED: 44_recovery.md section 3 (correctness contract: the recovered key equals the generating key).
On valid inputs whose ciphertext blocks are enc(A, b, .) of the plaintext blocks for a key (A, b) of order n with all entries listed: if RECOVER from a RUNNING state completes, md holds A and vd holds b. -/
def Obligations.RecoveredKeyIsTheGeneratingKey : Prop :=
  ∀ (s t : State) (md : MReg) (vd : VReg) (n : Nat) (P C : Nat → Nat → Byte) (cands : List Nat) (A : Mat) (b : Vec),
    RecoverInputs s n P C cands → s.runState = .running → A.wf → A.rows = n → A.cols = n → b.length = n →
    (∀ i : Nat, (i : Int) < scalarInt s 10 → Vec.ofFn n (C i) = enc A b (Vec.ofFn n (P i))) →
    exec (.recover md vd n) s = .next t → t.runState = .running →
    t.mregs[md] = some A ∧ t.vregs[vd] = some b

/-- CTRL: START, STOP, CLEAR and SRESET in each run state, and their order in one write.
STATED: R36, R282, R283, R285, R286.
START makes IDLE and HALTED RUNNING and is ignored else; STOP sets STOPREQ in RUNNING and is ignored else; CLEAR makes FAULTED IDLE and clears the fault record, keeping pc, and is ignored else; a write of CTRL with bit 3 set resets, else does CLEAR (bit 2), START (bit 0), STOP (bit 1) in this order, and is answered ok; CTRL reads 0. The response stands in the model's own field lastReply (log 4). -/
def Obligations.RunControlCommands : Prop :=
  ∀ s : State,
    (s.runState = .idle ∨ s.runState = .halted → ctrlStart s = { s with runState := .running }) ∧
    (s.runState = .running ∨ s.runState = .faulted → ctrlStart s = s) ∧
    (s.runState = .running → ctrlStop s = { s with stopReq := true }) ∧ (s.runState ≠ .running → ctrlStop s = s) ∧
    (s.runState = .faulted → clearFault s = { s with ecause := 0, epc := 0, einfo := 0, runState := .idle }) ∧
    (s.runState ≠ .faulted → clearFault s = s) ∧
    (∀ d : Word, d.getLsbD 3 = true → hostAct (.write32 0x08 d) s = .next { resetEvent s with lastReply := some .done }) ∧
    (∀ (d : Word) (s1 s2 s3 : State), d.getLsbD 3 = false →
      s1 = (if d.getLsbD 2 = true then clearFault s else s) → s2 = (if d.getLsbD 0 = true then ctrlStart s1 else s1) →
      s3 = (if d.getLsbD 1 = true then ctrlStop s2 else s2) →
      hostAct (.write32 0x08 d) s = .next { s3 with lastReply := some .done }) ∧
    hostAct (.read32 0x08) s = .next { s with lastReply := some (.data32 0) }

/-- ID, CONFIG, STATUS, PC, ECAUSE, EPC, EINFO, IE, MODULUS, IMEMSZ, DMEMSZ and irq as the host sees them.
DERIVED: 10_state.md section 8 (the control and status registers; which writes are errors), 60_exceptions.md section 5 (the level of the interrupt output), 60_exceptions.md section 8 (what is allowed when), notes/assumptions/1.md, notes/assumptions/4.md.
In every state a 32-bit read of each register is answered with its value (ID 0x41484501, CONFIG 0x00010888, STATUS STATE + 4 STOPREQ + 8 irq, the zero-extended ECAUSE, EPC and IE, EINFO, and while not RUNNING the zero-extended pc, MODULUS 256, IMEMSZ, DMEMSZ) and changes nothing; a write of a read-only one is answered with an error and changes nothing; a write of IE keeps bits 1..0; irq is the level of IE and STATE, low after START from HALTED, CLEAR from FAULTED, and reset. The values of CONFIG, IMEMSZ and DMEMSZ are those of the reference configuration, the model's choice of the parameters (log 1). The response stands in the model's own field lastReply (log 4). -/
def Obligations.ControlRegistersReadAsSpecified : Prop :=
  ∀ s : State,
    (∀ p ∈ [((0x00 : HostAddr), (0x41484501 : Word)), (0x04, 0x00010888),
        (0x14, s.ecause.setWidth 32), (0x18, s.epc.setWidth 32), (0x1C, s.einfo), (0x20, s.ie.setWidth 32),
        (0x24, 0x00000100), (0x2C, 0x00000400), (0x30, 0x00010000)],
      hostAct (.read32 p.1) s = .next { s with lastReply := some (.data32 p.2) }) ∧
    (s.runState ≠ .running →
      hostAct (.read32 0x10) s = .next { s with lastReply := some (.data32 (s.pc.setWidth 32)) }) ∧
    (∃ w : Word, hostAct (.read32 0x0C) s = .next { s with lastReply := some (.data32 w) } ∧
      w.toNat = (match s.runState with | .idle => 0 | .running => 1 | .halted => 2 | .faulted => 3)
        + 4 * s.stopReq.toNat + 8 * (irq s).toNat) ∧
    (∀ a ∈ [(0x00 : HostAddr), 0x04, 0x0C, 0x14, 0x18, 0x1C, 0x24, 0x2C, 0x30], ∀ d : Word,
      hostAct (.write32 a d) s = .next { s with lastReply := some .errorResponse }) ∧
    (∀ d : Word, hostAct (.write32 0x20 d) s = .next { s with ie := d.setWidth 2, lastReply := some .done }) ∧
    (irq s = true ↔ (s.ie.getLsbD 0 = true ∧ s.runState = .halted) ∨ (s.ie.getLsbD 1 = true ∧ s.runState = .faulted)) ∧
    (s.runState = .halted → irq (ctrlStart s) = false) ∧ (s.runState = .faulted → irq (clearFault s) = false) ∧
    irq (resetEvent s) = false

/-- Unmapped accesses are errors, an error has no effect, and while RUNNING only SRESET changes registers, pc or memory.
DERIVED: 60_exceptions.md section 8 (what is allowed when), 20_memory.md section 1 (the host space), 10_state.md section 8 (reserved offsets), 70_reset_and_hazards.md section 3 (host and engine never race on data).
For every transaction (every port action but the reset wire) that is answered: if the answer is an error, nothing but the last reply changed; a read changes nothing but the last reply; if STATE was RUNNING and the transaction is no write of CTRL with SRESET, the scalar, matrix and vector registers, pc, IMEM, DMEM and the fault record are as before. In every state these are answered with an error and change nothing but the last reply: an 8-bit read or write outside the DMEM_SIZE bytes of the DMEM window; a 32-bit one that is neither an aligned offset below 0x100 nor an aligned address of the IMEM_WORDS words of the IMEM window; a 32-bit one at the reserved offsets 0x28, 0x34 to 0x3C, 0x80 to 0xFC. The response stands in the model's own field lastReply (log 4). -/
def Obligations.RunningEngineIsClosedToTheHost : Prop :=
  (∀ (op : HostOp) (s t : State), op ≠ .reset → hostAct op s = .next t →
    (t.lastReply = some .errorResponse → t = { s with lastReply := some .errorResponse }) ∧
    (∀ a, op = .read8 a ∨ op = .read32 a → t = { s with lastReply := t.lastReply }) ∧
    (s.runState = .running → (∀ d : Word, op = .write32 0x08 d → d.getLsbD 3 = false) →
      t.sregs = s.sregs ∧ t.mregs = s.mregs ∧ t.vregs = s.vregs ∧ t.pc = s.pc ∧ t.imem = s.imem ∧ t.dmem = s.dmem ∧
      t.ecause = s.ecause ∧ t.epc = s.epc ∧ t.einfo = s.einfo)) ∧
  (∀ (s : State) (a : HostAddr),
    (a.toNat < 0x100000 ∨ 0x100000 + Config.dmemSize ≤ a.toNat →
      hostAct (.read8 a) s = .next { s with lastReply := some .errorResponse } ∧
      ∀ d : Byte, hostAct (.write8 a d) s = .next { s with lastReply := some .errorResponse }) ∧
    (a.toNat % 4 ≠ 0 ∨ (0x100 ≤ a.toNat ∧ (a.toNat < 0x010000 ∨ 0x010000 + 4 * Config.imemWords ≤ a.toNat)) ∨
        a.toNat = 0x28 ∨ (0x34 ≤ a.toNat ∧ a.toNat < 0x40) ∨ (0x80 ≤ a.toNat ∧ a.toNat < 0x100) →
      hostAct (.read32 a) s = .next { s with lastReply := some .errorResponse } ∧
      ∀ d : Word, hostAct (.write32 a d) s = .next { s with lastReply := some .errorResponse }))

/-- A host write reaches its IMEM word, DMEM byte, scalar register or pc and a read returns it; while RUNNING all but a read of pc are errors.
STATED: R63, R67, R44, R38.
While STATE is not RUNNING: a 32-bit write at 0x010000 + 4i (i < IMEM_WORDS) sets IMEM word i, an 8-bit write at 0x100000 + a (a < DMEM_SIZE) sets DMEM byte a, a 32-bit write at 0x40 + 4r sets s[r], each answered ok with nothing else changed, and a read returns the cell's value. While RUNNING each read and each write there is answered with an error and changes nothing. A 32-bit read of PC returns a zero-extended 16-bit value in every run state, pc itself while not RUNNING, and changes nothing; a write of PC sets pc to bits 15..0 of the data, answered ok with nothing else changed, while not RUNNING, and is answered with an error and changes nothing while RUNNING. The response stands in the model's own field lastReply (log 4). -/
def Obligations.WindowsReachTheMemoriesAndRegisters : Prop :=
  ∀ (s : State) (i a : Nat) (r : SReg) (w : Word) (b : Byte), i < Config.imemWords → a < Config.dmemSize →
    (s.runState ≠ .running →
      (∃ m, hostAct (.write32 (BitVec.ofNat 21 (0x010000 + 4 * i)) w) s =
          .next { s with imem := m, lastReply := some .done } ∧
        cellGet m i = some w ∧ ∀ j, j ≠ i → cellGet m j = cellGet s.imem j) ∧
      (∀ v, cellGet s.imem i = some v →
        hostAct (.read32 (BitVec.ofNat 21 (0x010000 + 4 * i))) s = .next { s with lastReply := some (.data32 v) }) ∧
      (∃ m, hostAct (.write8 (BitVec.ofNat 21 (0x100000 + a)) b) s =
          .next { s with dmem := m, lastReply := some .done } ∧
        cellGet m a = some b ∧ ∀ j, j ≠ a → cellGet m j = cellGet s.dmem j) ∧
      (∀ v, cellGet s.dmem a = some v →
        hostAct (.read8 (BitVec.ofNat 21 (0x100000 + a))) s = .next { s with lastReply := some (.data8 v) }) ∧
      hostAct (.write32 (BitVec.ofNat 21 (0x40 + 4 * r.val)) w) s =
        .next { s with sregs := s.sregs.set r w, lastReply := some .done } ∧
      hostAct (.read32 (BitVec.ofNat 21 (0x40 + 4 * r.val))) s = .next { s with lastReply := some (.data32 s.sregs[r]) } ∧
      hostAct (.write32 0x10 w) s = .next { s with pc := w.extractLsb' 0 16, lastReply := some .done } ∧
      hostAct (.read32 0x10) s = .next { s with lastReply := some (.data32 (s.pc.setWidth 32)) }) ∧
    (∃ c : CodeIndex, hostAct (.read32 0x10) s = .next { s with lastReply := some (.data32 (c.setWidth 32)) }) ∧
    (s.runState = .running → ∀ op ∈ [HostOp.write32 (BitVec.ofNat 21 (0x010000 + 4 * i)) w,
        .read32 (BitVec.ofNat 21 (0x010000 + 4 * i)), .write8 (BitVec.ofNat 21 (0x100000 + a)) b,
        .read8 (BitVec.ofNat 21 (0x100000 + a)), .write32 (BitVec.ofNat 21 (0x40 + 4 * r.val)) w,
        .read32 (BitVec.ofNat 21 (0x40 + 4 * r.val)), .write32 0x10 w],
      hostAct op s = .next { s with lastReply := some .errorResponse })

/-- A program written through the IMEM window, word by word, stands in IMEM.
DERIVED: 70_reset_and_hazards.md section 2 (the boot sequence, step 2), notes/assumptions/3.md.
For every list of at most IMEM_WORDS words and every state that is not RUNNING and whose turns are the writes of those words from word 0 upward (the model's own schedule, log 3): after as many steps as words, IMEM word k is word k of the list, every other IMEM word is as before, no turn is left, and everything but IMEM, the turns and the last reply is as before. -/
def Obligations.ProgramLoadsThroughTheHostPort : Prop :=
  ∀ (ws : List Word) (s : State), ws.length ≤ Config.imemWords → s.runState ≠ .running → s.turns = loadProgram 0 ws →
    ∃ m r, Host.Core.run Sys2Proof.core ws.length s = .next { s with imem := m, turns := [], lastReply := r } ∧
      (∀ k, k < ws.length → cellGet m k = some (ws.getD k 0)) ∧ ∀ k, ws.length ≤ k → cellGet m k = cellGet s.imem k

/-- The host's chunk followed by unchunk with the original length gives the bytes back.
DERIVED: 42_blockcodec.md (the chunk and unchunk duties of the host; padding idempotence).
For every byte sequence D and every block width n >= 1: chunk(D, n) has ceil(len D / n) blocks, each of n bytes, their concatenation is D followed by zeros, and unchunk of it with len D is D. -/
def Obligations.ChunkThenUnchunkReproducesTheBytes : Prop :=
  ∀ (D : List Byte) (n : Nat), 1 ≤ n →
    (chunk D n).length * n < D.length + n ∧ D.length ≤ (chunk D n).length * n ∧ (∀ x ∈ chunk D n, x.length = n) ∧
    (chunk D n).flatten = D ++ List.replicate ((chunk D n).length * n - D.length) 0 ∧
    unchunk (chunk D n) D.length = D

/-- DECRYPT with the inverse matrix of an encrypted run, to any legal place, gives the bytes of the source run.
DERIVED: 43_cipher.md section 4 (DECRYPT with the inverse undoes ENCRYPT on any run), 43_cipher.md section 3 (the checks of the memory forms).
If a RUNNING engine's ENCRYPT with a well-shaped key (A, b), A well-formed, from the run at s[ss] to the run at s[sd], the same or another, completes, a matrix register holds invert(A), and the run at s[se] is inside DMEM and is the encrypted run or disjoint from it (so it may be the source run), then DECRYPT of the encrypted run to s[se] completes, each byte of the run at s[se] is the byte the source run had before both, and every byte outside it and the rest of the state is as ENCRYPT left it but pc. -/
def Obligations.DecryptionOfAnEncryptedRunGivesTheSource : Prop :=
  ∀ (s t : State) (ma mi : MReg) (vb : VReg) (ss sd se sc : SReg) (A R : Mat) (b : Vec), s.runState = .running →
    s.mregs[ma] = some A → A.wf → A.rows = A.cols → s.vregs[vb] = some b → b.length = A.rows →
    s.mregs[mi] = some R → invert A = .ok R →
    exec (.encrypt ma vb ss sd sc) s = .next t → t.runState = .running →
    inRange (scalarInt s se) (scalarInt s sc * A.rows) →
    (scalarInt s se = scalarInt s sd ∨ scalarInt s se + scalarInt s sc * A.rows ≤ scalarInt s sd ∨
      scalarInt s sd + scalarInt s sc * A.rows ≤ scalarInt s se) →
    ∃ d, exec (.decrypt mi vb sd se sc) t = .next { t with dmem := d, pc := t.pc + 1 } ∧
      (∀ k, k < (scalarInt s sc).toNat * A.rows →
        cellGet d ((scalarInt s se).toNat + k) = cellGet s.dmem ((scalarInt s ss).toNat + k)) ∧
      sameOutside t.dmem d (scalarInt s se).toNat ((scalarInt s sc).toNat * A.rows)
end

