-- ==== Sys2Proof/Laws/Algebra.lean ====
section
/-! SUPPORT. The small lemmas of matrices and vectors: shapes, entries, well-formedness. -/

namespace Sys2Proof.Machine

@[simp] theorem ofFn_rows (r c : Nat) (f : Nat → Nat → Byte) : (Mat.ofFn r c f).rows = r := rfl
@[simp] theorem ofFn_cols (r c : Nat) (f : Nat → Nat → Byte) : (Mat.ofFn r c f).cols = c := rfl
@[simp] theorem ofFn_length (r c : Nat) (f : Nat → Nat → Byte) : (Mat.ofFn r c f).entries.length = r * c := by
  simp [Mat.ofFn]

/-- Inside the shape, entry `[i][j]` of `ofFn` is `f i j`. -/
theorem ofFn_get {r c : Nat} {f : Nat → Nat → Byte} {i j : Nat} (hi : i < r) (hj : j < c) :
    (Mat.ofFn r c f).get i j = f i j := by
  have hlt : i * c + j < r * c := by
    calc i * c + j < i * c + c := by omega
      _ = (i + 1) * c := by ring
      _ ≤ r * c := Nat.mul_le_mul_right c hi
  have hc : 0 < c := by omega
  have hd : (i * c + j) / c = i := by
    rw [Nat.mul_comm, Nat.mul_add_div hc, Nat.div_eq_of_lt hj, Nat.add_zero]
  have hm : (i * c + j) % c = j := by
    rw [Nat.mul_comm, Nat.mul_add_mod, Nat.mod_eq_of_lt hj]
  simp [Mat.get, Mat.ofFn, List.getD_eq_getElem?_getD, hlt, hd, hm]

/-- `ofFn` of dimensions in range is well-formed. -/
theorem ofFn_wf {r c : Nat} {f : Nat → Nat → Byte} (hr : 1 ≤ r ∧ r ≤ Config.nmax) (hc : 1 ≤ c ∧ c ≤ Config.nmax) :
    (Mat.ofFn r c f).wf := ⟨hr.1, hr.2, hc.1, hc.2, by simp⟩

@[simp] theorem bytes_length (A : Mat) : A.bytes.length = A.rows * A.cols := by simp [Mat.bytes]

/-- Byte `i * cols + j` of what MSTORE stores is entry `[i][j]`. -/
theorem bytes_getD {A : Mat} {i j : Nat} (hi : i < A.rows) (hj : j < A.cols) :
    A.bytes.getD (i * A.cols + j) 0 = A.get i j := by
  have := ofFn_get (f := A.get) hi hj
  simpa [Mat.get, Mat.ofFn, Mat.bytes] using this

/-- Two matrices of one shape with all entries listed and equal entries are equal. -/
theorem mat_ext {A B : Mat} (hr : A.rows = B.rows) (hc : A.cols = B.cols) (hA : A.entries.length = A.rows * A.cols)
    (hB : B.entries.length = B.rows * B.cols) (h : ∀ i j, i < A.rows → j < A.cols → A.get i j = B.get i j) : A = B := by
  obtain ⟨r, c, e⟩ := A
  obtain ⟨r', c', e'⟩ := B
  simp only at hr hc hA hB h
  subst hr hc
  congr 1
  refine List.ext_getElem (by omega) fun p h1 h2 => ?_
  have hc : 0 < c := Nat.pos_of_ne_zero (by rintro rfl; simp at hA; simp [hA] at h1)
  have hd : p / c < r := by rw [Nat.div_lt_iff_lt_mul hc]; omega
  have := h (p / c) (p % c) hd (Nat.mod_lt _ hc)
  have hp : p / c * c + p % c = p := by rw [Nat.mul_comm]; exact Nat.div_add_mod p c
  simpa [Mat.get, hp, List.getD_eq_getElem?_getD, h1, h2] using this

@[simp] theorem vec_ofFn_length (n : Nat) (f : Nat → Byte) : (Vec.ofFn n f).length = n := by simp [Vec.ofFn]

/-- Inside the vector, entry `k` of `ofFn` is `f k`. -/
theorem vec_ofFn_get {n k : Nat} {f : Nat → Byte} (h : k < n) : Vec.get (Vec.ofFn n f) k = f k := by
  simp [Vec.get, Vec.ofFn, List.getD_eq_getElem?_getD, h]

/-- Two vectors of one length with equal entries are equal. -/
theorem vec_ext {x y : Vec} (hl : x.length = y.length) (h : ∀ k, k < x.length → Vec.get x k = Vec.get y k) : x = y := by
  refine List.ext_getElem hl fun k h1 h2 => ?_
  simpa [Vec.get, List.getD_eq_getElem?_getD, h1, h2] using h k h1

/-- `reduce` is the remainder modulo 256. -/
@[simp] theorem reduce_toNat (v : Nat) : (reduce v).toNat = v % 256 := by simp [reduce]

/-- `subMod` is subtraction of bytes. -/
theorem subMod_eq (a b : Byte) : subMod a b = a - b := by
  apply BitVec.eq_of_toNat_eq
  have ha := a.isLt
  have hb := b.isLt
  simp only [subMod, BitVec.toNat_ofInt, BitVec.toNat_sub]
  omega

/-- `dot` as a sum over a range. -/
theorem dot_eq (k : Nat) (f g : Nat → Byte) : dot k f g = ∑ t ∈ Finset.range k, (f t).toNat * (g t).toNat := by
  unfold dot
  induction k with
  | zero => simp
  | succ k ih => simp [List.range_succ, Finset.sum_range_succ, ih]

@[simp] theorem mul_rows (A B : Mat) : (A.mul B).rows = A.rows := rfl
@[simp] theorem mul_cols (A B : Mat) : (A.mul B).cols = B.cols := rfl
@[simp] theorem transpose_rows (A : Mat) : A.transpose.rows = A.cols := rfl
@[simp] theorem transpose_cols (A : Mat) : A.transpose.cols = A.rows := rfl
@[simp] theorem identity_rows (n : Nat) : (Mat.identity n).rows = n := rfl
@[simp] theorem identity_cols (n : Nat) : (Mat.identity n).cols = n := rfl
@[simp] theorem mulVec_length (A : Mat) (x : Vec) : (A.mulVec x).length = A.rows := by simp [Mat.mulVec]
@[simp] theorem add_length (x y : Vec) : (Vec.add x y).length = x.length := by simp [Vec.add]
@[simp] theorem sub_length (x y : Vec) : (Vec.sub x y).length = x.length := by simp [Vec.sub]
@[simp] theorem enc_length (A : Mat) (b x : Vec) : (enc A b x).length = A.rows := by simp [enc]
@[simp] theorem dec_length (A : Mat) (b y : Vec) : (dec A b y).length = A.rows := by simp [dec]
@[simp] theorem augment_rows (A : Mat) : (augment A).rows = A.rows := rfl
@[simp] theorem augment_cols (A : Mat) : (augment A).cols = 2 * A.rows := rfl
@[simp] theorem swapRows_rows (W : Mat) (r c : Nat) : (swapRows W r c).rows = W.rows := rfl
@[simp] theorem swapRows_cols (W : Mat) (r c : Nat) : (swapRows W r c).cols = W.cols := rfl
@[simp] theorem scaleRow_rows (W : Mat) (c : Nat) (p : Byte) : (scaleRow W c p).rows = W.rows := rfl
@[simp] theorem scaleRow_cols (W : Mat) (c : Nat) (p : Byte) : (scaleRow W c p).cols = W.cols := rfl
@[simp] theorem eliminate_rows (W : Mat) (c : Nat) : (eliminate W c).rows = W.rows := rfl
@[simp] theorem eliminate_cols (W : Mat) (c : Nat) : (eliminate W c).cols = W.cols := rfl

end Sys2Proof.Machine
end

