-- ==== Sys2Proof/Laws/Encoding.lean ====
section
/-! SUPPORT. The fields of a word as quotients and remainders, and the fields of the words the encoder builds. -/

namespace Sys2Proof

/-- A dimension of a `d` slot is in 1..NMAX. -/
theorem dimOk_iff {d : Nat} : dimOk d = true ↔ 1 ≤ d ∧ d ≤ Config.nmax := by
  simp [dimOk]

/-- A dimension of a `d` slot fits four bits. -/
theorem dimOk_lt {d : Nat} (h : dimOk d = true) : d < 16 := by
  have := (dimOk_iff.1 h).2
  unfold Config.nmax at this
  omega

theorem fieldOpcode_toNat (w : Word) : (fieldOpcode w).toNat = w.toNat / 16777216 % 256 := by
  simp only [fieldOpcode, BitVec.extractLsb'_toNat, Nat.shiftRight_eq_div_pow, Nat.reducePow]

theorem fieldF1_toNat (w : Word) : (fieldF1 w).toNat = w.toNat / 1048576 % 16 := by
  simp only [fieldF1, BitVec.extractLsb'_toNat, Nat.shiftRight_eq_div_pow, Nat.reducePow]

theorem fieldF2_toNat (w : Word) : (fieldF2 w).toNat = w.toNat / 65536 % 16 := by
  simp only [fieldF2, BitVec.extractLsb'_toNat, Nat.shiftRight_eq_div_pow, Nat.reducePow]

theorem fieldF3_toNat (w : Word) : (fieldF3 w).toNat = w.toNat / 4096 % 16 := by
  simp only [fieldF3, BitVec.extractLsb'_toNat, Nat.shiftRight_eq_div_pow, Nat.reducePow]

theorem fieldF4_toNat (w : Word) : (fieldF4 w).toNat = w.toNat / 256 % 16 := by
  simp only [fieldF4, BitVec.extractLsb'_toNat, Nat.shiftRight_eq_div_pow, Nat.reducePow]

theorem fieldF5_toNat (w : Word) : (fieldF5 w).toNat = w.toNat / 16 % 16 := by
  simp only [fieldF5, BitVec.extractLsb'_toNat, Nat.shiftRight_eq_div_pow, Nat.reducePow]

theorem fieldZ_toNat (w : Word) : (fieldZ w).toNat = w.toNat % 16 := by
  simp only [fieldZ, BitVec.extractLsb'_toNat, Nat.shiftRight_eq_div_pow, Nat.reducePow, Nat.div_one]

theorem fieldImm_toNat (w : Word) : (fieldImm w).toNat = w.toNat % 65536 := by
  simp only [fieldImm, BitVec.extractLsb'_toNat, Nat.shiftRight_eq_div_pow, Nat.reducePow, Nat.div_one]

theorem wordR_toNat {op f1 f2 f3 f4 f5 : Nat} (ho : op < 256) (h1 : f1 < 16) (h2 : f2 < 16) (h3 : f3 < 16) (h4 : f4 < 16)
    (h5 : f5 < 16) : (wordR op f1 f2 f3 f4 f5).toNat =
      op * 16777216 + f1 * 1048576 + f2 * 65536 + f3 * 4096 + f4 * 256 + f5 * 16 := by
  simp only [wordR, BitVec.toNat_ofNat, Nat.reducePow]
  exact Nat.mod_eq_of_lt (by omega)

theorem wordI_toNat {op f1 f2 : Nat} {imm : BitVec 16} (ho : op < 256) (h1 : f1 < 16) (h2 : f2 < 16) :
    (wordI op f1 f2 imm).toNat = op * 16777216 + f1 * 1048576 + f2 * 65536 + imm.toNat := by
  have := imm.isLt
  simp only [wordI, BitVec.toNat_ofNat, Nat.reducePow]
  exact Nat.mod_eq_of_lt (by omega)

/-! ### The fields of a word of layout R -/

section LayoutR
variable {op f1 f2 f3 f4 f5 : Nat}

theorem fieldOpcode_wordR (ho : op < 256) (h1 : f1 < 16) (h2 : f2 < 16) (h3 : f3 < 16) (h4 : f4 < 16)
    (h5 : f5 < 16) : (fieldOpcode (wordR op f1 f2 f3 f4 f5)).toNat = op := by
  rw [fieldOpcode_toNat, wordR_toNat ho h1 h2 h3 h4 h5]
  omega

theorem fieldF1_wordR (ho : op < 256) (h1 : f1 < 16) (h2 : f2 < 16) (h3 : f3 < 16) (h4 : f4 < 16)
    (h5 : f5 < 16) : (fieldF1 (wordR op f1 f2 f3 f4 f5)).toNat = f1 := by
  rw [fieldF1_toNat, wordR_toNat ho h1 h2 h3 h4 h5]
  clear ho
  omega

theorem fieldF2_wordR (ho : op < 256) (h1 : f1 < 16) (h2 : f2 < 16) (h3 : f3 < 16) (h4 : f4 < 16)
    (h5 : f5 < 16) : (fieldF2 (wordR op f1 f2 f3 f4 f5)).toNat = f2 := by
  rw [fieldF2_toNat, wordR_toNat ho h1 h2 h3 h4 h5]
  clear ho
  omega

theorem fieldF3_wordR (ho : op < 256) (h1 : f1 < 16) (h2 : f2 < 16) (h3 : f3 < 16) (h4 : f4 < 16)
    (h5 : f5 < 16) : (fieldF3 (wordR op f1 f2 f3 f4 f5)).toNat = f3 := by
  rw [fieldF3_toNat, wordR_toNat ho h1 h2 h3 h4 h5]
  clear ho
  omega

theorem fieldF4_wordR (ho : op < 256) (h1 : f1 < 16) (h2 : f2 < 16) (h3 : f3 < 16) (h4 : f4 < 16)
    (h5 : f5 < 16) : (fieldF4 (wordR op f1 f2 f3 f4 f5)).toNat = f4 := by
  rw [fieldF4_toNat, wordR_toNat ho h1 h2 h3 h4 h5]
  clear ho
  omega

theorem fieldF5_wordR (ho : op < 256) (h1 : f1 < 16) (h2 : f2 < 16) (h3 : f3 < 16) (h4 : f4 < 16)
    (h5 : f5 < 16) : (fieldF5 (wordR op f1 f2 f3 f4 f5)).toNat = f5 := by
  rw [fieldF5_toNat, wordR_toNat ho h1 h2 h3 h4 h5]
  clear ho
  omega

theorem fieldZ_wordR (ho : op < 256) (h1 : f1 < 16) (h2 : f2 < 16) (h3 : f3 < 16) (h4 : f4 < 16)
    (h5 : f5 < 16) : (fieldZ (wordR op f1 f2 f3 f4 f5)).toNat = 0 := by
  rw [fieldZ_toNat, wordR_toNat ho h1 h2 h3 h4 h5]
  clear ho
  omega

end LayoutR

/-! ### The fields of a word of layout I -/

section LayoutI
variable {op f1 f2 : Nat} {imm : BitVec 16}

theorem fieldOpcode_wordI (ho : op < 256) (h1 : f1 < 16) (h2 : f2 < 16) : (fieldOpcode (wordI op f1 f2 imm)).toNat = op := by
  have := imm.isLt
  rw [fieldOpcode_toNat, wordI_toNat ho h1 h2]
  omega

theorem fieldF1_wordI (ho : op < 256) (h1 : f1 < 16) (h2 : f2 < 16) : (fieldF1 (wordI op f1 f2 imm)).toNat = f1 := by
  have := imm.isLt
  rw [fieldF1_toNat, wordI_toNat ho h1 h2]
  omega

theorem fieldF2_wordI (ho : op < 256) (h1 : f1 < 16) (h2 : f2 < 16) : (fieldF2 (wordI op f1 f2 imm)).toNat = f2 := by
  have := imm.isLt
  rw [fieldF2_toNat, wordI_toNat ho h1 h2]
  omega

theorem fieldImm_wordI (ho : op < 256) (h1 : f1 < 16) (h2 : f2 < 16) : fieldImm (wordI op f1 f2 imm) = imm := by
  have := imm.isLt
  apply BitVec.eq_of_toNat_eq
  rw [fieldImm_toNat, wordI_toNat ho h1 h2]
  omega

end LayoutI

end Sys2Proof
end

