-- ==== Sys2Proof/Laws/State.lean ====
section
/-! SUPPORT. One lemma per field per update of the state, each true by rfl: no later proof unfolds a record update. -/

namespace Sys2Proof.Machine

/-! ### setScalar -/

@[simp] theorem setScalar_sregs (s : State) (i : SReg) (w : Word) : (setScalar s i w).sregs = s.sregs.set i w := rfl
@[simp] theorem setScalar_mregs (s : State) (i : SReg) (w : Word) : (setScalar s i w).mregs = s.mregs := rfl
@[simp] theorem setScalar_vregs (s : State) (i : SReg) (w : Word) : (setScalar s i w).vregs = s.vregs := rfl
@[simp] theorem setScalar_pc (s : State) (i : SReg) (w : Word) : (setScalar s i w).pc = s.pc := rfl
@[simp] theorem setScalar_runState (s : State) (i : SReg) (w : Word) : (setScalar s i w).runState = s.runState := rfl
@[simp] theorem setScalar_stopReq (s : State) (i : SReg) (w : Word) : (setScalar s i w).stopReq = s.stopReq := rfl
@[simp] theorem setScalar_ecause (s : State) (i : SReg) (w : Word) : (setScalar s i w).ecause = s.ecause := rfl
@[simp] theorem setScalar_epc (s : State) (i : SReg) (w : Word) : (setScalar s i w).epc = s.epc := rfl
@[simp] theorem setScalar_einfo (s : State) (i : SReg) (w : Word) : (setScalar s i w).einfo = s.einfo := rfl
@[simp] theorem setScalar_ie (s : State) (i : SReg) (w : Word) : (setScalar s i w).ie = s.ie := rfl
@[simp] theorem setScalar_imem (s : State) (i : SReg) (w : Word) : (setScalar s i w).imem = s.imem := rfl
@[simp] theorem setScalar_dmem (s : State) (i : SReg) (w : Word) : (setScalar s i w).dmem = s.dmem := rfl
@[simp] theorem setScalar_turns (s : State) (i : SReg) (w : Word) : (setScalar s i w).turns = s.turns := rfl
@[simp] theorem setScalar_lastReply (s : State) (i : SReg) (w : Word) : (setScalar s i w).lastReply = s.lastReply := rfl

/-! ### setScalarInt -/

@[simp] theorem setScalarInt_sregs (s : State) (i : SReg) (x : Int) : (setScalarInt s i x).sregs = s.sregs.set i (wrap32 x) := rfl
@[simp] theorem setScalarInt_mregs (s : State) (i : SReg) (x : Int) : (setScalarInt s i x).mregs = s.mregs := rfl
@[simp] theorem setScalarInt_vregs (s : State) (i : SReg) (x : Int) : (setScalarInt s i x).vregs = s.vregs := rfl
@[simp] theorem setScalarInt_pc (s : State) (i : SReg) (x : Int) : (setScalarInt s i x).pc = s.pc := rfl
@[simp] theorem setScalarInt_runState (s : State) (i : SReg) (x : Int) : (setScalarInt s i x).runState = s.runState := rfl
@[simp] theorem setScalarInt_stopReq (s : State) (i : SReg) (x : Int) : (setScalarInt s i x).stopReq = s.stopReq := rfl
@[simp] theorem setScalarInt_ecause (s : State) (i : SReg) (x : Int) : (setScalarInt s i x).ecause = s.ecause := rfl
@[simp] theorem setScalarInt_epc (s : State) (i : SReg) (x : Int) : (setScalarInt s i x).epc = s.epc := rfl
@[simp] theorem setScalarInt_einfo (s : State) (i : SReg) (x : Int) : (setScalarInt s i x).einfo = s.einfo := rfl
@[simp] theorem setScalarInt_ie (s : State) (i : SReg) (x : Int) : (setScalarInt s i x).ie = s.ie := rfl
@[simp] theorem setScalarInt_imem (s : State) (i : SReg) (x : Int) : (setScalarInt s i x).imem = s.imem := rfl
@[simp] theorem setScalarInt_dmem (s : State) (i : SReg) (x : Int) : (setScalarInt s i x).dmem = s.dmem := rfl
@[simp] theorem setScalarInt_turns (s : State) (i : SReg) (x : Int) : (setScalarInt s i x).turns = s.turns := rfl
@[simp] theorem setScalarInt_lastReply (s : State) (i : SReg) (x : Int) : (setScalarInt s i x).lastReply = s.lastReply := rfl

/-! ### setMat -/

@[simp] theorem setMat_sregs (s : State) (i : MReg) (A : Mat) : (setMat s i A).sregs = s.sregs := rfl
@[simp] theorem setMat_mregs (s : State) (i : MReg) (A : Mat) : (setMat s i A).mregs = s.mregs.set i (some A) := rfl
@[simp] theorem setMat_vregs (s : State) (i : MReg) (A : Mat) : (setMat s i A).vregs = s.vregs := rfl
@[simp] theorem setMat_pc (s : State) (i : MReg) (A : Mat) : (setMat s i A).pc = s.pc := rfl
@[simp] theorem setMat_runState (s : State) (i : MReg) (A : Mat) : (setMat s i A).runState = s.runState := rfl
@[simp] theorem setMat_stopReq (s : State) (i : MReg) (A : Mat) : (setMat s i A).stopReq = s.stopReq := rfl
@[simp] theorem setMat_ecause (s : State) (i : MReg) (A : Mat) : (setMat s i A).ecause = s.ecause := rfl
@[simp] theorem setMat_epc (s : State) (i : MReg) (A : Mat) : (setMat s i A).epc = s.epc := rfl
@[simp] theorem setMat_einfo (s : State) (i : MReg) (A : Mat) : (setMat s i A).einfo = s.einfo := rfl
@[simp] theorem setMat_ie (s : State) (i : MReg) (A : Mat) : (setMat s i A).ie = s.ie := rfl
@[simp] theorem setMat_imem (s : State) (i : MReg) (A : Mat) : (setMat s i A).imem = s.imem := rfl
@[simp] theorem setMat_dmem (s : State) (i : MReg) (A : Mat) : (setMat s i A).dmem = s.dmem := rfl
@[simp] theorem setMat_turns (s : State) (i : MReg) (A : Mat) : (setMat s i A).turns = s.turns := rfl
@[simp] theorem setMat_lastReply (s : State) (i : MReg) (A : Mat) : (setMat s i A).lastReply = s.lastReply := rfl

/-! ### setVec -/

@[simp] theorem setVec_sregs (s : State) (i : VReg) (x : Vec) : (setVec s i x).sregs = s.sregs := rfl
@[simp] theorem setVec_mregs (s : State) (i : VReg) (x : Vec) : (setVec s i x).mregs = s.mregs := rfl
@[simp] theorem setVec_vregs (s : State) (i : VReg) (x : Vec) : (setVec s i x).vregs = s.vregs.set i (some x) := rfl
@[simp] theorem setVec_pc (s : State) (i : VReg) (x : Vec) : (setVec s i x).pc = s.pc := rfl
@[simp] theorem setVec_runState (s : State) (i : VReg) (x : Vec) : (setVec s i x).runState = s.runState := rfl
@[simp] theorem setVec_stopReq (s : State) (i : VReg) (x : Vec) : (setVec s i x).stopReq = s.stopReq := rfl
@[simp] theorem setVec_ecause (s : State) (i : VReg) (x : Vec) : (setVec s i x).ecause = s.ecause := rfl
@[simp] theorem setVec_epc (s : State) (i : VReg) (x : Vec) : (setVec s i x).epc = s.epc := rfl
@[simp] theorem setVec_einfo (s : State) (i : VReg) (x : Vec) : (setVec s i x).einfo = s.einfo := rfl
@[simp] theorem setVec_ie (s : State) (i : VReg) (x : Vec) : (setVec s i x).ie = s.ie := rfl
@[simp] theorem setVec_imem (s : State) (i : VReg) (x : Vec) : (setVec s i x).imem = s.imem := rfl
@[simp] theorem setVec_dmem (s : State) (i : VReg) (x : Vec) : (setVec s i x).dmem = s.dmem := rfl
@[simp] theorem setVec_turns (s : State) (i : VReg) (x : Vec) : (setVec s i x).turns = s.turns := rfl
@[simp] theorem setVec_lastReply (s : State) (i : VReg) (x : Vec) : (setVec s i x).lastReply = s.lastReply := rfl

/-! ### advance -/

@[simp] theorem advance_sregs (s : State) : (advance s).sregs = s.sregs := rfl
@[simp] theorem advance_mregs (s : State) : (advance s).mregs = s.mregs := rfl
@[simp] theorem advance_vregs (s : State) : (advance s).vregs = s.vregs := rfl
@[simp] theorem advance_pc (s : State) : (advance s).pc = s.pc + 1 := rfl
@[simp] theorem advance_runState (s : State) : (advance s).runState = s.runState := rfl
@[simp] theorem advance_stopReq (s : State) : (advance s).stopReq = s.stopReq := rfl
@[simp] theorem advance_ecause (s : State) : (advance s).ecause = s.ecause := rfl
@[simp] theorem advance_epc (s : State) : (advance s).epc = s.epc := rfl
@[simp] theorem advance_einfo (s : State) : (advance s).einfo = s.einfo := rfl
@[simp] theorem advance_ie (s : State) : (advance s).ie = s.ie := rfl
@[simp] theorem advance_imem (s : State) : (advance s).imem = s.imem := rfl
@[simp] theorem advance_dmem (s : State) : (advance s).dmem = s.dmem := rfl
@[simp] theorem advance_turns (s : State) : (advance s).turns = s.turns := rfl
@[simp] theorem advance_lastReply (s : State) : (advance s).lastReply = s.lastReply := rfl

/-! ### jumpTo -/

@[simp] theorem jumpTo_sregs (s : State) (t : CodeIndex) : (jumpTo s t).sregs = s.sregs := rfl
@[simp] theorem jumpTo_mregs (s : State) (t : CodeIndex) : (jumpTo s t).mregs = s.mregs := rfl
@[simp] theorem jumpTo_vregs (s : State) (t : CodeIndex) : (jumpTo s t).vregs = s.vregs := rfl
@[simp] theorem jumpTo_pc (s : State) (t : CodeIndex) : (jumpTo s t).pc = t := rfl
@[simp] theorem jumpTo_runState (s : State) (t : CodeIndex) : (jumpTo s t).runState = s.runState := rfl
@[simp] theorem jumpTo_stopReq (s : State) (t : CodeIndex) : (jumpTo s t).stopReq = s.stopReq := rfl
@[simp] theorem jumpTo_ecause (s : State) (t : CodeIndex) : (jumpTo s t).ecause = s.ecause := rfl
@[simp] theorem jumpTo_epc (s : State) (t : CodeIndex) : (jumpTo s t).epc = s.epc := rfl
@[simp] theorem jumpTo_einfo (s : State) (t : CodeIndex) : (jumpTo s t).einfo = s.einfo := rfl
@[simp] theorem jumpTo_ie (s : State) (t : CodeIndex) : (jumpTo s t).ie = s.ie := rfl
@[simp] theorem jumpTo_imem (s : State) (t : CodeIndex) : (jumpTo s t).imem = s.imem := rfl
@[simp] theorem jumpTo_dmem (s : State) (t : CodeIndex) : (jumpTo s t).dmem = s.dmem := rfl
@[simp] theorem jumpTo_turns (s : State) (t : CodeIndex) : (jumpTo s t).turns = s.turns := rfl
@[simp] theorem jumpTo_lastReply (s : State) (t : CodeIndex) : (jumpTo s t).lastReply = s.lastReply := rfl

/-! ### takeFault -/

@[simp] theorem takeFault_sregs (c : Cause) (info : Word) (s : State) : (takeFault c info s).sregs = s.sregs := rfl
@[simp] theorem takeFault_mregs (c : Cause) (info : Word) (s : State) : (takeFault c info s).mregs = s.mregs := rfl
@[simp] theorem takeFault_vregs (c : Cause) (info : Word) (s : State) : (takeFault c info s).vregs = s.vregs := rfl
@[simp] theorem takeFault_pc (c : Cause) (info : Word) (s : State) : (takeFault c info s).pc = s.pc := rfl
@[simp] theorem takeFault_runState (c : Cause) (info : Word) (s : State) : (takeFault c info s).runState = .faulted := rfl
@[simp] theorem takeFault_stopReq (c : Cause) (info : Word) (s : State) : (takeFault c info s).stopReq = false := rfl
@[simp] theorem takeFault_ecause (c : Cause) (info : Word) (s : State) : (takeFault c info s).ecause = causeCode c := rfl
@[simp] theorem takeFault_epc (c : Cause) (info : Word) (s : State) : (takeFault c info s).epc = s.pc := rfl
@[simp] theorem takeFault_einfo (c : Cause) (info : Word) (s : State) : (takeFault c info s).einfo = info := rfl
@[simp] theorem takeFault_ie (c : Cause) (info : Word) (s : State) : (takeFault c info s).ie = s.ie := rfl
@[simp] theorem takeFault_imem (c : Cause) (info : Word) (s : State) : (takeFault c info s).imem = s.imem := rfl
@[simp] theorem takeFault_dmem (c : Cause) (info : Word) (s : State) : (takeFault c info s).dmem = s.dmem := rfl
@[simp] theorem takeFault_turns (c : Cause) (info : Word) (s : State) : (takeFault c info s).turns = s.turns := rfl
@[simp] theorem takeFault_lastReply (c : Cause) (info : Word) (s : State) : (takeFault c info s).lastReply = s.lastReply := rfl

/-! ### resetEvent -/

@[simp] theorem resetEvent_sregs (s : State) : (resetEvent s).sregs = Vector.replicate 16 0 := rfl
@[simp] theorem resetEvent_mregs (s : State) : (resetEvent s).mregs = Vector.replicate 8 none := rfl
@[simp] theorem resetEvent_vregs (s : State) : (resetEvent s).vregs = Vector.replicate 8 none := rfl
@[simp] theorem resetEvent_pc (s : State) : (resetEvent s).pc = 0 := rfl
@[simp] theorem resetEvent_runState (s : State) : (resetEvent s).runState = .idle := rfl
@[simp] theorem resetEvent_stopReq (s : State) : (resetEvent s).stopReq = false := rfl
@[simp] theorem resetEvent_ecause (s : State) : (resetEvent s).ecause = 0 := rfl
@[simp] theorem resetEvent_epc (s : State) : (resetEvent s).epc = 0 := rfl
@[simp] theorem resetEvent_einfo (s : State) : (resetEvent s).einfo = 0 := rfl
@[simp] theorem resetEvent_ie (s : State) : (resetEvent s).ie = 0 := rfl
@[simp] theorem resetEvent_imem (s : State) : (resetEvent s).imem = s.imem := rfl
@[simp] theorem resetEvent_dmem (s : State) : (resetEvent s).dmem = s.dmem := rfl
@[simp] theorem resetEvent_turns (s : State) : (resetEvent s).turns = s.turns := rfl
@[simp] theorem resetEvent_lastReply (s : State) : (resetEvent s).lastReply = s.lastReply := rfl

/-! ### reset -/

@[simp] theorem reset_imem : State.reset.imem = [] := rfl
@[simp] theorem reset_dmem : State.reset.dmem = [] := rfl
@[simp] theorem reset_runState : State.reset.runState = .idle := rfl

/-! ### Views of a state that an update leaves alone -/

@[simp] theorem scalar_advance (s : State) (i : SReg) : scalar (advance s) i = scalar s i := rfl
@[simp] theorem scalar_setMat (s : State) (j : MReg) (A : Mat) (i : SReg) : scalar (setMat s j A) i = scalar s i := rfl
@[simp] theorem scalar_setVec (s : State) (j : VReg) (x : Vec) (i : SReg) : scalar (setVec s j x) i = scalar s i := rfl
@[simp] theorem scalar_takeFault (c : Cause) (info : Word) (s : State) (i : SReg) :
    scalar (takeFault c info s) i = scalar s i := rfl

@[simp] theorem scalar_setScalar_self (s : State) (i : SReg) (w : Word) : scalar (setScalar s i w) i = w := by
  simp [scalar]

@[simp] theorem scalar_setScalar_ne (s : State) (i j : SReg) (w : Word) (h : i ≠ j) :
    scalar (setScalar s i w) j = scalar s j := by
  have h' : i.val ≠ j.val := fun e => h (Fin.ext e)
  simp [scalar, h']

end Sys2Proof.Machine
end

