-- ==== Sys2Proof/Laws/Ops.lean ====
section
/-! SUPPORT. For each shared operation one lemma that says once everything it can do. -/

namespace Sys2Proof.Machine

/-! ## The result of an instruction -/

/-- Peel one computation off a sequence. -/
theorem res_bind_ok {α β : Type} {x : Res α} {f : α → Res β} {r : β} :
    (x >>= f) = .ok r ↔ ∃ a, x = .ok a ∧ f a = .ok r := by
  cases x <;> simp [bind, Except.bind]

/-- A sequence stops where its first part stops, or where the rest does. -/
theorem res_bind_error {α β : Type} {x : Res α} {f : α → Res β} {e : Stop} :
    (x >>= f) = .error e ↔ x = .error e ∨ ∃ a, x = .ok a ∧ f a = .error e := by
  cases x <;> simp [bind, Except.bind]

@[simp] theorem ok_bind {α β : Type} (a : α) (f : α → Res β) : ((.ok a : Res α) >>= f) = f a := rfl

@[simp] theorem error_bind {α β : Type} (e : Stop) (f : α → Res β) : ((.error e : Res α) >>= f) = .error e := rfl

@[simp] theorem raise_bind {α β : Type} (c : Cause) (info : Word) (f : α → Res β) :
    ((raise c info : Res α) >>= f) = raise c info := rfl

@[simp] theorem res_pure {α : Type} (a : α) : (pure a : Res α) = .ok a := rfl

@[simp] theorem finish_ok (s t : State) : finish s (.ok t) = .next t := rfl

@[simp] theorem finish_raise (s : State) (c : Cause) (info : Word) : finish s (raise c info) = .next (takeFault c info s) := rfl

@[simp] theorem finish_stuck (s : State) (f : Fault) : finish s (.error (.stuck f)) = .fault f := rfl

/-- What the end of an instruction answers: its effect, or the fault it raised, taken from the state before it. -/
theorem finish_next {s t : State} {r : Res State} :
    finish s r = .next t ↔ r = .ok t ∨ ∃ c info, r = .error (.raise c info) ∧ t = takeFault c info s := by
  rcases r with (⟨c, info⟩ | f) | r
  · simp only [finish, Host.Outcome.next.injEq, reduceCtorEq, Except.error.injEq, Stop.raise.injEq, false_or]
    constructor
    · rintro rfl
      exact ⟨c, info, ⟨rfl, rfl⟩, rfl⟩
    · rintro ⟨c', info', ⟨rfl, rfl⟩, rfl⟩
      rfl
  · simp [finish]
  · simp [finish]

/-- An instruction never refuses. -/
theorem finish_ne_refused (s : State) (r : Res State) (q : Refusal) : finish s r ≠ .refused q := by
  rcases r with (_ | _) | _ <;> simp [finish]

/-! ## Checks and reads -/

theorem require_ok {p : Bool} {c : Cause} {info : Word} : require p c info = .ok () ↔ p = true := by
  cases p <;> simp [require, raise]

theorem require_error {p : Bool} {c : Cause} {info : Word} {e : Stop} :
    require p c info = .error e ↔ p = false ∧ e = .raise c info := by
  cases p <;> simp [require, raise, eq_comm]

theorem checkRange_ok {addr n : Int} :
    checkRange addr n = .ok () ↔ 0 ≤ addr ∧ addr + n ≤ (Config.dmemSize : Int) := by
  simp [checkRange, require_ok]

theorem checkRange_error {addr n : Int} {e : Stop} :
    checkRange addr n = .error e ↔
      ¬(0 ≤ addr ∧ addr + n ≤ (Config.dmemSize : Int)) ∧ e = .raise .accessFault (wrap32 addr) := by
  simp only [checkRange, require_error, Bool.and_eq_false_imp, decide_eq_true_eq, decide_eq_false_iff_not, not_and]

theorem readMat_ok {s : State} {i : MReg} {A : Mat} : readMat s i = .ok A ↔ s.mregs[i] = some A := by
  unfold readMat
  cases s.mregs[i] <;> simp [raise]

theorem readMat_error {s : State} {i : MReg} {e : Stop} :
    readMat s i = .error e ↔ s.mregs[i] = none ∧ e = .raise .emptyOperand 0 := by
  unfold readMat
  cases s.mregs[i] <;> simp [raise, eq_comm]

theorem readVec_ok {s : State} {i : VReg} {x : Vec} : readVec s i = .ok x ↔ s.vregs[i] = some x := by
  unfold readVec
  cases s.vregs[i] <;> simp [raise]

theorem readVec_error {s : State} {i : VReg} {e : Stop} :
    readVec s i = .error e ↔ s.vregs[i] = none ∧ e = .raise .emptyOperand 0 := by
  unfold readVec
  cases s.vregs[i] <;> simp [raise, eq_comm]

theorem memRead_ok {s : State} {addr : Int} {n : Nat} {bs : List Byte} :
    memRead s addr n = .ok bs ↔
      (0 ≤ addr ∧ addr + n ≤ (Config.dmemSize : Int)) ∧ bytesAt s.dmem addr.toNat n = .ok bs := by
  rw [memRead, res_bind_ok]
  constructor
  · rintro ⟨⟨⟩, h, hb⟩
    exact ⟨checkRange_ok.1 h, hb⟩
  · rintro ⟨h, hb⟩
    exact ⟨(), checkRange_ok.2 h, hb⟩

theorem memWrite_ok {s t : State} {addr : Int} {bs : List Byte} :
    memWrite s addr bs = .ok t ↔
      (0 ≤ addr ∧ addr + bs.length ≤ (Config.dmemSize : Int)) ∧
        t = { s with dmem := putBytes s.dmem addr.toNat bs } := by
  rw [memWrite, res_bind_ok]
  constructor
  · rintro ⟨⟨⟩, h, hb⟩
    cases hb
    exact ⟨checkRange_ok.1 h, rfl⟩
  · rintro ⟨h, rfl⟩
    exact ⟨(), checkRange_ok.2 h, rfl⟩

/-! ## Width conversions (00_scope.md R8) -/

/-- `wrap32` gives the representative of its argument modulo 2^32 in the signed range. -/
theorem wrap32_toInt (x : Int) : (wrap32 x).toInt = x.bmod (2 ^ 32) := by
  simp [wrap32]

/-- `wrap32` of a value of a register is its pattern. -/
theorem wrap32_scalarInt (s : State) (i : SReg) : wrap32 (scalarInt s i) = scalar s i := by
  simp [wrap32, scalarInt]

/-- `low8` is the floor remainder modulo 256. -/
theorem low8_toNat (w : Word) : ((low8 w).toNat : Int) = w.toInt % 256 := by
  simp only [low8, BitVec.toNat_ofInt]
  omega

end Sys2Proof.Machine
end

