-- ==== Sys2Proof/Laws/Host.lean ====
section
/-! SUPPORT. For the host port one lemma per function that says once everything a write or a read can do. -/

namespace Sys2Proof.Machine

/-- A write at an offset below 0x100 that is no error is one of CTRL, PC, IE and the scalar registers. -/
theorem csrWrite_some {off : Nat} {d : Word} {s t : State} (h : csrWrite off d s = some t) :
    (off = 0x08 ∧ t = ctrlWrite d s) ∨
    (off = 0x10 ∧ s.runState ≠ .running ∧ t = { s with pc := d.setWidth 16 }) ∨
    (off = 0x20 ∧ t = { s with ie := d.setWidth 2 }) ∨
    (scalarWindow off = true ∧ s.runState ≠ .running ∧ t = setScalar s (scalarOf off) d) := by
  unfold csrWrite at h
  split at h
  · exact .inl ⟨‹_›, (Option.some.inj h).symm⟩
  · split at h
    · split at h
      · cases h
      · exact .inr (.inl ⟨‹_›, ‹_›, (Option.some.inj h).symm⟩)
    · split at h
      · exact .inr (.inr (.inl ⟨‹_›, (Option.some.inj h).symm⟩))
      · split at h
        · split at h
          · cases h
          · exact .inr (.inr (.inr ⟨‹_›, ‹_›, (Option.some.inj h).symm⟩))
        · cases h

/-- A 32-bit write that is no error goes to a register, or to IMEM while the engine is not running. -/
theorem hostWrite32_some {a : Nat} {d : Word} {s t : State} (h : hostWrite32 a d s = some t) :
    (inCsrBlock a = true ∧ csrWrite a d s = some t) ∨
    (inCodeWindow a = true ∧ s.runState ≠ .running ∧ t = { s with imem := cellPut s.imem (codeIndexOf a) d }) := by
  unfold hostWrite32 at h
  split at h
  · exact .inl ⟨‹_›, h⟩
  · split at h
    · split at h
      · cases h
      · exact .inr ⟨‹_›, ‹_›, (Option.some.inj h).symm⟩
    · cases h

/-- An 8-bit write that is no error goes to DMEM while the engine is not running. -/
theorem hostWrite8_some {a : Nat} {d : Byte} {s t : State} (h : hostWrite8 a d s = some t) :
    inDataWindow a = true ∧ s.runState ≠ .running ∧ t = { s with dmem := cellPut s.dmem (dataAddrOf a) d } := by
  unfold hostWrite8 at h
  split at h
  · split at h
    · cases h
    · exact ⟨‹_›, ‹_›, (Option.some.inj h).symm⟩
  · cases h

/-- A read transaction that is answered changes the last reply and nothing else. -/
theorem finishRead_next {s t : State} {r : Except Fault HostReply} (h : finishRead s r = .next t) :
    ∃ reply, r = .ok reply ∧ t = { s with lastReply := some reply } := by
  cases r with
  | ok reply => exact ⟨reply, rfl, by simpa [finishRead] using h.symm⟩
  | error f => cases h

/-- A write transaction is answered ok with its effect, or with an error and no effect. -/
theorem finishWrite_cases (s : State) (r : Option State) :
    (∃ t, r = some t ∧ finishWrite s r = { t with lastReply := some .done }) ∨
    (r = none ∧ finishWrite s r = { s with lastReply := some .errorResponse }) := by
  cases r with
  | some t => exact .inl ⟨t, rfl, rfl⟩
  | none => exact .inr ⟨rfl, rfl⟩

/-- CLEAR touches neither registers nor pc nor IE nor a memory. -/
theorem clearFault_frame (s : State) :
    (clearFault s).sregs = s.sregs ∧ (clearFault s).mregs = s.mregs ∧ (clearFault s).vregs = s.vregs ∧
    (clearFault s).pc = s.pc ∧ (clearFault s).ie = s.ie ∧ (clearFault s).imem = s.imem ∧ (clearFault s).dmem = s.dmem := by
  unfold clearFault; split <;> simp

/-- START touches neither registers nor pc nor IE nor a memory. -/
theorem ctrlStart_frame (s : State) :
    (ctrlStart s).sregs = s.sregs ∧ (ctrlStart s).mregs = s.mregs ∧ (ctrlStart s).vregs = s.vregs ∧
    (ctrlStart s).pc = s.pc ∧ (ctrlStart s).ie = s.ie ∧ (ctrlStart s).imem = s.imem ∧ (ctrlStart s).dmem = s.dmem := by
  unfold ctrlStart; split <;> simp

/-- STOP touches neither registers nor pc nor IE nor a memory. -/
theorem ctrlStop_frame (s : State) :
    (ctrlStop s).sregs = s.sregs ∧ (ctrlStop s).mregs = s.mregs ∧ (ctrlStop s).vregs = s.vregs ∧
    (ctrlStop s).pc = s.pc ∧ (ctrlStop s).ie = s.ie ∧ (ctrlStop s).imem = s.imem ∧ (ctrlStop s).dmem = s.dmem := by
  unfold ctrlStop; split <;> simp

/-- A CTRL write resets, or sends at most CLEAR, START, STOP, which touch the run state, STOPREQ and the fault record only. -/
theorem ctrlWrite_frame (d : Word) (s : State) (h : d.getLsbD 3 = false) :
    (ctrlWrite d s).sregs = s.sregs ∧ (ctrlWrite d s).mregs = s.mregs ∧ (ctrlWrite d s).vregs = s.vregs ∧
    (ctrlWrite d s).pc = s.pc ∧ (ctrlWrite d s).ie = s.ie ∧ (ctrlWrite d s).imem = s.imem ∧
    (ctrlWrite d s).dmem = s.dmem := by
  simp only [ctrlWrite, h, Bool.false_eq_true, if_false]
  split <;> split <;> split <;> simp [clearFault_frame, ctrlStart_frame, ctrlStop_frame]

end Sys2Proof.Machine
end

