-- ==== Sys2Proof/Laws/Memory.lean ====
section
/-! SUPPORT. Reading and writing memory cells, and the canonical form every memory operation keeps. -/

namespace Sys2Proof.Machine

section Cells
variable {α : Type}

@[simp] theorem cellGet_nil (a : Nat) : cellGet ([] : List (Nat × α)) a = none := rfl

/-- A read after a write at the same address gives the value written. -/
@[simp] theorem cellGet_cellPut_self (m : List (Nat × α)) (a : Nat) (b : α) : cellGet (cellPut m a b) a = some b := by
  induction m with
  | nil => simp [cellPut, cellGet]
  | cons c m ih =>
    obtain ⟨c, x⟩ := c
    simp only [cellPut]
    split
    · simp [cellGet]
    · split
      · simp [cellGet]
      · rw [cellGet, if_neg (by omega), ih]

/-- A write leaves every other address alone. -/
theorem cellGet_cellPut_ne (m : List (Nat × α)) (a a' : Nat) (b : α) (h : a' ≠ a) :
    cellGet (cellPut m a b) a' = cellGet m a' := by
  induction m with
  | nil => simp [cellPut, cellGet, Ne.symm h]
  | cons c m ih =>
    obtain ⟨c, x⟩ := c
    simp only [cellPut]
    split
    · rw [cellGet, if_neg (Ne.symm h)]
    · split
      · subst_vars
        rw [cellGet, if_neg (Ne.symm h), cellGet, if_neg (Ne.symm h)]
      · simp only [cellGet, ih]

/-- Every cell of a memory after a write is the one written or was there before. -/
theorem mem_cellPut {m : List (Nat × α)} {a : Nat} {b : α} {c : Nat × α} (h : c ∈ cellPut m a b) : c = (a, b) ∨ c ∈ m := by
  induction m with
  | nil => simpa [cellPut] using h
  | cons d m ih =>
    obtain ⟨d, x⟩ := d
    simp only [cellPut] at h
    split at h
    · rcases List.mem_cons.1 h with h | h
      · exact .inl h
      · exact .inr h
    · split at h
      · rcases List.mem_cons.1 h with h | h
        · exact .inl h
        · exact .inr (List.mem_cons_of_mem _ h)
      · rcases List.mem_cons.1 h with h | h
        · exact .inr (h ▸ List.mem_cons_self)
        · exact (ih h).imp id (List.mem_cons_of_mem _)

/-- A write keeps the addresses strictly rising. -/
theorem cellPut_rising (m : List (Nat × α)) (a : Nat) (b : α) (h : m.Pairwise (fun c d => c.1 < d.1)) :
    (cellPut m a b).Pairwise (fun c d => c.1 < d.1) := by
  induction m with
  | nil => simp [cellPut]
  | cons d m ih =>
    obtain ⟨d, x⟩ := d
    rw [List.pairwise_cons] at h
    simp only [cellPut]
    split
    · rename_i had
      refine List.pairwise_cons.2 ⟨fun e he => ?_, List.pairwise_cons.2 h⟩
      rcases List.mem_cons.1 he with rfl | he
      · exact had
      · exact Nat.lt_trans had (h.1 e he)
    · split
      · subst_vars
        exact List.pairwise_cons.2 h
      · refine List.pairwise_cons.2 ⟨fun e he => ?_, ih h.2⟩
        rcases mem_cellPut he with rfl | he
        · simp only; omega
        · exact h.1 e he

/-- A cell that is listed is read at its address, in a memory with strictly rising addresses. -/
theorem cellGet_of_mem {m : List (Nat × α)} (h : m.Pairwise (fun c d => c.1 < d.1)) {c : Nat × α} (hc : c ∈ m) :
    cellGet m c.1 = some c.2 := by
  induction m with
  | nil => cases hc
  | cons d m ih =>
    rw [List.pairwise_cons] at h
    rcases List.mem_cons.1 hc with rfl | hc
    · simp [cellGet]
    · have := h.1 c hc
      rw [cellGet, if_neg (by omega), ih h.2 hc]

/-- What is read at an address is listed. -/
theorem mem_of_cellGet {m : List (Nat × α)} {a : Nat} {b : α} (h : cellGet m a = some b) : (a, b) ∈ m := by
  induction m with
  | nil => cases h
  | cons d m ih =>
    obtain ⟨d, x⟩ := d
    rw [cellGet] at h
    split at h
    · subst_vars
      cases h
      exact List.mem_cons_self
    · exact List.mem_cons_of_mem _ (ih h)

/-- Memories in canonical form that read alike are the same data. -/
theorem cells_ext {m m' : List (Nat × α)} (h : m.Pairwise (fun c d => c.1 < d.1)) (h' : m'.Pairwise (fun c d => c.1 < d.1))
    (e : ∀ a, cellGet m a = cellGet m' a) : m = m' := by
  have nodup {l : List (Nat × α)} (hl : l.Pairwise (fun c d => c.1 < d.1)) : l.Nodup :=
    hl.imp (fun hlt heq => by rw [heq] at hlt; omega)
  have sub {l l' : List (Nat × α)} (hl : l.Pairwise (fun c d => c.1 < d.1)) (e : ∀ a, cellGet l a = cellGet l' a) : l ⊆ l' :=
    fun c hc => mem_of_cellGet (by rw [← e]; exact cellGet_of_mem hl hc)
  have perm : m.Perm m' :=
    (List.perm_ext_iff_of_nodup (nodup h) (nodup h')).2 fun c => ⟨fun hc => sub h e hc, fun hc => sub h' (fun a => (e a).symm) hc⟩
  exact perm.eq_of_pairwise (fun c d _ _ h1 h2 => absurd h1 (by omega)) h h'

/-- A write keeps every address below a bound. -/
theorem cellPut_bounded {m : List (Nat × α)} {a n : Nat} {b : α} (h : ∀ c ∈ m, c.1 < n) (ha : a < n) :
    ∀ c ∈ cellPut m a b, c.1 < n := by
  intro c hc
  rcases mem_cellPut hc with rfl | hc
  · exact ha
  · exact h c hc

end Cells

/-! ## The canonical form -/

theorem reset_dmem_wf : State.reset.dmem.wf := by decide

theorem reset_imem_wf : State.reset.imem.wf := by decide

theorem Memory.wf_cellPut {m : Memory} {a : Nat} {b : Byte} (h : m.wf) (ha : a < Config.dmemSize) :
    Memory.wf (cellPut m a b) :=
  ⟨cellPut_rising m a b h.1, cellPut_bounded h.2 ha⟩

theorem CodeMemory.wf_cellPut {m : CodeMemory} {a : Nat} {w : Word} (h : m.wf) (ha : a < Config.imemWords) :
    CodeMemory.wf (cellPut m a w) :=
  ⟨cellPut_rising m a w h.1, cellPut_bounded h.2 ha⟩

/-- Writing bytes inside DMEM keeps the canonical form. -/
theorem Memory.wf_putBytes {m : Memory} {a : Nat} {bs : List Byte} (h : m.wf) (ha : a + bs.length ≤ Config.dmemSize) :
    Memory.wf (putBytes m a bs) := by
  induction bs generalizing m a with
  | nil => exact h
  | cons b bs ih =>
    simp only [List.length_cons] at ha
    exact ih (Memory.wf_cellPut h (by omega)) (by omega)

/-! ## Runs of bytes -/

/-- Outside the bytes written, memory reads as before. -/
theorem cellGet_putBytes_outside {m : Memory} {a x : Nat} {bs : List Byte} (h : x < a ∨ a + bs.length ≤ x) :
    cellGet (putBytes m a bs) x = cellGet m x := by
  induction bs generalizing m a with
  | nil => rfl
  | cons b bs ih =>
    simp only [List.length_cons] at h
    rw [putBytes, ih (by omega), cellGet_cellPut_ne _ _ _ _ (by omega)]

/-- Inside the bytes written, memory reads what was written. -/
theorem cellGet_putBytes_inside {m : Memory} {a k : Nat} {bs : List Byte} (h : k < bs.length) :
    cellGet (putBytes m a bs) (a + k) = some bs[k] := by
  induction bs generalizing m a k with
  | nil => simp at h
  | cons b bs ih =>
    simp only [List.length_cons] at h
    cases k with
    | zero => rw [putBytes, Nat.add_zero, cellGet_putBytes_outside (by omega)]; simp
    | succ k =>
      have := ih (m := cellPut m a b) (a := a + 1) (k := k) (by omega)
      rw [putBytes, show a + (k + 1) = a + 1 + k by omega, this]
      simp

/-- A byte that is held is read. -/
theorem byteAt_ok {m : Memory} {a : Nat} {b : Byte} : byteAt m a = .ok b ↔ cellGet m a = some b := by
  unfold byteAt
  cases cellGet m a <;> simp

/-- `n` bytes are read exactly when each is held, and they are those bytes in address order. -/
theorem bytesAt_ok {m : Memory} {a n : Nat} {bs : List Byte} :
    bytesAt m a n = .ok bs ↔ bs.length = n ∧ ∀ k (h : k < bs.length), cellGet m (a + k) = some bs[k] := by
  induction n generalizing a bs with
  | zero =>
    constructor
    · intro h
      cases h
      simp
    · rintro ⟨h, -⟩
      rw [List.length_eq_zero_iff.1 h]
      rfl
  | succ n ih =>
    cases bs with
    | nil =>
      constructor
      · intro h
        simp only [bytesAt, bind, Except.bind] at h
        split at h
        · cases h
        · split at h <;> cases h
      · rintro ⟨h, -⟩
        simp at h
    | cons b bs =>
      constructor
      · intro h
        simp only [bytesAt, bind, Except.bind] at h
        split at h
        · cases h
        · rename_i b' hb'
          split at h
          · cases h
          · rename_i bs' hbs'
            cases h
            obtain ⟨hl, hk⟩ := ih.1 hbs'
            refine ⟨by simp [hl], fun k hk' => ?_⟩
            cases k with
            | zero => simpa using byteAt_ok.1 hb'
            | succ k => simpa [show a + (k + 1) = a + 1 + k by omega] using hk k (by simpa using hk')
      · rintro ⟨hl, hk⟩
        have h0 : byteAt m a = .ok b := byteAt_ok.2 (hk 0 (by simp))
        have h1 : bytesAt m (a + 1) n = .ok bs :=
          ih.2 ⟨by simpa using hl, fun k hk' => by
            rw [show a + 1 + k = a + (k + 1) by omega]
            exact hk (k + 1) (by simpa using hk')⟩
        simp only [bytesAt, bind, Except.bind, h0, h1]
        rfl

/-- Reading back the bytes just written gives them. -/
theorem bytesAt_putBytes_self (m : Memory) (a : Nat) (bs : List Byte) :
    bytesAt (putBytes m a bs) a bs.length = .ok bs :=
  bytesAt_ok.2 ⟨rfl, fun _ h => cellGet_putBytes_inside h⟩

end Sys2Proof.Machine
end

