-- ==== Sys2Proof/Laws/PerInstr.lean ====
section
/-! SUPPORT. A family of lemmas, one per instruction: the opcode field of its encoding is its opcode (30_encoding.md R90, R94). -/

namespace Sys2Proof.Laws.OpcodeField

/-- The opcode field of the encoding of a well-formed instruction is its opcode. -/
def Statement (i : Instr) : Prop := i.wf = true → (fieldOpcode (encode i)).toNat = i.opcode

theorem nop : Statement (.nop) := fun _ => fieldOpcode_wordR (by omega) (by omega) (by omega) (by omega) (by omega) (by omega)
theorem halt : Statement (.halt) := fun _ => fieldOpcode_wordR (by omega) (by omega) (by omega) (by omega) (by omega) (by omega)
theorem jmp (target : CodeIndex) : Statement (.jmp target) := fun _ => fieldOpcode_wordI (by omega) (by omega) (by omega)
theorem beqz (sa : SReg) (target : CodeIndex) : Statement (.beqz sa target) := fun _ => fieldOpcode_wordI (by omega) (by omega) (by omega)
theorem bnez (sa : SReg) (target : CodeIndex) : Statement (.bnez sa target) := fun _ => fieldOpcode_wordI (by omega) (by omega) (by omega)
theorem sli (sd : SReg) (imm : BitVec 16) : Statement (.sli sd imm) := fun _ => fieldOpcode_wordI (by omega) (by omega) (by omega)
theorem saddi (sd sa : SReg) (imm : BitVec 16) : Statement (.saddi sd sa imm) := fun _ => fieldOpcode_wordI (by omega) (by omega) (by omega)
theorem sadd (sd sa sb : SReg) : Statement (.sadd sd sa sb) := fun _ => fieldOpcode_wordR (by omega) (by omega) (by omega) (by omega) (by omega) (by omega)
theorem ssub (sd sa sb : SReg) : Statement (.ssub sd sa sb) := fun _ => fieldOpcode_wordR (by omega) (by omega) (by omega) (by omega) (by omega) (by omega)
theorem sload (sd sa : SReg) : Statement (.sload sd sa) := fun _ => fieldOpcode_wordR (by omega) (by omega) (by omega) (by omega) (by omega) (by omega)
theorem sstore (ss sa : SReg) : Statement (.sstore ss sa) := fun _ => fieldOpcode_wordR (by omega) (by omega) (by omega) (by omega) (by omega) (by omega)
theorem sloadb (sd sa : SReg) : Statement (.sloadb sd sa) := fun _ => fieldOpcode_wordR (by omega) (by omega) (by omega) (by omega) (by omega) (by omega)
theorem sstoreb (ss sa : SReg) : Statement (.sstoreb ss sa) := fun _ => fieldOpcode_wordR (by omega) (by omega) (by omega) (by omega) (by omega) (by omega)
theorem xgcd (sg sx sy sa sm : SReg) : Statement (.xgcd sg sx sy sa sm) := fun _ => fieldOpcode_wordR (by omega) (by omega) (by omega) (by omega) (by omega) (by omega)
theorem modinv (sd sa : SReg) : Statement (.modinv sd sa) := fun _ => fieldOpcode_wordR (by omega) (by omega) (by omega) (by omega) (by omega) (by omega)
theorem modred (sd sa : SReg) : Statement (.modred sd sa) := fun _ => fieldOpcode_wordR (by omega) (by omega) (by omega) (by omega) (by omega) (by omega)
theorem mload (md : MReg) (sa : SReg) (rows cols : Nat) : Statement (.mload md sa rows cols) := by
  intro h
  simp only [Instr.wf, Bool.and_eq_true] at h
  have h1 := dimOk_lt h.1
  have h2 := dimOk_lt h.2
  exact fieldOpcode_wordR (by omega) (by omega) (by omega) (by omega) (by omega) (by omega)
theorem mstore (ms : MReg) (sa : SReg) : Statement (.mstore ms sa) := fun _ => fieldOpcode_wordR (by omega) (by omega) (by omega) (by omega) (by omega) (by omega)
theorem mident (md : MReg) (n : Nat) : Statement (.mident md n) := by
  intro h
  have h1 := dimOk_lt h
  exact fieldOpcode_wordR (by omega) (by omega) (by omega) (by omega) (by omega) (by omega)
theorem mcopy (md ms : MReg) : Statement (.mcopy md ms) := fun _ => fieldOpcode_wordR (by omega) (by omega) (by omega) (by omega) (by omega) (by omega)
theorem mmul (md ma mb : MReg) : Statement (.mmul md ma mb) := fun _ => fieldOpcode_wordR (by omega) (by omega) (by omega) (by omega) (by omega) (by omega)
theorem mtrans (md ms : MReg) : Statement (.mtrans md ms) := fun _ => fieldOpcode_wordR (by omega) (by omega) (by omega) (by omega) (by omega) (by omega)
theorem minvert (md ms : MReg) : Statement (.minvert md ms) := fun _ => fieldOpcode_wordR (by omega) (by omega) (by omega) (by omega) (by omega) (by omega)
theorem mvmul (vd : VReg) (ma : MReg) (vx : VReg) : Statement (.mvmul vd ma vx) := fun _ => fieldOpcode_wordR (by omega) (by omega) (by omega) (by omega) (by omega) (by omega)
theorem vload (vd : VReg) (sa : SReg) (len : Nat) : Statement (.vload vd sa len) := by
  intro h
  have h1 := dimOk_lt h
  exact fieldOpcode_wordR (by omega) (by omega) (by omega) (by omega) (by omega) (by omega)
theorem vstore (vs : VReg) (sa : SReg) : Statement (.vstore vs sa) := fun _ => fieldOpcode_wordR (by omega) (by omega) (by omega) (by omega) (by omega) (by omega)
theorem vcopy (vd vs : VReg) : Statement (.vcopy vd vs) := fun _ => fieldOpcode_wordR (by omega) (by omega) (by omega) (by omega) (by omega) (by omega)
theorem vadd (vd va vb : VReg) : Statement (.vadd vd va vb) := fun _ => fieldOpcode_wordR (by omega) (by omega) (by omega) (by omega) (by omega) (by omega)
theorem vsub (vd va vb : VReg) : Statement (.vsub vd va vb) := fun _ => fieldOpcode_wordR (by omega) (by omega) (by omega) (by omega) (by omega) (by omega)
theorem affenc (vd : VReg) (ma : MReg) (vx vb : VReg) : Statement (.affenc vd ma vx vb) := fun _ => fieldOpcode_wordR (by omega) (by omega) (by omega) (by omega) (by omega) (by omega)
theorem affdec (vd : VReg) (ma : MReg) (vy vb : VReg) : Statement (.affdec vd ma vy vb) := fun _ => fieldOpcode_wordR (by omega) (by omega) (by omega) (by omega) (by omega) (by omega)
theorem encrypt (ma : MReg) (vb : VReg) (ssrc sdst scnt : SReg) : Statement (.encrypt ma vb ssrc sdst scnt) := fun _ => fieldOpcode_wordR (by omega) (by omega) (by omega) (by omega) (by omega) (by omega)
theorem decrypt (ma : MReg) (vb : VReg) (ssrc sdst scnt : SReg) : Statement (.decrypt ma vb ssrc sdst scnt) := fun _ => fieldOpcode_wordR (by omega) (by omega) (by omega) (by omega) (by omega) (by omega)
theorem recover (md : MReg) (vd : VReg) (n : Nat) : Statement (.recover md vd n) := by
  intro h
  have h1 := dimOk_lt h
  exact fieldOpcode_wordR (by omega) (by omega) (by omega) (by omega) (by omega) (by omega)

end Sys2Proof.Laws.OpcodeField
end

