-- ==== Sys2Proof/Tests/Slice0.lean ====
section
/-! SUPPORT. Tests whose expected results come from 95_test_vectors.md (the section is named beside each group), and for every
statement with hypotheses a state and operands that meet all of them together. -/

namespace Sys2Proof.Tests

open Sys2Proof.Machine

/-! ## Helpers -/

/-- A RUNNING engine at word 5, everything else as after reset. -/
def start : State := { State.reset with runState := .running, pc := 5 }

def withS (l : List (SReg × Word)) (s : State) : State := l.foldl (fun s p => setScalar s p.1 p.2) s
def withM (i : MReg) (A : Mat) (s : State) : State := setMat s i A
def withV (i : VReg) (x : Vec) (s : State) : State := setVec s i x
def withBytes (a : Nat) (bs : List Byte) (s : State) : State := { s with dmem := putBytes s.dmem a bs }
def withCode (k : Nat) (w : Word) (s : State) : State := { s with imem := cellPut s.imem k w }

/-- The next state, or the state itself where there is none. -/
def orSelf (s : State) (o : Host.Outcome State Fault Refusal) : State :=
  match o with
  | .next t => t
  | _ => s

/-- The state after an instruction. -/
def after (i : Instr) (s : State) : State := orSelf s (exec i s)

/-- The key of 95_test_vectors.md section 2.5, and the inverse of its matrix. -/
def keyA : Mat := ⟨2, 2, [1, 2, 3, 5]⟩
def keyAinv : Mat := ⟨2, 2, [251, 2, 3, 255]⟩
def keyB : Vec := [7, 9]
def wide : Mat := ⟨2, 3, [1, 2, 3, 4, 5, 6]⟩
def evens : Mat := ⟨2, 2, [2, 0, 0, 2]⟩

/-- What a fault leaves: STATE, ECAUSE, EINFO, EPC. -/
def record (s : State) : RunState × BitVec 8 × Word × CodeIndex := (s.runState, s.ecause, s.einfo, s.epc)

/-! ## Ill-formed terms are refused (30_encoding.md R93), one check each -/

theorem test_wf_mload_rows_zero : Instr.wf (.mload 0 1 0 2) = false := by decide
theorem test_wf_mload_rows_nine : Instr.wf (.mload 0 1 9 2) = false := by decide
theorem test_wf_mload_cols_zero : Instr.wf (.mload 0 1 2 0) = false := by decide
theorem test_wf_mload_cols_nine : Instr.wf (.mload 0 1 2 9) = false := by decide
theorem test_wf_mident_zero : Instr.wf (.mident 0 0) = false ∧ Instr.wf (.mident 0 9) = false := by decide
theorem test_wf_vload_zero : Instr.wf (.vload 0 1 0) = false ∧ Instr.wf (.vload 0 1 9) = false := by decide
theorem test_wf_recover_zero : Instr.wf (.recover 0 0 0) = false ∧ Instr.wf (.recover 0 0 9) = false := by decide

/-! ## Words (section 2.8; 30_encoding.md R103) -/

theorem test_decode_nop : decode 0x01000000 = .ok .nop := by decide
theorem test_decode_halt : decode 0x02000000 = .ok .halt := by decide
theorem test_decode_jmp : decode 0x03000003 = .ok (.jmp 3) := by decide
theorem test_decode_beqz : decode 0x04030020 = .ok (.beqz 3 0x20) := by decide
theorem test_decode_bnez : decode 0x05030007 = .ok (.bnez 3 7) := by decide
theorem test_decode_sli : decode 0x10100100 = .ok (.sli 1 256) := by decide
theorem test_decode_saddi : decode 0x1133FFFF = .ok (.saddi 3 3 (-1)) := by decide
theorem test_decode_sadd : decode 0x12412000 = .ok (.sadd 4 1 2) := by decide
theorem test_decode_ssub : decode 0x13745000 = .ok (.ssub 7 4 5) := by decide
theorem test_decode_sload : decode 0x14210000 = .ok (.sload 2 1) := by decide
theorem test_decode_sstore : decode 0x15510000 = .ok (.sstore 5 1) := by decide
theorem test_decode_sloadb : decode 0x16210000 = .ok (.sloadb 2 1) := by decide
theorem test_decode_sstoreb : decode 0x17210000 = .ok (.sstoreb 2 1) := by decide
theorem test_decode_xgcd : decode 0x20456120 = .ok (.xgcd 4 5 6 1 2) := by decide
theorem test_decode_modinv : decode 0x21810000 = .ok (.modinv 8 1) := by decide
theorem test_decode_modred : decode 0x22750000 = .ok (.modred 7 5) := by decide
theorem test_decode_mload : decode 0x30012200 = .ok (.mload 0 1 2 2) := by decide
theorem test_decode_mstore : decode 0x31150000 = .ok (.mstore 1 5) := by decide
theorem test_decode_mident : decode 0x32302000 = .ok (.mident 3 2) := by decide
theorem test_decode_mcopy : decode 0x33400000 = .ok (.mcopy 4 0) := by decide
theorem test_decode_mmul : decode 0x34201000 = .ok (.mmul 2 0 1) := by decide
theorem test_decode_mtrans : decode 0x35100000 = .ok (.mtrans 1 0) := by decide
theorem test_decode_minvert : decode 0x36100000 = .ok (.minvert 1 0) := by decide
theorem test_decode_mvmul : decode 0x37100000 = .ok (.mvmul 1 0 0) := by decide
theorem test_decode_vload : decode 0x40112000 = .ok (.vload 1 1 2) := by decide
theorem test_decode_vstore : decode 0x41220000 = .ok (.vstore 2 2) := by decide
theorem test_decode_vcopy : decode 0x42500000 = .ok (.vcopy 5 0) := by decide
theorem test_decode_vadd : decode 0x43201000 = .ok (.vadd 2 0 1) := by decide
theorem test_decode_vsub : decode 0x44201000 = .ok (.vsub 2 0 1) := by decide
theorem test_decode_affenc : decode 0x50200100 = .ok (.affenc 2 0 0 1) := by decide
theorem test_decode_affdec : decode 0x51312100 = .ok (.affdec 3 1 2 1) := by decide
theorem test_decode_encrypt : decode 0x52011230 = .ok (.encrypt 0 1 1 2 3) := by decide
theorem test_decode_decrypt : decode 0x53112430 = .ok (.decrypt 1 1 2 4 3) := by decide
theorem test_decode_recover : decode 0x60112000 = .ok (.recover 1 1 2) := by decide
theorem test_decode_reserved : decode 0x00000000 = .error .reservedOpcode ∧ decode 0xFFFFFFFF = .error .reservedOpcode ∧
    decode 0x07000000 = .error .reservedOpcode := by decide
theorem test_decode_must_be_zero : decode 0x02000001 = .error .mustBeZero ∧ decode 0x34801000 = .error .mustBeZero ∧
    decode 0x10110005 = .error .mustBeZero ∧ decode 0x04100003 = .error .mustBeZero ∧
    decode 0x03010000 = .error .mustBeZero ∧ decode 0x32312000 = .error .mustBeZero ∧
    decode 0x21810001 = .error .mustBeZero := by decide
theorem test_decode_bad_dimension : decode 0x30010200 = .error .badDimension ∧ decode 0x30019200 = .error .badDimension ∧
    decode 0x60110000 = .error .badDimension := by decide
theorem test_table_word : decodeTableWord 32 0x20456120 = some (.xgcd 4 5 6 1 2) ∧ decodeTableWord 32 0 = none := by decide
theorem test_opcode_map_is_the_table : encodingTable.length = 34 ∧
    encodingTable.Pairwise (fun a b => a.opcode < b.opcode) := by decide
/-- Section 2.7: the words of SMOV and SDEC. -/
theorem test_pseudo_words : encode (.smov 2 1) = 0x11210000 ∧ encode (.sdec 3) = 0x1133FFFF := by decide
/-- Section 3.2: a backward branch to a label, word 13 of the loop. -/
theorem test_assemble_label : assemble [.op .nop, .label "loop", .op (.sdec 3), .bnezTo 3 "loop", .op .halt]
    = some [0x01000000, 0x1133FFFF, 0x05030001, 0x02000000] := by decide
/-- Log 15: the first of two labels of one name, the index past the end, and no words for a branch to a missing label. -/
theorem test_assemble_label_choices : assemble [.label "a", .op .nop, .label "a", .jmpTo "a"] = some [0x01000000, 0x03000000] ∧
    assemble [.jmpTo "a", .label "a"] = some [0x03000001] ∧ assemble [.jmpTo "a"] = none := by decide
theorem test_text : (Instr.mload 0 1 2 2).text = "MLOAD m0, [s1], 2, 2" := by decide +kernel

/-! ## Control, scalar arithmetic, loads and stores (section 2.7) -/

theorem test_nop : after .nop { start with pc := 1023 } = { start with pc := 1024 } := by decide
theorem test_halt : after .halt { start with stopReq := true } = { start with pc := 6, runState := .halted } := by decide
theorem test_jmp : (after (.jmp 0x400) start).pc = 0x400 ∧ (after (.jmp 0x400) start).runState = .running := by decide
theorem test_beqz : (after (.beqz 3 0x20) start).pc = 0x20 ∧ (after (.beqz 3 0x20) (withS [(3, -1)] start)).pc = 6 := by decide
theorem test_bnez : (after (.bnez 3 7) start).pc = 6 ∧ (after (.bnez 3 7) (withS [(3, -1)] start)).pc = 7 := by decide
theorem test_sli : after (.sli 1 0xFFFF) start = { withS [(1, 65535)] start with pc := 6 } := by decide
theorem test_saddi_sign_extends : (after (.saddi 4 0 0x8000) start).sregs[4] = -32768 := by decide
theorem test_saddi_wraps : (after (.saddi 7 6 1) (withS [(6, 2147483647)] start)).sregs[7] = 0x80000000 := by decide
theorem test_sadd : (after (.sadd 3 1 1) (withS [(1, 65535)] start)).sregs[3] = 131070 := by decide
theorem test_ssub_min : (after (.ssub 9 0 7) (withS [(7, 0x80000000)] start)).sregs[9] = 0x80000000 := by decide
theorem test_ssub_wraps : (after (.ssub 10 7 1) (withS [(7, 0x80000000), (1, 65535)] start)).sregs[10] = 2147418113 := by
  decide
theorem test_sload_top : (after (.sload 2 1) (withS [(1, 0xFFFC)] (withBytes 0xFFFC [0xFF, 0xFF, 0xFF, 0x7F] start))).sregs[2]
    = 2147483647 := by decide
theorem test_sload_fault : record (after (.sload 2 1) (withS [(1, 0xFFFD)] start)) = (.faulted, 7, 0xFFFD, 5) := by decide
theorem test_sloadb : (after (.sloadb 3 1) (withS [(1, 0x20)] (withBytes 0x20 [0xFF, 0xFF] start))).sregs[3] = 255 := by decide
theorem test_sloadb_fault : record (after (.sloadb 2 1) (withS [(1, -1)] start)) = (.faulted, 7, 0xFFFFFFFF, 5) := by decide
theorem test_sstore : (after (.sstore 8 9) (withS [(8, 0x11223344), (9, 0x51)] start)).dmem
    = [(0x51, 0x44), (0x52, 0x33), (0x53, 0x22), (0x54, 0x11)] := by decide
theorem test_sstoreb : (after (.sstoreb 4 6) (withS [(4, -85), (6, 0x40)] start)).dmem = [(0x40, 0xAB)] := by decide

/-! ## Modular arithmetic (sections 2.1, 2.2) -/

theorem test_xgcd : after (.xgcd 4 5 6 1 2) (withS [(1, 3), (2, 256)] start)
    = { withS [(1, 3), (2, 256), (4, 1), (5, 0xFFFFFFAB), (6, 1)] start with pc := 6 } := by decide
theorem test_xgcd_last_write_stands : after (.xgcd 5 7 7 2 6) (withS [(2, 6), (6, 2)] start)
    = { withS [(2, 6), (6, 2), (5, 2), (7, 1)] start with pc := 6 } := by decide
theorem test_xgcd_table : xgcd 240 46 = (2, -9, 47) ∧ xgcd 46 240 = (2, 47, -9) ∧ xgcd 12 18 = (6, -1, 1) ∧
    xgcd 17 5 = (1, -2, 7) ∧ xgcd 0 256 = (256, 0, 1) ∧ xgcd 256 0 = (256, 1, 0) ∧ xgcd 0 0 = (0, 1, 0) := by decide +kernel
theorem test_modinv : (after (.modinv 2 1) (withS [(1, -85)] start)).sregs[2] = 3 := by decide
theorem test_modinv_even : record (after (.modinv 2 1) (withS [(1, -86)] start)) = (.faulted, 1, 0xAA, 5) := by decide
theorem test_modred : (after (.modred 7 5) (withS [(5, -85)] start)).sregs[7] = 171 := by decide
theorem test_modred_min : (after (.modred 7 5) (withS [(5, 0x80000000)] start)).sregs[7] = 0 := by decide

/-! ## Matrices and vectors (sections 2.3, 2.4) -/

theorem test_mload : (after (.mload 0 1 3 2) (withS [(1, 0x100)] (withBytes 0x100 [1, 2, 3, 4, 5, 6] start))).mregs[0]
    = some ⟨3, 2, [1, 2, 3, 4, 5, 6]⟩ := by decide
theorem test_mload_fault : record (after (.mload 0 1 2 2) (withS [(1, 0xFFFD)] start)) = (.faulted, 7, 0xFFFD, 5) := by decide
theorem test_mstore : (after (.mstore 1 2) (withS [(2, 0x200)] (withM 1 ⟨3, 2, [1, 4, 2, 5, 3, 6]⟩ start))).dmem
    = [(0x200, 1), (0x201, 4), (0x202, 2), (0x203, 5), (0x204, 3), (0x205, 6)] := by decide
theorem test_mstore_empty_first : record (after (.mstore 3 1) (withS [(1, -1)] start)) = (.faulted, 8, 0, 5) := by decide
theorem test_mident : (after (.mident 0 3) start).mregs[0] = some ⟨3, 3, [1, 0, 0, 0, 1, 0, 0, 0, 1]⟩ := by decide
theorem test_mcopy : (after (.mcopy 4 0) (withM 0 wide start)).mregs[4] = some wide := by decide
theorem test_mmul : (after (.mmul 2 0 1) (withM 0 ⟨2, 2, [200, 100, 50, 255]⟩ (withM 1 ⟨2, 2, [3, 4, 5, 6]⟩ start))).mregs[2]
    = some ⟨2, 2, [76, 120, 145, 194]⟩ := by decide
theorem test_mmul_mismatch : record (after (.mmul 2 0 0) (withM 0 wide start)) = (.faulted, 3, 0, 5) := by decide
theorem test_mtrans : (after (.mtrans 1 0) (withM 0 wide start)).mregs[1] = some ⟨3, 2, [1, 4, 2, 5, 3, 6]⟩ := by decide
/-- Trace (e): the even entry 4 of column 0 is passed over. -/
theorem test_minvert : (after (.minvert 1 0) (withM 0 ⟨3, 3, [4, 1, 7, 3, 2, 5, 6, 9, 8]⟩ start)).mregs[1]
    = some ⟨3, 3, [57, 245, 53, 50, 2, 51, 253, 6, 255]⟩ := by decide +kernel
theorem test_minvert_singular : record (after (.minvert 1 0) (withM 0 ⟨2, 2, [3, 6, 5, 10]⟩ start)) = (.faulted, 2, 1, 5) := by
  decide +kernel
theorem test_mvmul : (after (.mvmul 1 0 0) (withM 0 wide (withV 0 [255, 1, 2] start))).vregs[1] = some [7, 13] := by decide
theorem test_vload : (after (.vload 0 9 4) (withS [(9, 0x51)] (withBytes 0x51 [0x44, 0x33, 0x22, 0x11] start))).vregs[0]
    = some [68, 51, 34, 17] := by decide
theorem test_vstore : (after (.vstore 0 2) (withS [(2, 0x300)] (withV 0 keyB start))).dmem = [(0x300, 7), (0x301, 9)] := by
  decide
theorem test_vcopy : (after (.vcopy 5 0) (withV 0 keyB start)).vregs[5] = some [7, 9] := by decide
theorem test_vadd : (after (.vadd 2 0 1) (withV 0 [250, 10, 0] (withV 1 [10, 250, 0] start))).vregs[2] = some [4, 4, 0] := by
  decide
theorem test_vsub : (after (.vsub 2 0 1) (withV 0 [5, 0, 200] (withV 1 [10, 1, 200] start))).vregs[2]
    = some [251, 255, 0] := by decide

/-! ## The cipher (section 2.5) -/

/-- The key of section 2.5 in m0 and v1, the run 72, 69, 76, 76, 79, 0 at 0x400, s1 = 0x400, s3 = 3. -/
def cipherStart : State :=
  withS [(1, 0x400), (3, 3)] (withBytes 0x400 [72, 69, 76, 76, 79, 0] (withM 0 keyA (withV 1 keyB start)))

theorem test_affenc : (after (.affenc 0 0 0 1) (withV 0 [10, 20] cipherStart)).vregs[0] = some [57, 139] := by decide
theorem test_affdec : (after (.affdec 3 1 2 1) (withM 1 keyAinv (withV 2 [57, 139] cipherStart))).vregs[3] = some [10, 20] := by
  decide
theorem test_encrypt_in_place : (after (.encrypt 0 1 1 1 3) cipherStart).dmem
    = putBytes [] 0x400 [217, 58, 235, 105, 86, 246] := by decide +kernel
theorem test_encrypt_overlap : record (after (.encrypt 0 1 1 2 3) (withS [(2, 0x402)] cipherStart))
    = (.faulted, 7, 0x402, 5) := by decide
theorem test_decrypt : (after (.decrypt 1 1 2 4 3) (withS [(2, 0x500), (4, 0x600)] (withM 1 keyAinv
    (withBytes 0x500 [217, 58, 235, 105, 86, 246] (withV 1 keyB cipherStart))))).dmem.drop 12
    = putBytes [] 0x600 [72, 69, 76, 76, 79, 0] := by decide +kernel

/-! ## Key recovery (section 2.6, (a) and (h)) -/

/-- The blocks, the candidates 1, 2, 3 and the registers of section 2.6 (a), laid out as in section 3.4. -/
def recoverStart : State :=
  withS [(8, 0x1000), (9, 0x1100), (10, 4), (11, 0), (12, 0x1200), (13, 3)]
    (withBytes 0x1000 [1, 2, 3, 4, 2, 2, 1, 3] (withBytes 0x1100 [12, 22, 18, 38, 13, 25, 14, 27]
      (withBytes 0x1200 [1, 0, 2, 0, 3, 0] start)))

theorem test_recover : after (.recover 1 1 2) recoverStart = { withM 1 keyA (withV 1 keyB recoverStart) with pc := 6 } := by
  decide +kernel
theorem test_recover_order_one : (after (.recover 0 0 1) (withS [(10, 8)] recoverStart)).mregs[0] = some ⟨1, 1, [10]⟩ ∧
    (after (.recover 0 0 1) (withS [(10, 8)] recoverStart)).vregs[0] = some [2] := by decide +kernel

/-! ## Steps, run control, host port (sections 2.9, 2.10) -/

theorem test_fetch_word_runs_first : step (State.reset.withFetchWord 32 0x10100100)
    = exec (.sli 1 256) (State.reset.withFetchWord 32 0x10100100) := by rfl
theorem test_fetch_fault : record (orSelf start (step { start with pc := 0x400 })) = (.faulted, 6, 0x400, 0x400) := by decide
theorem test_illegal_word : record (orSelf start (step (withCode 5 0 start))) = (.faulted, 5, 0, 5) := by decide
theorem test_stop_honoured : orSelf start (step { withCode 5 0x02000000 start with stopReq := true })
    = { withCode 5 0x02000000 start with runState := .idle } := by decide
theorem test_status_after_halt : statusWord { State.reset with runState := .halted, ie := 3 } = 0x0A ∧
    statusWord { State.reset with runState := .faulted, ie := 2 } = 0x0B := by decide
theorem test_clear_then_start : (orSelf start (hostAct (.write32 0x08 5) (takeFault .singularMatrix 0 start))).runState
    = .running := by decide
theorem test_start_ignored_when_faulted : (orSelf start (hostAct (.write32 0x08 1) (takeFault .singularMatrix 0 start))).runState
    = .faulted := by decide
theorem test_host_errors : (orSelf start (hostAct (.read32 0x28) State.reset)).lastReply = some .errorResponse ∧
    (orSelf start (hostAct (.read8 0x0C) State.reset)).lastReply = some .errorResponse ∧
    (orSelf start (hostAct (.read32 0x100000) State.reset)).lastReply = some .errorResponse ∧
    (orSelf start (hostAct (.read32 0x44) start)).lastReply = some .errorResponse := by decide
/-- The boot sequence for a one-word program, then the engine (70_reset_and_hazards.md R304). -/
theorem test_boot_runs_the_program :
    (orSelf start (Host.Core.run Sys2Proof.core 5 { State.reset with turns := bootTurns [0x02000000] [] [] 0 3 })).runState
      = .halted := by decide
theorem test_chunk : chunk [72, 69, 76, 76, 79] 2 = [[72, 69], [76, 76], [79, 0]] ∧ chunk [] 2 = [] := by decide

/-! ## Witnesses: for every statement with hypotheses, states and operands that meet them, each clause at a boundary of its range -/

/-- The outcome is a next state. -/
def isNext (o : Host.Outcome State Fault Refusal) : Bool :=
  match o with
  | .next _ => true
  | _ => false

theorem next_of_isNext (s : State) (o : Host.Outcome State Fault Refusal) (h : isNext o = true) :
    o = .next (orSelf s o) := by
  cases o with
  | next t => rfl
  | fault r => cases h
  | refused r => cases h

theorem exec_next (i : Instr) (s : State) (h : isNext (exec i s) = true) : exec i s = .next (after i s) :=
  next_of_isNext s _ h

/-- The state after a step. -/
def stepped (s : State) : State := orSelf s (step s)

theorem step_next (s : State) (h : isNext (step s) = true) : step s = .next (stepped s) := next_of_isNext s _ h

theorem witness_DecodeInvertsEncode : Instr.wf (.mload 7 15 1 8) = true ∧ Instr.wf (.recover 7 7 8) = true ∧
    Instr.wf (.mident 0 1) = true ∧ Instr.wf (.vload 7 0 8) = true := by decide

theorem witness_EncodeInvertsDecode : decode 0x307F8100 = .ok (.mload 7 15 8 1) := by decide

theorem witness_LegalWordsAreThoseOfTheEncodingTable : decode 0x60778000 = .ok (.recover 7 7 8) ∧
    ∃ row ∈ encodingTable, row.legal 0x60778000 := by decide

theorem witness_IllegalWordsRaiseIllegalInstruction : let s := { withCode 1023 0 start with pc := 1023 }
    s.runState = .running ∧ s.stopReq = false ∧ s.pc.toNat < Config.imemWords ∧ cellGet s.imem s.pc.toNat = some 0 ∧
    decode 0 = .error .reservedOpcode := by decide

theorem witness_StepRunsTheDecodedInstruction : let s := { withCode 1023 0x01000000 start with pc := 1023 }
    s.runState = .running ∧ s.stopReq = false ∧ s.pc.toNat < Config.imemWords ∧
    cellGet s.imem s.pc.toNat = some 0x01000000 ∧ decode 0x01000000 = .ok .nop ∧ s.turns = [] ∧
    ({ s with turns := [.engine, .host .reset] } : State).turns = .engine :: [.host .reset] ∧
    ({ State.reset with turns := [.host .reset, .engine] } : State).turns = .host .reset :: [.engine] := by decide

theorem witness_EngineStepFollowsItsOrder : State.reset.runState ≠ .running ∧
    (start.runState = .running ∧ ({ start with stopReq := true } : State).stopReq = true) ∧ start.stopReq = false ∧
    Config.imemWords ≤ ({ start with pc := 1024 } : State).pc.toNat ∧
    cellGet (withCode 5 0xFFFFFFFF start).imem start.pc.toNat = some 0xFFFFFFFF ∧
    decode 0xFFFFFFFF = .error .reservedOpcode ∧
    cellGet (withCode 5 0x02000000 start).imem start.pc.toNat = some 0x02000000 ∧ decode 0x02000000 = .ok .halt := by decide

theorem witness_FaultingInstructionsChangeOnlyTheFaultRecord : start.runState ≠ .faulted ∧
    exec (.modinv 2 1) start = .next (after (.modinv 2 1) start) ∧ (after (.modinv 2 1) start).runState = .faulted :=
  ⟨by decide, exec_next _ _ (by decide), by decide⟩

theorem witness_OnlyHaltAndFaultsChangeTheRunState : exec .halt start = .next (after .halt start) ∧
    exec (.sstore 1 0) start = .next (after (.sstore 1 0) start) ∧
    exec (.modinv 2 1) start = .next (after (.modinv 2 1) start) :=
  ⟨exec_next _ _ (by decide), exec_next _ _ (by decide), exec_next _ _ (by decide)⟩

theorem witness_PcAdvancesJumpsOrStays : start.runState = .running ∧
    exec (.beqz 0 0xFFFF) start = .next (after (.beqz 0 0xFFFF) start) ∧
    exec (.modinv 2 1) start = .next (after (.modinv 2 1) start) :=
  ⟨rfl, exec_next _ _ (by decide), exec_next _ _ (by decide)⟩

theorem witness_RegistersChangeOnlyInTheirDestinations :
    exec (.recover 1 1 2) recoverStart = .next (after (.recover 1 1 2) recoverStart) ∧
    (0 : MReg) ∉ matDests (.recover 1 1 2) ∧ (0 : VReg) ∉ vecDests (.recover 1 1 2) ∧
    (15 : SReg) ∉ scalarDests (.recover 1 1 2) :=
  ⟨exec_next _ _ (by decide +kernel), by decide, by decide, by decide⟩

theorem witness_MemoryChangesOnlyInTheStoredRange :
    exec (.encrypt 0 1 1 1 3) cipherStart = .next (after (.encrypt 0 1 1 1 3) cipherStart) ∧
    storeRange cipherStart (.encrypt 0 1 1 1 3) = (0x400, 6) :=
  ⟨exec_next _ _ (by decide +kernel), by decide⟩

theorem witness_FaultRecordAgreesWithTheRunState : start.recordOk ∧
    (∃ t, step { start with pc := 1024 } = .next t) ∧ (takeFault .noInverse 6 start).recordOk ∧
    step (takeFault .noInverse 6 start) = .next (stepped (takeFault .noInverse 6 start)) :=
  ⟨by decide, ⟨_, step_next _ (by decide)⟩, by decide, step_next _ (by decide)⟩

/-- A state with registers, data and a RECOVER at its pc. -/
def fullStart : State := withCode 5 0x60112000 (withM 7 wide (withV 7 [1, 2, 3, 4, 5, 6, 7, 8] recoverStart))

theorem witness_EveryStepKeepsTheInvariant : fullStart.Inv ∧ step fullStart = .next (stepped fullStart) ∧
    (stepped fullStart).runState = .running :=
  ⟨by decide +kernel, step_next _ (by decide +kernel), by decide +kernel⟩

theorem witness_ResetEventLeavesTheResetValues : (8 : Word).getLsbD 3 = true ∧ (0xFFFFFFFF : Word).getLsbD 3 = true := by decide

theorem witness_HostWritesDuringARunDoNotReachInstructions :
    exec (.sstore 8 9) start = .next (after (.sstore 8 9) start) ∧ start.runState = .running ∧
    (after (.sstore 8 9) start).runState = .running ∧
    exec .halt start = .next (after .halt start) ∧ (after .halt start).runState ≠ .running ∧
    exec (.modinv 2 1) start = .next (after (.modinv 2 1) start) ∧ (after (.modinv 2 1) start).runState ≠ .running :=
  ⟨exec_next _ _ (by decide), rfl, by decide, exec_next _ _ (by decide), by decide, exec_next _ _ (by decide), by decide⟩

theorem witness_ClearAndStartReturnToTheFaultingInstruction : let s := withCode 5 0x21210000 start
    s.recordOk ∧ s.runState = .running ∧ s.stopReq = false ∧ engineStep s = .next (orSelf s (engineStep s)) ∧
    (orSelf s (engineStep s)).runState = .faulted :=
  ⟨by decide, by decide, by decide, next_of_isNext _ _ (by decide), by decide⟩

theorem witness_JumpsAndBranchesSetPc : let s := { start with pc := 0x400 }
    s.runState = .running ∧ s.stopReq = false ∧ s.pc = 0x400 ∧ Config.imemWords ≤ (0x400 : CodeIndex).toNat := by decide

/-- A state whose s1 is the given address, with the 64 last bytes of DMEM written. -/
def topStart (a : Word) : State := withS [(1, a)] (withBytes 0xFFC0 ((List.range 64).map fun k => BitVec.ofNat 8 k) start)

theorem witness_ScalarLoadsReadLittleEndian :
    (inRange (scalarInt (topStart 0xFFFC) 1) 4 ∧
      holds (topStart 0xFFFC).dmem (scalarInt (topStart 0xFFFC) 1).toNat 4 (fun k => BitVec.ofNat 8 (60 + k))) ∧
    ¬ inRange (scalarInt (topStart 0xFFFD) 1) 4 ∧ ¬ inRange (scalarInt (topStart (-1)) 1) 4 ∧
    (inRange (scalarInt (topStart 0xFFFF) 1) 1 ∧
      holds (topStart 0xFFFF).dmem (scalarInt (topStart 0xFFFF) 1).toNat 1 (fun _ => 63)) ∧
    ¬ inRange (scalarInt (topStart 0x10000) 1) 1 := by decide +kernel

theorem witness_ScalarStoresWriteLittleEndian : inRange (scalarInt (topStart 0) 1) 4 ∧ inRange (scalarInt (topStart 0xFFFC) 1) 4 ∧
    ¬ inRange (scalarInt (topStart 0xFFFD) 1) 4 ∧ ¬ inRange (scalarInt (topStart (-1)) 1) 4 ∧
    inRange (scalarInt (topStart 0xFFFF) 1) 1 ∧ ¬ inRange (scalarInt (topStart 0x10000) 1) 1 := by decide +kernel

theorem witness_LoadsSeeTheStoredBytes : (topStart 0xFFFC).runState = .running ∧
    exec (.sstore 1 1) (topStart 0xFFFC) = .next (after (.sstore 1 1) (topStart 0xFFFC)) ∧
    (after (.sstore 1 1) (topStart 0xFFFC)).runState = .running :=
  ⟨rfl, exec_next _ _ (by decide +kernel), by decide +kernel⟩

theorem witness_XgcdUnfoldsByTheEuclideanStep : 0 < 1 ∧ xgcd 3 1 = (1, 0, 1) := by decide +kernel

theorem witness_XgcdResultsFitARegister : 2147483647 < 2 ^ 31 ∧ xgcd 2147483647 2147483647 = (2147483647, 0, 1) ∧
    0 < (xgcd 0 1).1 := ⟨by decide, rfl, by decide⟩

theorem witness_XgcdInstructionWritesThreeRegisters : scalarInt (topStart (-1)) 1 < 0 ∧
    scalarInt (topStart 0x7FFFFFFF) 1 = (2147483647 : Nat) ∧ scalarInt start 2 = (0 : Nat) := by decide +kernel

theorem witness_ModularInverseIsUniqueForOddBytes : (255 : Byte).toNat % 2 = 1 ∧ (0 : Byte).toNat % 2 = 0 ∧
    ((3 : Byte).toNat * (171 : Byte).toNat) % 256 = 1 := by decide

theorem witness_ModinvInvertsOddValues : ((171 : Nat) : Int) = (withS [(1, -85)] start).sregs[1].toInt % 256 ∧ 171 % 2 = 1 ∧
    ((0 : Nat) : Int) = (withS [(1, 0x80000000)] start).sregs[1].toInt % 256 ∧ 0 % 2 = 0 := by decide

theorem witness_ModredReducesAndAgreesWithModinv : 2147483647 < 2 ^ 31 ∧ (xgcd 2147483647 256).1 = 1 := by decide

theorem witness_MatrixAndVectorLoads :
    (inRange (scalarInt (topStart 0xFFC0) 1) (8 * 8 : Nat) ∧
      holds (topStart 0xFFC0).dmem (scalarInt (topStart 0xFFC0) 1).toNat (8 * 8) (BitVec.ofNat 8)) ∧
    ¬ inRange (scalarInt (topStart 0xFFC1) 1) (8 * 8 : Nat) ∧ ¬ inRange (scalarInt (topStart (-1)) 1) (1 * 1 : Nat) ∧
    (inRange (scalarInt (topStart 0xFFF8) 1) (8 : Nat) ∧
      holds (topStart 0xFFF8).dmem (scalarInt (topStart 0xFFF8) 1).toNat 8 (fun k => BitVec.ofNat 8 (56 + k))) ∧
    ¬ inRange (scalarInt (topStart 0x10000) 1) (1 : Nat) := by decide +kernel

theorem witness_MatrixAndVectorStores : start.mregs[0] = none ∧ start.vregs[0] = none ∧
    cipherStart.mregs[0] = some keyA ∧ cipherStart.vregs[1] = some keyB ∧
    inRange (scalarInt (topStart 0xFFFC) 1) (keyA.rows * keyA.cols : Nat) ∧
    ¬ inRange (scalarInt (topStart 0xFFFD) 1) (keyA.rows * keyA.cols : Nat) ∧
    inRange (scalarInt (topStart 0xFFFE) 1) keyB.length ∧ ¬ inRange (scalarInt (topStart 0xFFFF) 1) keyB.length := by
  decide +kernel

theorem witness_IdentityCopyAndTranspose : start.mregs[7] = none ∧ (withM 7 wide start).mregs[7] = some wide ∧
    wide.entries.length = wide.rows * wide.cols ∧ (withM 7 ⟨3, 2, [1, 4, 2, 5, 3, 6]⟩ start).mregs[7] = some wide.transpose := by decide

theorem witness_MatrixProducts : (withM 0 wide (withM 1 keyA start)).mregs[0] = some wide ∧
    (withM 0 wide (withM 1 keyA start)).mregs[1] = some keyA ∧ keyA.cols = wide.rows ∧ wide.cols ≠ keyA.rows ∧
    start.mregs[0] = none ∧ (withV 7 [255, 1, 2] start).vregs[7] = some [255, 1, 2] ∧ wide.cols = [255, 1, 2].length ∧
    keyA.cols ≠ [255, 1, 2].length := by decide

theorem witness_MinvertChecksThenInverts : start.mregs[0] = none ∧ wide.rows ≠ wide.cols ∧ keyA.rows = keyA.cols ∧
    invert keyA = .ok keyAinv ∧ invert evens = .error 0 := by decide +kernel

theorem witness_PivotIsTheFirstUnitOfItsColumn : pivotFrom ⟨2, 2, [2, 3, 1, 4]⟩ 0 2 0 = some 1 ∧
    pivotFrom evens 0 2 0 = none := by decide

theorem witness_InvertGivesATwoSidedInverse : keyA.wf ∧ keyA.rows = keyA.cols ∧ invert keyA = .ok keyAinv := by decide +kernel

theorem witness_MinvertCompletesExactlyForOddDeterminants :
    (withM 0 keyA start).mregs[0] = some keyA ∧ keyA.wf ∧ keyA.rows = 2 ∧ keyA.cols = 2 ∧
    Matrix.det (Matrix.of fun (i j : Fin 2) => ((keyA.get i.val j.val).toNat : Int)) % 2 = 1 ∧
    (withM 0 evens start).mregs[0] = some evens ∧ evens.wf ∧ evens.rows = 2 ∧ evens.cols = 2 ∧
    Matrix.det (Matrix.of fun (i j : Fin 2) => ((evens.get i.val j.val).toNat : Int)) % 2 = 0 := by
  refine ⟨by decide, by decide, rfl, rfl, ?_, by decide, by decide, rfl, rfl, ?_⟩ <;> rw [Matrix.det_fin_two] <;> decide

theorem witness_VectorCopySumAndDifference : start.vregs[0] = none ∧ (withV 0 keyB start).vregs[0] = some keyB ∧
    keyB.length = [10, 20].length ∧ keyB.length ≠ [10, 20, 30].length := by decide

theorem witness_AffineBlockTransforms : let s := withV 0 [10, 20] cipherStart
    s.mregs[0] = some keyA ∧ s.vregs[0] = some [10, 20] ∧ s.vregs[1] = some keyB ∧
    (keyA.rows = keyA.cols ∧ [10, 20].length = keyA.rows ∧ keyB.length = keyA.rows) ∧
    ¬(wide.rows = wide.cols ∧ [10, 20].length = wide.rows ∧ keyB.length = wide.rows) ∧ s.vregs[2] = none := by decide

theorem witness_BlockTransformsAreProductsAndSums : keyB.length = wide.rows ∧ [10, 20, 30].length = wide.cols := by decide

theorem witness_DecryptionUndoesEncryptionOfABlock : keyA.wf ∧ keyA.rows = keyA.cols ∧ invert keyA = .ok keyAinv ∧
    keyB.length = keyA.rows ∧ [255, 255].length = keyA.rows := by decide +kernel

/-- The cases of section 2.5: adjacent, in place, partial overlap, count 0 at the end of DMEM and beyond it, count -1. -/
theorem witness_RunsAreTransformedBlockByBlock : cipherStart.mregs[0] = some keyA ∧ cipherStart.vregs[1] = some keyB ∧
    (keyA.rows = keyA.cols ∧ keyB.length = keyA.rows) ∧ ¬(keyA.rows = keyA.cols ∧ [7, 9, 0].length = keyA.rows) ∧
    scalarInt (withS [(3, -1)] cipherStart) 3 < 0 ∧ ¬ inRange 0xFFFC (3 * 2) ∧ inRange 0xFFFA (3 * 2) ∧
    inRange 0x10000 (0 * 2) ∧ ¬ inRange 0x10001 (0 * 2) ∧
    (0 < 3 * 2 ∧ 0x400 ≠ 0x402 ∧ 0x400 < 0x402 + 3 * 2 ∧ 0x402 < 0x400 + 3 * 2) ∧ ¬(0x406 < 0x400 + 3 * 2) ∧
    holds cipherStart.dmem 0x400 (3 * 2) (fun k => [72, 69, 76, 76, 79, 0].getD k 0) := by decide +kernel

theorem witness_RunTransformIsTheLoopOverBlocks : (∀ x, (enc keyA keyB x).length = 2) ∧
    (0x400 = 0x400 ∨ 0x400 + 3 * 2 ≤ 0x400 ∨ 0x400 + 3 * 2 ≤ 0x400) ∧
    (0x400 = 0x406 ∨ 0x400 + 3 * 2 ≤ 0x406 ∨ 0x406 + 3 * 2 ≤ 0x400) ∧
    (0x400 = 0x3FA ∨ 0x400 + 3 * 2 ≤ 0x3FA ∨ 0x3FA + 3 * 2 ≤ 0x400) ∧
    bytesAt cipherStart.dmem 0x400 (3 * 2) = .ok [72, 69, 76, 76, 79, 0] :=
  ⟨fun _ => rfl, by decide, by decide, by decide, by decide⟩

theorem witness_DecryptInPlaceRestoresTheRun : let s := withM 1 keyAinv cipherStart
    s.runState = .running ∧ s.dmem.wf ∧ s.mregs[0] = some keyA ∧ keyA.wf ∧ keyA.rows = keyA.cols ∧ s.vregs[1] = some keyB ∧
    keyB.length = keyA.rows ∧ s.mregs[1] = some keyAinv ∧ invert keyA = .ok keyAinv ∧
    exec (.encrypt 0 1 1 1 3) s = .next (after (.encrypt 0 1 1 1 3) s) ∧
    (after (.encrypt 0 1 1 1 3) s).runState = .running :=
  ⟨rfl, by decide +kernel, by decide, by decide, rfl, by decide, rfl, by decide, by decide +kernel,
    exec_next _ _ (by decide +kernel), by decide +kernel⟩

/-- The encrypted run at 0x500; decrypted to it, to the places adjacent to it, and back to the source run. -/
theorem witness_DecryptionOfAnEncryptedRunGivesTheSource :
    let s := withS [(2, 0x500), (4, 0x506), (5, 0x4FA)] (withM 1 keyAinv cipherStart)
    s.runState = .running ∧ s.mregs[0] = some keyA ∧ keyA.wf ∧ keyA.rows = keyA.cols ∧ s.vregs[1] = some keyB ∧
    keyB.length = keyA.rows ∧ s.mregs[1] = some keyAinv ∧ invert keyA = .ok keyAinv ∧
    exec (.encrypt 0 1 1 2 3) s = .next (after (.encrypt 0 1 1 2 3) s) ∧
    (after (.encrypt 0 1 1 2 3) s).runState = .running ∧
    (∀ r ∈ [(1 : SReg), 2, 4, 5], inRange (scalarInt s r) (scalarInt s 3 * keyA.rows)) ∧
    scalarInt s 2 = scalarInt s 2 ∧ scalarInt s 1 + scalarInt s 3 * keyA.rows ≤ scalarInt s 2 ∧
    scalarInt s 5 + scalarInt s 3 * keyA.rows ≤ scalarInt s 2 ∧ scalarInt s 2 + scalarInt s 3 * keyA.rows ≤ scalarInt s 4 :=
  ⟨rfl, by decide, by decide, rfl, by decide, rfl, by decide, by decide +kernel, exec_next _ _ (by decide +kernel),
    by decide +kernel, by decide, rfl, by decide, by decide, by decide⟩

/-- The validation cases of section 2.6 (i), and the boundary just inside each. -/
theorem witness_RecoverValidatesItsInputs :
    scalarInt (withS [(11, 4)] recoverStart) 10 ≤ scalarInt (withS [(11, 4)] recoverStart) 11 ∧
    ¬(scalarInt recoverStart 10 < 0 ∨ scalarInt recoverStart 13 < 0 ∨ scalarInt recoverStart 11 < 0 ∨
      scalarInt recoverStart 10 ≤ scalarInt recoverStart 11) ∧
    ¬ inRange (scalarInt (withS [(8, 0xFFF9)] recoverStart) 8) (scalarInt recoverStart 10 * 2) ∧
    ¬ inRange (scalarInt (withS [(9, 0xFFF9)] recoverStart) 9) (scalarInt recoverStart 10 * 2) ∧
    ¬ inRange (scalarInt (withS [(12, 0xFFFB)] recoverStart) 12) (2 * scalarInt recoverStart 13) ∧
    (let s := withS [(10, 3)] recoverStart;
      inRange (scalarInt s 8) (scalarInt s 10 * 2) ∧ inRange (scalarInt s 9) (scalarInt s 10 * 2) ∧
      inRange (scalarInt s 12) (2 * scalarInt s 13) ∧
      (∀ j < 3, cellGet s.dmem ((scalarInt s 12).toNat + 2 * j) = some (BitVec.ofNat 8 (j + 1)) ∧
        cellGet s.dmem ((scalarInt s 12).toNat + 2 * j + 1) = some 0) ∧
      scalarInt s 10 ≤ ((BitVec.ofNat 8 (2 + 1) : Byte).toNat + 256 * (0 : Byte).toNat : Nat)) := by decide +kernel

/-- The samples of section 2.6 (a). -/
def plainOf (i k : Nat) : Byte := [1, 2, 3, 4, 2, 2, 1, 3].getD (i * 2 + k) 0
def cipherOf (i k : Nat) : Byte := [12, 22, 18, 38, 13, 25, 14, 27].getD (i * 2 + k) 0

theorem recoverStart_inputs : RecoverInputs recoverStart 2 plainOf cipherOf [1, 2, 3] where
  anchor_nonneg := by decide
  anchor_lt := by decide
  plain_inRange := by decide
  cipher_inRange := by decide
  cands_inRange := by decide
  cands_length := by decide
  cands_lt := by decide
  cands_held := fun j hj => by
    have h : ∀ j < 3, cellGet recoverStart.dmem ((scalarInt recoverStart recoverCandBase).toNat + 2 * j)
          = some (BitVec.ofNat 8 (j + 1)) ∧
        cellGet recoverStart.dmem ((scalarInt recoverStart recoverCandBase).toNat + 2 * j + 1) = some 0 ∧
        [1, 2, 3].getD j 0 = (BitVec.ofNat 8 (j + 1)).toNat + 256 * (0 : Byte).toNat := by decide +kernel
    exact ⟨_, _, h j hj⟩
  plain_held := fun i k hi hk => by
    have h : ∀ i < 4, ∀ k < 2, cellGet recoverStart.dmem ((scalarInt recoverStart recoverPbase).toNat + i * 2 + k)
        = some (plainOf i k) := by decide +kernel
    have e : scalarInt recoverStart recoverCount = 4 := by decide
    exact h i (by omega) k hk
  cipher_held := fun i k hi hk => by
    have h : ∀ i < 4, ∀ k < 2, cellGet recoverStart.dmem ((scalarInt recoverStart recoverCbase).toNat + i * 2 + k)
        = some (cipherOf i k) := by decide +kernel
    have e : scalarInt recoverStart recoverCount = 4 := by decide
    exact h i (by omega) k hk

/-- Both outcomes: the third combination of section 2.6 (a) inverts; with one candidate (section 2.6 (e)) there is none. -/
theorem witness_RecoverReturnsTheFirstInvertibleCombination :
    RecoverInputs recoverStart 2 plainOf cipherOf [1, 2, 3] ∧
    (combinations 2 [1, 2, 3]).find? (fun comb => (invert (diffOf 2 0 plainOf comb)).isOk) = some [2, 3] ∧
    (combinations 2 [1]).find? (fun comb => (invert (diffOf 2 0 plainOf comb)).isOk) = none :=
  ⟨recoverStart_inputs, by decide +kernel, by decide⟩

theorem witness_CombinationsAreTriedInLexicographicOrder : [7, 7, 9].length = 3 ∧
    combinations 2 [7, 7, 9] = [[7, 7], [7, 9], [7, 9]] := by decide

theorem witness_RecoveredKeyIsTheGeneratingKey : RecoverInputs recoverStart 2 plainOf cipherOf [1, 2, 3] ∧
    recoverStart.runState = .running ∧ keyA.wf ∧ keyA.rows = 2 ∧ keyA.cols = 2 ∧ keyB.length = 2 ∧
    (∀ i : Nat, (i : Int) < scalarInt recoverStart 10 → Vec.ofFn 2 (cipherOf i) = enc keyA keyB (Vec.ofFn 2 (plainOf i))) ∧
    exec (.recover 1 1 2) recoverStart = .next (after (.recover 1 1 2) recoverStart) ∧
    (after (.recover 1 1 2) recoverStart).runState = .running := by
  refine ⟨recoverStart_inputs, rfl, by decide, rfl, rfl, rfl, fun i hi => ?_, exec_next _ _ (by decide +kernel),
    by decide +kernel⟩
  have h : ∀ i < 4, Vec.ofFn 2 (cipherOf i) = enc keyA keyB (Vec.ofFn 2 (plainOf i)) := by decide +kernel
  have e : scalarInt recoverStart 10 = 4 := by decide
  exact h i (by omega)

theorem witness_RunControlCommands : State.reset.runState = .idle ∧ start.runState = .running ∧
    (after .halt start).runState = .halted ∧ (takeFault .noInverse 0 start).runState = .faulted ∧
    (8 : Word).getLsbD 3 = true ∧ (7 : Word).getLsbD 3 = false := by decide

theorem witness_ControlRegistersReadAsSpecified : State.reset.runState ≠ .running ∧
    (after .halt start).runState = .halted ∧ (takeFault .noInverse 0 start).runState = .faulted ∧
    ({ State.reset with runState := .halted, ie := 1 } : State).ie.getLsbD 0 = true ∧
    ({ State.reset with runState := .faulted, ie := 2 } : State).ie.getLsbD 1 = true := by decide

theorem witness_RunningEngineIsClosedToTheHost : HostOp.write32 0x08 2 ≠ .reset ∧ start.runState = .running ∧
    hostAct (.write32 0x08 2) start = .next (orSelf start (hostAct (.write32 0x08 2) start)) ∧
    (∀ d : Word, HostOp.write32 0x08 2 = .write32 0x08 d → d.getLsbD 3 = false) ∧
    hostAct (.write8 0x10FFFF 1) start = .next (orSelf start (hostAct (.write8 0x10FFFF 1) start)) ∧
    (orSelf start (hostAct (.write8 0x10FFFF 1) start)).lastReply = some .errorResponse :=
  ⟨by decide, rfl, next_of_isNext _ _ (by decide), fun d h => by cases h; decide, next_of_isNext _ _ (by decide), by decide⟩

/-- The addresses just outside the windows and at the ends of the reserved ranges (section 2.10). -/
theorem witness_RunningEngineIsClosedToTheHost_errors :
    (0x0FFFFF : HostAddr).toNat < 0x100000 ∧ 0x100000 + Config.dmemSize ≤ (0x110000 : HostAddr).toNat ∧
    0x100000 + Config.dmemSize ≤ (0x1FFFFF : HostAddr).toNat ∧ (0x01 : HostAddr).toNat % 4 ≠ 0 ∧
    (0x100 ≤ (0x100 : HostAddr).toNat ∧ (0x100 : HostAddr).toNat < 0x010000) ∧
    0x010000 + 4 * Config.imemWords ≤ (0x011000 : HostAddr).toNat ∧ 0x010000 + 4 * Config.imemWords ≤ (0x100000 : HostAddr).toNat ∧
    (0x28 : HostAddr).toNat = 0x28 ∧ (0x34 ≤ (0x34 : HostAddr).toNat ∧ (0x3C : HostAddr).toNat < 0x40) ∧
    (0x80 ≤ (0x80 : HostAddr).toNat ∧ (0xFC : HostAddr).toNat < 0x100) := by decide

theorem witness_WindowsReachTheMemoriesAndRegisters : 1023 < Config.imemWords ∧ 65535 < Config.dmemSize ∧
    State.reset.runState ≠ .running ∧ start.runState = .running ∧
    cellGet (withCode 1023 0x02000000 State.reset).imem 1023 = some 0x02000000 ∧
    cellGet (withBytes 65535 [9] State.reset).dmem 65535 = some 9 := by decide

theorem witness_ProgramLoadsThroughTheHostPort : (List.replicate 1024 (0x01000000 : Word)).length ≤ Config.imemWords ∧
    State.reset.runState ≠ .running ∧
    ({ State.reset with turns := loadProgram 0 (List.replicate 1024 0x01000000) } : State).turns
      = loadProgram 0 (List.replicate 1024 0x01000000) :=
  ⟨(List.length_replicate).le, by decide, rfl⟩

theorem witness_ChunkThenUnchunkReproducesTheBytes : 1 ≤ 1 ∧ unchunk (chunk [72, 69, 76, 76, 79] 2) 5 = [72, 69, 76, 76, 79] := by
  decide

end Sys2Proof.Tests
end

section
/-! SUPPORT. What each command of `CTRL` does in each run state, what a write and a read of `CTRL` answer, and the two statements
on reset and run control. -/

namespace Sys2Proof.Machine

/-! ## The commands, by run state -/

theorem ctrlStart_of_idle_or_halted {s : State} (h : s.runState = .idle ∨ s.runState = .halted) :
    ctrlStart s = { s with runState := .running } := if_pos h

theorem ctrlStart_of_running_or_faulted {s : State} (h : s.runState = .running ∨ s.runState = .faulted) :
    ctrlStart s = s := by
  refine if_neg ?_
  rcases h with h | h <;> simp [h]

theorem ctrlStop_of_running {s : State} (h : s.runState = .running) : ctrlStop s = { s with stopReq := true } := if_pos h

theorem ctrlStop_of_not_running {s : State} (h : s.runState ≠ .running) : ctrlStop s = s := if_neg h

theorem clearFault_of_faulted {s : State} (h : s.runState = .faulted) :
    clearFault s = { s with ecause := 0, epc := 0, einfo := 0, runState := .idle } := if_pos h

theorem clearFault_of_not_faulted {s : State} (h : s.runState ≠ .faulted) : clearFault s = s := if_neg h

/-! ## One write of CTRL (10_state.md R36) -/

theorem ctrlWrite_of_sreset {d : Word} (s : State) (h : d.getLsbD 3 = true) : ctrlWrite d s = resetEvent s := if_pos h

theorem ctrlWrite_of_not_sreset {d : Word} {s s1 s2 s3 : State} (h : d.getLsbD 3 = false)
    (h1 : s1 = if d.getLsbD 2 = true then clearFault s else s)
    (h2 : s2 = if d.getLsbD 0 = true then ctrlStart s1 else s1)
    (h3 : s3 = if d.getLsbD 1 = true then ctrlStop s2 else s2) : ctrlWrite d s = s3 := by
  subst h1 h2 h3
  exact if_neg (Bool.eq_false_iff.1 h)

/-- A write of CTRL is obeyed in every run state: it is never an error. -/
theorem hostAct_write32_ctrl (d : Word) (s : State) :
    hostAct (.write32 0x08 d) s = .next { ctrlWrite d s with lastReply := some .done } := rfl

theorem hostAct_write32_ctrl_of_sreset {d : Word} (s : State) (h : d.getLsbD 3 = true) :
    hostAct (.write32 0x08 d) s = .next { resetEvent s with lastReply := some .done } := by
  rw [hostAct_write32_ctrl, ctrlWrite_of_sreset s h]

/-- CTRL holds nothing: it reads 0 (10_state.md R36). -/
theorem hostAct_read32_ctrl (s : State) :
    hostAct (.read32 0x08) s = .next { s with lastReply := some (.data32 0) } := rfl

/-! ## The other registers and the engine -/

/-- The constants of the control block (10_state.md R34, R35, R43, R45) read the same in any two states. -/
theorem csrRead_constant {off : Nat} (h : off ∈ [0x00, 0x04, 0x24, 0x2C, 0x30]) (s t : State) :
    csrRead off s = csrRead off t := by
  simp only [List.mem_cons, List.not_mem_nil, or_false] at h
  rcases h with rfl | rfl | rfl | rfl | rfl <;> rfl

/-- The interrupt output is low in IDLE, whatever is enabled (60_exceptions.md R276). -/
theorem irq_of_idle {s : State} (h : s.runState = .idle) : irq s = false := by
  simp [irq, h]

/-- An engine that is not RUNNING does nothing (60_exceptions.md R287). -/
theorem engineStep_of_not_running {s : State} (h : s.runState ≠ .running) : engineStep s = .next s := if_pos h

/-! ## The statements -/

/-- Settles O18: the state after the reset event is `resetEvent s`, whose fields are known one by one; it is IDLE, so the engine
rests and START is obeyed. -/
theorem resetEventLeavesTheResetValues : Obligations.ResetEventLeavesTheResetValues := by
  intro s
  have idle : (resetEvent s).runState = .idle := resetEvent_runState s
  have started : ctrlStart (resetEvent s) = { resetEvent s with runState := .running } :=
    ctrlStart_of_idle_or_halted (.inl idle)
  refine ⟨resetEvent s, rfl, ?sregs, ?mregs, ?vregs, resetEvent_pc s, idle, resetEvent_stopReq s, resetEvent_ecause s,
    resetEvent_epc s, resetEvent_einfo s, resetEvent_ie s, irq_of_idle idle, resetEvent_imem s, resetEvent_dmem s,
    fun d h => hostAct_write32_ctrl_of_sreset s h, engineStep_of_not_running (by simp), by rw [started], by simp [started],
    fun off h => csrRead_constant h _ _⟩
  case sregs => simp
  case mregs => simp
  case vregs => simp

/-- Settles O54, by the equations of each command and of one write of CTRL. -/
theorem runControlCommands : Obligations.RunControlCommands := by
  intro s
  refine ⟨ctrlStart_of_idle_or_halted, ctrlStart_of_running_or_faulted, ctrlStop_of_running, ctrlStop_of_not_running,
    clearFault_of_faulted, clearFault_of_not_faulted, fun d h => hostAct_write32_ctrl_of_sreset s h, ?_,
    hostAct_read32_ctrl s⟩
  intro d s1 s2 s3 h h1 h2 h3
  rw [hostAct_write32_ctrl, ctrlWrite_of_not_sreset h h1 h2 h3]

end Sys2Proof.Machine
end

section
/-! SUPPORT. What a transaction at an IMEM word, a DMEM byte, a scalar register and PC does: where the address leads (20_memory.md
R62), one lemma per kind of cell and direction, and the statement on the windows. -/

namespace Sys2Proof.Machine

/-! ## Where an address leads -/

/-- The word addresses of the IMEM window fit in a host address. -/
theorem toNat_codeAddr {i : Nat} (h : i < Config.imemWords) :
    (BitVec.ofNat 21 (0x010000 + 4 * i)).toNat = 0x010000 + 4 * i := by
  simp only [Config.imemWords] at h
  rw [BitVec.toNat_ofNat, Nat.mod_eq_of_lt (by omega)]

/-- The byte addresses of the DMEM window fit in a host address. -/
theorem toNat_dataAddr {a : Nat} (h : a < Config.dmemSize) :
    (BitVec.ofNat 21 (0x100000 + a)).toNat = 0x100000 + a := by
  simp only [Config.dmemSize] at h
  rw [BitVec.toNat_ofNat, Nat.mod_eq_of_lt (by omega)]

/-- The offsets of the scalar registers fit in a host address. -/
theorem toNat_scalarAddr (r : SReg) : (BitVec.ofNat 21 (0x40 + 4 * r.val)).toNat = 0x40 + 4 * r.val := by
  rw [BitVec.toNat_ofNat, Nat.mod_eq_of_lt (by omega)]

theorem inCodeWindow_codeAddr {i : Nat} (h : i < Config.imemWords) : inCodeWindow (0x010000 + 4 * i) = true := by
  simp only [inCodeWindow, Bool.and_eq_true, decide_eq_true_eq]
  omega

/-- The IMEM window and the register block do not meet. -/
theorem inCsrBlock_codeAddr (i : Nat) : inCsrBlock (0x010000 + 4 * i) = false := by
  simp only [inCsrBlock, Bool.and_eq_false_iff, decide_eq_false_iff_not]
  omega

@[simp] theorem codeIndexOf_codeAddr (i : Nat) : codeIndexOf (0x010000 + 4 * i) = i := by
  simp only [codeIndexOf]
  omega

theorem inDataWindow_dataAddr {a : Nat} (h : a < Config.dmemSize) : inDataWindow (0x100000 + a) = true := by
  simp only [inDataWindow, Bool.and_eq_true, decide_eq_true_eq]
  omega

@[simp] theorem dataAddrOf_dataAddr (a : Nat) : dataAddrOf (0x100000 + a) = a := by
  unfold dataAddrOf
  exact Nat.add_sub_cancel_left 0x100000 a

theorem inCsrBlock_scalarAddr (r : SReg) : inCsrBlock (0x40 + 4 * r.val) = true := by
  simp only [inCsrBlock, Bool.and_eq_true, decide_eq_true_eq]
  omega

theorem scalarWindow_scalarAddr (r : SReg) : scalarWindow (0x40 + 4 * r.val) = true := by
  simp only [scalarWindow, Bool.and_eq_true, decide_eq_true_eq]
  omega

@[simp] theorem scalarOf_scalarAddr (r : SReg) : scalarOf (0x40 + 4 * r.val) = r := by
  apply Fin.ext
  simp only [scalarOf, Fin.val_ofNat]
  omega

/-! ## The scalar registers in the register block (10_state.md R44) -/

/-- Past the registers with an offset of their own, a read finds the scalar registers. -/
theorem csrRead_of_scalarWindow {off : Nat} (h : scalarWindow off = true) (s : State) :
    csrRead off s = if s.runState = .running then none else some (scalar s (scalarOf off)) := by
  have low : 0x40 ≤ off := by
    simp only [scalarWindow, Bool.and_eq_true, decide_eq_true_eq] at h
    exact h.1.1
  unfold csrRead
  iterate 12 rw [if_neg (by omega)]
  rw [if_pos h]

/-- Past the registers with an offset of their own, a write finds the scalar registers. -/
theorem csrWrite_of_scalarWindow {off : Nat} (h : scalarWindow off = true) (d : Word) (s : State) :
    csrWrite off d s = if s.runState = .running then none else some (setScalar s (scalarOf off) d) := by
  have low : 0x40 ≤ off := by
    simp only [scalarWindow, Bool.and_eq_true, decide_eq_true_eq] at h
    exact h.1.1
  unfold csrWrite
  iterate 3 rw [if_neg (by omega)]
  rw [if_pos h]

/-! ## Writes: obeyed at rest, an error while RUNNING (20_memory.md R63, R67; 10_state.md R38, R44) -/

/-- A write that is open unless the engine runs has its effect and `ok`, or no effect and the error response. -/
theorem finishWrite_unless_running (s t : State) :
    finishWrite s (if s.runState = .running then none else some t) =
      if s.runState = .running then { s with lastReply := some .errorResponse } else { t with lastReply := some .done } := by
  split
  · rfl
  · rfl

theorem hostAct_write32_codeAddr {i : Nat} (h : i < Config.imemWords) (d : Word) (s : State) :
    hostAct (.write32 (BitVec.ofNat 21 (0x010000 + 4 * i)) d) s =
      .next (if s.runState = .running then { s with lastReply := some .errorResponse }
        else { s with imem := cellPut s.imem i d, lastReply := some .done }) := by
  rw [hostAct, toNat_codeAddr h, hostWrite32, if_neg (by simp [inCsrBlock_codeAddr]), if_pos (inCodeWindow_codeAddr h),
    codeIndexOf_codeAddr, finishWrite_unless_running]

theorem hostAct_write8_dataAddr {a : Nat} (h : a < Config.dmemSize) (d : Byte) (s : State) :
    hostAct (.write8 (BitVec.ofNat 21 (0x100000 + a)) d) s =
      .next (if s.runState = .running then { s with lastReply := some .errorResponse }
        else { s with dmem := cellPut s.dmem a d, lastReply := some .done }) := by
  rw [hostAct, toNat_dataAddr h, hostWrite8, if_pos (inDataWindow_dataAddr h), dataAddrOf_dataAddr,
    finishWrite_unless_running]

theorem hostAct_write32_scalarAddr (r : SReg) (d : Word) (s : State) :
    hostAct (.write32 (BitVec.ofNat 21 (0x40 + 4 * r.val)) d) s =
      .next (if s.runState = .running then { s with lastReply := some .errorResponse }
        else { setScalar s r d with lastReply := some .done }) := by
  rw [hostAct, toNat_scalarAddr, hostWrite32, if_pos (inCsrBlock_scalarAddr r),
    csrWrite_of_scalarWindow (scalarWindow_scalarAddr r), scalarOf_scalarAddr, finishWrite_unless_running]

theorem hostAct_write32_pc (d : Word) (s : State) :
    hostAct (.write32 0x10 d) s =
      .next (if s.runState = .running then { s with lastReply := some .errorResponse }
        else { s with pc := d.setWidth 16, lastReply := some .done }) :=
  congrArg Host.Outcome.next (finishWrite_unless_running s { s with pc := d.setWidth 16 })

/-! ## Reads: the value at rest, an error while RUNNING, but for PC -/

theorem hostAct_read32_codeAddr_of_running {i : Nat} {s : State} (h : i < Config.imemWords) (hr : s.runState = .running) :
    hostAct (.read32 (BitVec.ofNat 21 (0x010000 + 4 * i))) s = .next { s with lastReply := some .errorResponse } := by
  rw [hostAct, toNat_codeAddr h, hostRead32, if_neg (by simp [inCsrBlock_codeAddr]), if_pos (inCodeWindow_codeAddr h),
    if_pos hr, finishRead]

theorem hostAct_read32_codeAddr {i : Nat} {s : State} {v : Word} (h : i < Config.imemWords) (hr : s.runState ≠ .running)
    (hv : cellGet s.imem i = some v) :
    hostAct (.read32 (BitVec.ofNat 21 (0x010000 + 4 * i))) s = .next { s with lastReply := some (.data32 v) } := by
  rw [hostAct, toNat_codeAddr h, hostRead32, if_neg (by simp [inCsrBlock_codeAddr]), if_pos (inCodeWindow_codeAddr h),
    if_neg hr, codeIndexOf_codeAddr, hv, finishRead]

theorem hostAct_read8_dataAddr_of_running {a : Nat} {s : State} (h : a < Config.dmemSize) (hr : s.runState = .running) :
    hostAct (.read8 (BitVec.ofNat 21 (0x100000 + a))) s = .next { s with lastReply := some .errorResponse } := by
  rw [hostAct, toNat_dataAddr h, hostRead8, if_pos (inDataWindow_dataAddr h), if_pos hr, finishRead]

theorem hostAct_read8_dataAddr {a : Nat} {s : State} {v : Byte} (h : a < Config.dmemSize) (hr : s.runState ≠ .running)
    (hv : cellGet s.dmem a = some v) :
    hostAct (.read8 (BitVec.ofNat 21 (0x100000 + a))) s = .next { s with lastReply := some (.data8 v) } := by
  rw [hostAct, toNat_dataAddr h, hostRead8, if_pos (inDataWindow_dataAddr h), if_neg hr, dataAddrOf_dataAddr, hv,
    finishRead]

theorem hostAct_read32_scalarAddr (r : SReg) (s : State) :
    hostAct (.read32 (BitVec.ofNat 21 (0x40 + 4 * r.val))) s =
      .next { s with lastReply := some (if s.runState = .running then .errorResponse else .data32 (scalar s r)) } := by
  rw [hostAct, toNat_scalarAddr, hostRead32, if_pos (inCsrBlock_scalarAddr r),
    csrRead_of_scalarWindow (scalarWindow_scalarAddr r), scalarOf_scalarAddr]
  by_cases hr : s.runState = .running
  · simp only [if_pos hr, finishRead]
  · simp only [if_neg hr, finishRead]

/-- PC reads the zero-extended `pc` in every run state (10_state.md R38). -/
theorem hostAct_read32_pc (s : State) :
    hostAct (.read32 0x10) s = .next { s with lastReply := some (.data32 (s.pc.setWidth 32)) } := rfl

/-! ## The statement -/

/-- Settles O57: at rest each write puts its cell and each read gets it; the running engine answers every one but the read of PC
with an error. -/
theorem windowsReachTheMemoriesAndRegisters : Obligations.WindowsReachTheMemoriesAndRegisters := by
  intro s i a r w b hi ha
  refine ⟨fun rest => ⟨⟨cellPut s.imem i w, ?codeWrite, cellGet_cellPut_self s.imem i w,
      fun j => cellGet_cellPut_ne s.imem i j w⟩, fun _ => hostAct_read32_codeAddr hi rest,
    ⟨cellPut s.dmem a b, ?dataWrite, cellGet_cellPut_self s.dmem a b, fun j => cellGet_cellPut_ne s.dmem a j b⟩,
    fun _ => hostAct_read8_dataAddr ha rest, ?scalarWrite, ?scalarRead, ?pcWrite, hostAct_read32_pc s⟩,
    ⟨s.pc, hostAct_read32_pc s⟩, fun running op hop => ?closed⟩
  case codeWrite => rw [hostAct_write32_codeAddr hi, if_neg rest]
  case dataWrite => rw [hostAct_write8_dataAddr ha, if_neg rest]
  case scalarWrite => rw [hostAct_write32_scalarAddr, if_neg rest, setScalar]
  case scalarRead => rw [hostAct_read32_scalarAddr, if_neg rest, scalar]
  case pcWrite => rw [hostAct_write32_pc, if_neg rest, BitVec.setWidth_eq_extractLsb' (by decide)]
  case closed =>
    simp only [List.mem_cons, List.not_mem_nil, or_false] at hop
    rcases hop with rfl | rfl | rfl | rfl | rfl | rfl | rfl
    · rw [hostAct_write32_codeAddr hi, if_pos running]
    · exact hostAct_read32_codeAddr_of_running hi running
    · rw [hostAct_write8_dataAddr ha, if_pos running]
    · exact hostAct_read8_dataAddr_of_running ha running
    · rw [hostAct_write32_scalarAddr, if_pos running]
    · rw [hostAct_read32_scalarAddr, if_pos running]
    · rw [hostAct_write32_pc, if_pos running]

end Sys2Proof.Machine
end

section
/-! SUPPORT. Which words the decoder accepts: every slot check is a mask over the word, so the checks of a row add up to the
row's line in the table of match and mask (30_encoding.md R93, R95). With it, the two statements on illegal words and worked
encodings. -/

namespace Sys2Proof

/-! ## Masks over the slots of a word -/

/-- A mask over one slot is clear in a word exactly when it is clear in the slot. -/
theorem and_slotMask_eq_zero_iff (w : Word) (m : BitVec 4) {lo : Nat} (h : lo ≤ 28) :
    w &&& (m.setWidth 32 <<< lo) = 0 ↔ w.extractLsb' lo 4 &&& m = 0 := by
  constructor
  · intro hw
    refine BitVec.eq_of_getLsbD_eq fun i hi => ?_
    have := congrArg (·.getLsbD (lo + i)) hw
    simpa [hi, show lo + i < 32 by omega, show i < 32 by omega] using this
  · intro hx
    refine BitVec.eq_of_getLsbD_eq fun j hj => ?_
    have := congrArg (·.getLsbD (j - lo)) hx
    by_cases hlo : j < lo
    · simp [hlo]
    · by_cases hi : j - lo < 4
      · simpa [hlo, hj, hi, show lo + (j - lo) = j by omega, show j - lo < 32 by omega] using this
      · simp [BitVec.getLsbD_of_ge m (j - lo) (by omega)]

/-- Two masks joined are clear in a word exactly when each is. -/
theorem and_or_eq_zero_iff (w m n : Word) : w &&& (m ||| n) = 0 ↔ w &&& m = 0 ∧ w &&& n = 0 := by
  rw [BitVec.and_or_distrib_left]
  exact BitVec.or_eq_zero_iff

/-- When the mask holds the opcode byte and the pattern is the opcode alone, a word with that opcode passes exactly when the rest
of the mask is clear in it. -/
theorem and_mask_eq_pattern_iff {w : Word} {opcode : BitVec 8} (m : BitVec 24) (h : fieldOpcode w = opcode) :
    w &&& (0xFF#8 ++ m : BitVec 32) = (opcode ++ 0#24 : BitVec 32) ↔ w &&& (0#8 ++ m : BitVec 32) = 0 := by
  have hw : w = (opcode ++ w.extractLsb' 0 24 : BitVec 32) := by
    rw [← h]
    have happ := BitVec.extractLsb'_append_extractLsb'_eq_extractLsb' (x := w) (len₂ := 8) (Nat.zero_add 24).symm
    exact (happ.trans BitVec.extractLsb'_eq_self).symm
  have hop : opcode &&& 0xFF#8 = opcode := BitVec.and_allOnes
  have hzero : (0 : Word) = (0#8 ++ 0#24 : BitVec 32) := rfl
  rw [hw, hzero, BitVec.and_append, BitVec.and_append, hop, BitVec.and_zero, BitVec.append_right_inj,
    BitVec.append_right_inj]

/-! ## What a check accepts -/

/-- `r` succeeds exactly when the bits of `m` are clear in `w` and the slots of `w` at `ds` hold legal dimensions, and every value
it gives has the property `P`. -/
def Checks {α : Type} (w m : Word) (ds : List Nat) (P : α → Prop) (r : Except Illegal α) : Prop :=
  ((∃ a, r = .ok a) ↔ w &&& m = 0 ∧ ∀ lo ∈ ds, dimOk (w.extractLsb' lo 4).toNat = true) ∧ ∀ a, r = .ok a → P a

namespace Checks
variable {α β : Type} {w m m' : Word} {ds ds' : List Nat} {P : α → Prop} {Q : β → Prop}

theorem of_eq {r : Except Illegal α} (h : Checks w m ds P r) (hm : m = m') (hd : ds = ds') : Checks w m' ds' P r := by
  rwa [← hm, ← hd]

theorem pure {a : α} (h : P a) : Checks w 0 [] P (.ok a) := by
  refine ⟨by simp, fun b hb => ?_⟩
  cases hb
  exact h

/-- Checks made one after the other join their masks and their dimension slots. -/
theorem bind {x : Except Illegal α} {f : α → Except Illegal β} (hx : Checks w m ds P x)
    (hf : ∀ a, Checks w m' ds' Q (f a)) : Checks w (m ||| m') (ds ++ ds') Q (x >>= f) := by
  obtain ⟨hiff, -⟩ := hx
  simp only [Checks, and_or_eq_zero_iff, List.forall_mem_append]
  cases x with
  | error e =>
    refine ⟨iff_of_false (by rintro ⟨b, ⟨⟩⟩) fun ⟨⟨hm, _⟩, hd, _⟩ => ?_, by rintro b ⟨⟩⟩
    obtain ⟨a, ⟨⟩⟩ := hiff.2 ⟨hm, hd⟩
  | ok a =>
    obtain ⟨hm, hd⟩ := hiff.1 ⟨a, rfl⟩
    obtain ⟨hiff', hQ⟩ := hf a
    refine ⟨?_, hQ⟩
    rw [and_and_and_comm, and_iff_right ⟨hm, hd⟩]
    exact hiff'

end Checks

/-! ## The slot kinds (30_encoding.md R93) -/

theorem slotZero_ok_iff (x : BitVec 4) : (∃ u, slotZero x = .ok u) ↔ x = 0 := by
  unfold slotZero
  split
  next h => simp [h]
  next h => simpa using h

theorem slotMV_ok_iff (x : BitVec 4) : (∃ r, slotMV x = .ok r) ↔ x.toNat < 8 := by
  unfold slotMV
  split <;> simp [*]

theorem slotD_ok_iff (x : BitVec 4) : (∃ d, slotD x = .ok d) ↔ dimOk x.toNat = true := by
  unfold slotD
  split <;> simp [*]

/-- A register number below 8 is one with bit 3 clear. -/
theorem toNat_lt_eight_iff (x : BitVec 4) : x.toNat < 8 ↔ x &&& 8#4 = 0 := by
  revert x
  decide

section Slots
variable (w : Word) {lo : Nat}

theorem checks_slotZero (h : lo ≤ 28 := by decide) :
    Checks w ((0xF#4).setWidth 32 <<< lo) [] (fun _ => True) (slotZero (w.extractLsb' lo 4)) := by
  have hall : w.extractLsb' lo 4 &&& 0xF#4 = w.extractLsb' lo 4 := BitVec.and_allOnes
  refine ⟨?_, fun _ _ => trivial⟩
  rw [slotZero_ok_iff, and_slotMask_eq_zero_iff w _ h, hall]
  simp

theorem checks_slotMV (h : lo ≤ 28 := by decide) :
    Checks w ((8#4).setWidth 32 <<< lo) [] (fun _ => True) (slotMV (w.extractLsb' lo 4)) := by
  refine ⟨?_, fun _ _ => trivial⟩
  rw [slotMV_ok_iff, and_slotMask_eq_zero_iff w _ h, toNat_lt_eight_iff]
  simp

theorem checks_slotD : Checks w 0 [lo] (fun _ => True) (slotD (w.extractLsb' lo 4)) := by
  refine ⟨?_, fun _ _ => trivial⟩
  rw [slotD_ok_iff]
  simp

end Slots

/-! ## The operand forms, with the mask each leaves below the opcode -/

section Forms
variable (w : Word) {P : Instr → Prop}

theorem checks_tailF5 : Checks w 0xFF [] (fun _ => True) (tailF5 w) :=
  .of_eq ((checks_slotZero w).bind fun _ => checks_slotZero w) rfl rfl

theorem checks_tailF4 : Checks w 0xFFF [] (fun _ => True) (tailF4 w) :=
  .of_eq ((checks_slotZero w).bind fun _ => checks_tailF5 w) rfl rfl

theorem checks_tailF3 : Checks w 0xFFFF [] (fun _ => True) (tailF3 w) :=
  .of_eq ((checks_slotZero w).bind fun _ => checks_tailF4 w) rfl rfl

theorem checks_tailF1 : Checks w 0xFFFFFF [] (fun _ => True) (tailF1 w) :=
  .of_eq ((checks_slotZero w).bind fun _ => (checks_slotZero w).bind fun _ => checks_tailF3 w) rfl rfl

theorem checks_twoS {mk : SReg → SReg → Instr} (h : ∀ a b, P (mk a b)) : Checks w 0xFFFF [] P (twoS w mk) :=
  .of_eq ((checks_tailF3 w).bind fun _ => .pure (h _ _)) rfl rfl

theorem checks_threeS {mk : SReg → SReg → SReg → Instr} (h : ∀ a b c, P (mk a b c)) : Checks w 0xFFF [] P (threeS w mk) :=
  .of_eq ((checks_tailF4 w).bind fun _ => .pure (h _ _ _)) rfl rfl

theorem checks_oneMVoneS {mk : Fin 8 → SReg → Instr} (h : ∀ r a, P (mk r a)) :
    Checks w 0x80FFFF [] P (oneMVoneS w mk) :=
  .of_eq ((checks_slotMV w).bind fun _ => (checks_tailF3 w).bind fun _ => .pure (h _ _)) rfl rfl

theorem checks_twoMV {mk : Fin 8 → Fin 8 → Instr} (h : ∀ r1 r2, P (mk r1 r2)) : Checks w 0x88FFFF [] P (twoMV w mk) :=
  .of_eq ((checks_slotMV w).bind fun _ => (checks_slotMV w).bind fun _ =>
    (checks_tailF3 w).bind fun _ => .pure (h _ _)) rfl rfl

theorem checks_threeMV {mk : Fin 8 → Fin 8 → Fin 8 → Instr} (h : ∀ r1 r2 r3, P (mk r1 r2 r3)) :
    Checks w 0x888FFF [] P (threeMV w mk) :=
  .of_eq ((checks_slotMV w).bind fun _ => (checks_slotMV w).bind fun _ =>
    (checks_slotMV w).bind fun _ => (checks_tailF4 w).bind fun _ => .pure (h _ _ _)) rfl rfl

theorem checks_fourMV {mk : Fin 8 → Fin 8 → Fin 8 → Fin 8 → Instr} (h : ∀ r1 r2 r3 r4, P (mk r1 r2 r3 r4)) :
    Checks w 0x8888FF [] P (fourMV w mk) :=
  .of_eq ((checks_slotMV w).bind fun _ => (checks_slotMV w).bind fun _ =>
    (checks_slotMV w).bind fun _ => (checks_slotMV w).bind fun _ =>
      (checks_tailF5 w).bind fun _ => .pure (h _ _ _ _)) rfl rfl

theorem checks_blockRun {mk : Fin 8 → Fin 8 → SReg → SReg → SReg → Instr} (h : ∀ r1 r2 a b c, P (mk r1 r2 a b c)) :
    Checks w 0x88000F [] P (blockRun w mk) :=
  .of_eq ((checks_slotMV w).bind fun _ => (checks_slotMV w).bind fun _ =>
    (checks_slotZero w).bind fun _ => .pure (h _ _ _ _ _)) rfl rfl

end Forms

/-! ## The rows of the table -/

/-- The checks of the decoder's row for an opcode are those of the table's row: the mask below the opcode byte, and the `d`
slots; what the row gives has its opcode. -/
theorem checks_decode (w : Word) : ∀ row ∈ encodingTable, row.opcode = (fieldOpcode w).toNat →
    Checks w (0#8 ++ row.mask.setWidth 24 : BitVec 32) row.dslots (fun i => i.opcode = row.opcode) (decode w) := by
  intro row hrow hop
  rw [decode, ← hop]
  fin_cases hrow <;> dsimp only
  · exact .of_eq ((checks_tailF1 w).bind fun _ => .pure rfl) rfl rfl  -- NOP
  · exact .of_eq ((checks_tailF1 w).bind fun _ => .pure rfl) rfl rfl  -- HALT
  · exact .of_eq ((checks_slotZero w).bind fun _ =>  -- JMP
      (checks_slotZero w).bind fun _ => .pure rfl) rfl rfl
  · exact .of_eq ((checks_slotZero w).bind fun _ => .pure rfl) rfl rfl  -- BEQZ
  · exact .of_eq ((checks_slotZero w).bind fun _ => .pure rfl) rfl rfl  -- BNEZ
  · exact .of_eq ((checks_slotZero w).bind fun _ => .pure rfl) rfl rfl  -- SLI
  · exact .pure rfl  -- SADDI
  · exact checks_threeS w fun _ _ _ => rfl  -- SADD
  · exact checks_threeS w fun _ _ _ => rfl  -- SSUB
  · exact checks_twoS w fun _ _ => rfl  -- SLOAD
  · exact checks_twoS w fun _ _ => rfl  -- SSTORE
  · exact checks_twoS w fun _ _ => rfl  -- SLOADB
  · exact checks_twoS w fun _ _ => rfl  -- SSTOREB
  · exact .of_eq ((checks_slotZero w).bind fun _ => .pure rfl) rfl rfl  -- XGCD
  · exact checks_twoS w fun _ _ => rfl  -- MODINV
  · exact checks_twoS w fun _ _ => rfl  -- MODRED
  · exact .of_eq ((checks_slotMV w).bind fun _ => (checks_tailF5 w).bind fun _ =>  -- MLOAD
      (checks_slotD w).bind fun _ => (checks_slotD w).bind fun _ => .pure rfl) rfl rfl
  · exact checks_oneMVoneS w fun _ _ => rfl  -- MSTORE
  · exact .of_eq ((checks_slotMV w).bind fun _ => (checks_slotZero w).bind fun _ =>  -- MIDENT
      (checks_tailF4 w).bind fun _ => (checks_slotD w).bind fun _ => .pure rfl) rfl rfl
  · exact checks_twoMV w fun _ _ => rfl  -- MCOPY
  · exact checks_threeMV w fun _ _ _ => rfl  -- MMUL
  · exact checks_twoMV w fun _ _ => rfl  -- MTRANS
  · exact checks_twoMV w fun _ _ => rfl  -- MINVERT
  · exact checks_threeMV w fun _ _ _ => rfl  -- MVMUL
  · exact .of_eq ((checks_slotMV w).bind fun _ => (checks_tailF4 w).bind fun _ =>  -- VLOAD
      (checks_slotD w).bind fun _ => .pure rfl) rfl rfl
  · exact checks_oneMVoneS w fun _ _ => rfl  -- VSTORE
  · exact checks_twoMV w fun _ _ => rfl  -- VCOPY
  · exact checks_threeMV w fun _ _ _ => rfl  -- VADD
  · exact checks_threeMV w fun _ _ _ => rfl  -- VSUB
  · exact checks_fourMV w fun _ _ _ _ => rfl  -- AFFENC
  · exact checks_fourMV w fun _ _ _ _ => rfl  -- AFFDEC
  · exact checks_blockRun w fun _ _ _ _ _ => rfl  -- ENCRYPT
  · exact checks_blockRun w fun _ _ _ _ _ => rfl  -- DECRYPT
  · exact .of_eq ((checks_slotMV w).bind fun _ => (checks_slotMV w).bind fun _ =>  -- RECOVER
      (checks_tailF4 w).bind fun _ => (checks_slotD w).bind fun _ => .pure rfl) rfl rfl

/-- In every row the mask holds the opcode byte and the pattern is the opcode alone. -/
theorem encodingTable_opcode_byte : ∀ row ∈ encodingTable,
    row.mask = (0xFF#8 ++ row.mask.setWidth 24 : BitVec 32) ∧
      row.pattern = (BitVec.ofNat 8 row.opcode ++ 0#24 : BitVec 32) := by
  decide

/-- For a word with the row's opcode, the row's test is about the bits below the opcode byte. -/
theorem legal_iff_of_opcode {w : Word} {row : EncodingRow} (hrow : row ∈ encodingTable)
    (hop : row.opcode = (fieldOpcode w).toNat) :
    row.legal w ↔ w &&& (0#8 ++ row.mask.setWidth 24 : BitVec 32) = 0 ∧
      ∀ lo ∈ row.dslots, dimOk (w.extractLsb' lo 4).toNat = true := by
  obtain ⟨hmask, hpattern⟩ := encodingTable_opcode_byte row hrow
  have hfield : fieldOpcode w = BitVec.ofNat 8 row.opcode := by rw [hop, BitVec.ofNat_toNat, BitVec.setWidth_eq]
  have hbits := and_mask_eq_pattern_iff (row.mask.setWidth 24) hfield
  rw [← hmask, ← hpattern] at hbits
  simp only [EncodingRow.legal, hbits, dimOk_iff]

/-- A word with the opcode of a row decodes exactly when it passes the row's test (30_encoding.md R95). -/
theorem decode_ok_iff_legal {w : Word} {row : EncodingRow} (hrow : row ∈ encodingTable)
    (hop : row.opcode = (fieldOpcode w).toNat) : (∃ i, decode w = .ok i) ↔ row.legal w := by
  rw [legal_iff_of_opcode hrow hop]
  exact (checks_decode w row hrow hop).1

/-- The reserved opcodes (30_encoding.md R98). -/
theorem reservedOpcode_iff {op : Nat} (h : op < 256) : (∀ row ∈ encodingTable, row.opcode ≠ op) ↔
    op = 0 ∨ (0x06 ≤ op ∧ op ≤ 0x0F) ∨ (0x18 ≤ op ∧ op ≤ 0x1F) ∨ (0x23 ≤ op ∧ op ≤ 0x2F) ∨
    (0x38 ≤ op ∧ op ≤ 0x3F) ∨ (0x45 ≤ op ∧ op ≤ 0x4F) ∨ (0x54 ≤ op ∧ op ≤ 0x5F) ∨ 0x61 ≤ op := by
  simp only [encodingTable, List.forall_mem_cons, List.not_mem_nil, IsEmpty.forall_iff, implies_true, and_true]
  omega

/-- An opcode of no row is refused as reserved. -/
theorem decode_of_reserved {w : Word} (h : ∀ row ∈ encodingTable, row.opcode ≠ (fieldOpcode w).toNat) :
    decode w = .error .reservedOpcode := by
  rw [reservedOpcode_iff (fieldOpcode w).isLt] at h
  unfold decode
  split
  case h_35 => rfl
  all_goals omega

/-- The opcode of a decoded instruction is the opcode field of its word. -/
theorem opcode_of_decode {w : Word} {i : Instr} (h : decode w = .ok i) : i.opcode = (fieldOpcode w).toNat := by
  by_cases hres : ∀ row ∈ encodingTable, row.opcode ≠ (fieldOpcode w).toNat
  · rw [decode_of_reserved hres] at h
    cases h
  · push Not at hres
    obtain ⟨row, hrow, hop⟩ := hres
    rw [← hop]
    exact (checks_decode w row hrow hop).2 i h

/-- A check that does not succeed is refused. -/
theorem exists_error_iff_not_ok {α : Type} (r : Except Illegal α) : (∃ e, r = .error e) ↔ ¬ ∃ a, r = .ok a := by
  cases r <;> simp

/-- What it is to fail a row's test: the mask and match, or a `d` slot. -/
theorem not_legal_iff (row : EncodingRow) (w : Word) : ¬ row.legal w ↔ w &&& row.mask ≠ row.pattern ∨
    ∃ lo ∈ row.dslots, (w.extractLsb' lo 4).toNat = 0 ∨ Config.nmax < (w.extractLsb' lo 4).toNat := by
  simp only [EncodingRow.legal, Classical.not_and_iff_not_or_not, not_forall, exists_prop, Nat.not_le, Nat.lt_one_iff]

/-- The three ways to be illegal (30_encoding.md R98 (a), (b), (c)). -/
theorem decode_error_iff (w : Word) : (∃ e, decode w = .error e) ↔
    (∀ row ∈ encodingTable, row.opcode ≠ (fieldOpcode w).toNat) ∨
    ∃ row ∈ encodingTable, row.opcode = (fieldOpcode w).toNat ∧
      (w &&& row.mask ≠ row.pattern ∨
        ∃ lo ∈ row.dslots, (w.extractLsb' lo 4).toNat = 0 ∨ Config.nmax < (w.extractLsb' lo 4).toNat) := by
  simp only [← not_legal_iff]
  constructor
  · intro herr
    by_contra! ⟨⟨row, hrow, hop⟩, hlegal⟩
    exact (exists_error_iff_not_ok _).1 herr ((decode_ok_iff_legal hrow hop).2 (hlegal row hrow hop))
  · rintro (hres | ⟨row, hrow, hop, hbad⟩)
    · exact ⟨_, decode_of_reserved hres⟩
    · rw [exists_error_iff_not_ok, decode_ok_iff_legal hrow hop]
      exact hbad

/-- NOP has one word. -/
theorem decode_eq_nop_iff (w : Word) : decode w = .ok .nop ↔ w = 0x01000000 := by
  constructor
  · intro h
    have hrow : (⟨0x01, 0xFFFFFFFF, 0x01000000, []⟩ : EncodingRow) ∈ encodingTable := List.mem_cons_self
    obtain ⟨hbits, -⟩ := (decode_ok_iff_legal hrow (opcode_of_decode h)).1 ⟨_, h⟩
    have hall : w &&& 0xFFFFFFFF = w := BitVec.and_allOnes
    exact hall.symm.trans hbits
  · rintro rfl
    rfl

namespace Machine

/-- Inside IMEM a fetch gives the word held at `pc` (20_memory.md R61). -/
theorem fetch_of_held {s : State} {w : Word} (hpc : s.pc.toNat < Config.imemWords) (hw : cellGet s.imem s.pc.toNat = some w) :
    fetch s = .ok w := by
  rw [fetch, if_neg (Nat.not_le.2 hpc), hw]

/-- The engine fetching an illegal word takes the fault IllegalInstruction with it (60_exceptions.md R269). -/
theorem engineStep_of_illegal {s : State} {w : Word} {e : Illegal} (hrun : s.runState = .running) (hstop : s.stopReq = false)
    (hfetch : fetch s = .ok w) (he : decode w = .error e) : engineStep s = .next (takeFault .illegalInstruction w s) := by
  have hinstr : fetchInstr s = raise .illegalInstruction w := by
    simp only [fetchInstr, hfetch, bind, Except.bind, he]
  rw [engineStep, if_neg (not_not.2 hrun), if_neg (by simp [hstop]), hinstr, raise]

end Machine

/-- Settles O4: the decoder's checks are the rows of the table, an opcode of no row is reserved, and the engine's fetch of a word
the decoder refuses ends in the fault. -/
theorem illegalWordsRaiseIllegalInstruction : Obligations.IllegalWordsRaiseIllegalInstruction :=
  ⟨decode_error_iff, fun _ => reservedOpcode_iff, ⟨.reservedOpcode, rfl⟩, ⟨.reservedOpcode, rfl⟩, decode_eq_nop_iff,
    fun _ _ _ hrun hstop hpc hw he => Machine.engineStep_of_illegal hrun hstop (Machine.fetch_of_held hpc hw) he⟩

/-- Settles O5, by evaluating the decoder on each word. -/
theorem workedEncodingsDecode : Obligations.WorkedEncodingsDecode := by
  unfold Obligations.WorkedEncodingsDecode
  decide

end Sys2Proof
end

section
/-! SUPPORT. The extended gcd told by its Euclidean recursion (40_modarith.md R120, R121), the inverse of a byte as the solution of
`u * r = 1` (R124), and what XGCD, MODINV and MODRED do in each of their cases (R122, R125, R127), with the statements on them. -/

namespace Sys2Proof.Machine

/-! ## The extended gcd (40_modarith.md R120, R121) -/

theorem xgcdLoop_succ_zero (fuel r0 : Nat) (x0 x1 y0 y1 : Int) : xgcdLoop (fuel + 1) r0 0 x0 x1 y0 y1 = (r0, x0, y0) := rfl

theorem xgcdLoop_succ_of_ne_zero {r1 : Nat} (h : r1 ≠ 0) (fuel r0 : Nat) (x0 x1 y0 y1 : Int) :
    xgcdLoop (fuel + 1) r0 r1 x0 x1 y0 y1 =
      xgcdLoop fuel r1 (r0 % r1) x1 (x0 - (r0 / r1 : Nat) * x1) y1 (y0 - (r0 / r1 : Nat) * y1) := by
  rw [Nat.mod_eq_sub_div_mul]
  exact if_neg h

theorem xgcd_zero (a : Nat) : xgcd a 0 = (a, 1, 0) := rfl

/-- The loop is linear in its coefficients: from any start it combines them by the Bezout pair of its remainders, and fuel above
the second remainder is enough. -/
theorem xgcdLoop_eq_combination {fuel r0 r1 : Nat} {x0 x1 y0 y1 : Int} (hfuel : r1 < fuel) :
    xgcdLoop fuel r0 r1 x0 x1 y0 y1 =
      ((xgcd r0 r1).1, x0 * (xgcd r0 r1).2.1 + x1 * (xgcd r0 r1).2.2, y0 * (xgcd r0 r1).2.1 + y1 * (xgcd r0 r1).2.2) := by
  induction r1 using Nat.strong_induction_on generalizing fuel r0 x0 x1 y0 y1 with
  | _ r1 ih =>
    obtain ⟨fuel, rfl⟩ := Nat.exists_eq_add_one_of_ne_zero (Nat.ne_zero_of_lt hfuel)
    by_cases h : r1 = 0
    · subst h
      simp [xgcdLoop_succ_zero, xgcd_zero]
    · have hmod : r0 % r1 < r1 := Nat.mod_lt r0 (Nat.pos_of_ne_zero h)
      rw [xgcd, xgcdLoop_succ_of_ne_zero h, xgcdLoop_succ_of_ne_zero h, ih _ hmod (by omega), ih _ hmod hmod]
      ext <;> dsimp only <;> ring

/-- One Euclidean step: the Bezout pair of `(a, m)` from that of `(m, a mod m)`. -/
theorem xgcd_of_pos (a : Nat) {m : Nat} (h : 0 < m) :
    xgcd a m = ((xgcd m (a % m)).1, (xgcd m (a % m)).2.2,
      (xgcd m (a % m)).2.1 - ((a / m : Nat) : Int) * (xgcd m (a % m)).2.2) := by
  conv_lhs => rw [xgcd, xgcdLoop_succ_of_ne_zero h.ne', xgcdLoop_eq_combination (Nat.mod_lt a h)]
  ext <;> dsimp only <;> ring

/-- The recursion gives the gcd, as it is Euclid's. -/
theorem xgcd_fst (a m : Nat) : (xgcd a m).1 = Nat.gcd a m := by
  induction m, a using Nat.gcd.induction with
  | H0 a => simp [xgcd_zero]
  | H1 m a hm ih => rw [xgcd_of_pos a hm, ih, Nat.gcd_comm m, ← Nat.gcd_rec, Nat.gcd_comm]

theorem xgcd_bezout (a m : Nat) : (a : Int) * (xgcd a m).2.1 + m * (xgcd a m).2.2 = (xgcd a m).1 := by
  induction m, a using Nat.gcd.induction with
  | H0 a => simp [xgcd_zero]
  | H1 m a hm ih =>
    have hdiv : (a : Int) = m * (a / m : Nat) + (a % m : Nat) := by exact_mod_cast (Nat.div_add_mod a m).symm
    rw [xgcd_of_pos a hm, ← ih]
    linear_combination (xgcd m (a % m)).2.2 * hdiv

/-- Each coefficient is at most the other operand, or 1: in a step with remainder `a mod m` not 0, the new second coefficient is at
most `a mod m + (a div m) m = a`. -/
theorem xgcd_natAbs_le (a m : Nat) : (xgcd a m).2.1.natAbs ≤ max 1 m ∧ (xgcd a m).2.2.natAbs ≤ max 1 a := by
  induction m, a using Nat.gcd.induction with
  | H0 a => simp [xgcd_zero]
  | H1 m a hm ih =>
    rw [xgcd_of_pos a hm]
    obtain ⟨hx, hy⟩ := ih
    rw [max_eq_right hm] at hy
    refine ⟨hy.trans (le_max_right 1 m), ?_⟩
    by_cases hmod : a % m = 0
    · simp [hmod, xgcd_zero]
    · rw [max_eq_right (Nat.pos_of_ne_zero hmod)] at hx
      calc ((xgcd m (a % m)).2.1 - (a / m : Nat) * (xgcd m (a % m)).2.2).natAbs
          ≤ (xgcd m (a % m)).2.1.natAbs + a / m * (xgcd m (a % m)).2.2.natAbs := by
            rw [← Int.natAbs_natCast (a / m), ← Int.natAbs_mul]
            exact Int.natAbs_sub_le _ _
        _ ≤ a % m + a / m * m := by gcongr
        _ = a := Nat.mod_add_div' a m
        _ ≤ max 1 a := le_max_right 1 a

/-- Settles O28, by induction along Euclid's recursion. -/
theorem xgcdGivesTheGcdAndBezoutCoefficients : Obligations.XgcdGivesTheGcdAndBezoutCoefficients :=
  fun a m => ⟨xgcd_fst a m, xgcd_bezout a m⟩

/-! ## XGCD (40_modarith.md R122) -/

/-- A value in the signed range is written exactly (00_scope.md R8). -/
theorem wrap32_toInt_of_fits {x : Int} (hlo : -2 ^ 31 ≤ x) (hhi : x < 2 ^ 31) : (wrap32 x).toInt = x := by
  rw [wrap32_toInt]
  exact Int.bmod_eq_of_le (by omega) (by omega)

/-- The results of XGCD on operands below 2^31 are written exactly (40_modarith.md R123). -/
theorem wrap32_xgcd_toInt {a m : Nat} (ha : a < 2 ^ 31) (hm : m < 2 ^ 31) :
    (wrap32 ((xgcd a m).1 : Int)).toInt = (xgcd a m).1 ∧ (wrap32 (xgcd a m).2.1).toInt = (xgcd a m).2.1 ∧
      (wrap32 (xgcd a m).2.2).toInt = (xgcd a m).2.2 := by
  obtain ⟨hx, hy⟩ := xgcd_natAbs_le a m
  have hg : (xgcd a m).1 < 2 ^ 31 := by
    rw [xgcd_fst]
    rcases Nat.eq_zero_or_pos m with rfl | hpos
    · simpa using ha
    · exact (Nat.gcd_le_right a hpos).trans_lt hm
  refine ⟨wrap32_toInt_of_fits ?_ ?_, wrap32_toInt_of_fits ?_ ?_, wrap32_toInt_of_fits ?_ ?_⟩ <;> omega

/-- A register that holds a natural number holds one below 2^31. -/
theorem lt_of_scalarInt_eq {s : State} {i : SReg} {n : Nat} (h : scalarInt s i = n) : n < 2 ^ 31 := by
  have hlt : scalarInt s i < 2 ^ 31 := (scalar s i).toInt_lt
  omega

theorem exec_xgcd (s : State) (sg sx sy sa sm : SReg) : exec (.xgcd sg sx sy sa sm) s = execXgcd sg sx sy sa sm s := rfl

/-- The check of the operands comes before any write. -/
theorem exec_xgcd_of_neg {s : State} {sa sm : SReg} (sg sx sy : SReg) (h : scalarInt s sa < 0 ∨ scalarInt s sm < 0) :
    exec (.xgcd sg sx sy sa sm) s = .next (takeFault .operandRange 0 s) := by
  have hcheck : (decide (0 ≤ scalarInt s sa) && decide (0 ≤ scalarInt s sm)) = false := by
    simpa [imp_iff_not_or] using h
  simp only [exec_xgcd, execXgcd, hcheck]
  rfl

theorem exec_xgcd_of_nonneg {s : State} {sa sm : SReg} {a m : Nat} (sg sx sy : SReg) (ha : scalarInt s sa = a)
    (hm : scalarInt s sm = m) :
    exec (.xgcd sg sx sy sa sm) s = .next { s with
      sregs := ((s.sregs.set sg (wrap32 ((xgcd a m).1 : Int))).set sx (wrap32 (xgcd a m).2.1)).set sy (wrap32 (xgcd a m).2.2)
      pc := s.pc + 1 } := by
  simp only [exec_xgcd, execXgcd, ha, hm, Int.natCast_nonneg, decide_true, Bool.and_self, Int.toNat_natCast]
  rfl

/-- What three writes in a row leave in a register file: the last write of each register stands. -/
theorem getElem_set_set_set (v : Vector Word 16) (i j k r : SReg) (g x y : Word) :
    (((v.set i g).set j x).set k y)[r] = if r = k then y else if r = j then x else if r = i then g else v[r] := by
  simp only [Fin.getElem_fin, Vector.getElem_set, Fin.ext_iff, eq_comm]

/-- Settles O31: the three writes are exact by the size of the results, and the last one to a register stands. -/
theorem xgcdInstructionWritesThreeRegisters : Obligations.XgcdInstructionWritesThreeRegisters := by
  intro s sg sx sy sa sm
  refine ⟨exec_xgcd_of_neg sg sx sy, fun a m ha hm => ⟨_, exec_xgcd_of_nonneg sg sx sy ha hm, ?_⟩⟩
  obtain ⟨hg, hx, hy⟩ := wrap32_xgcd_toInt (lt_of_scalarInt_eq ha) (lt_of_scalarInt_eq hm)
  refine ⟨?_, fun hxy => ?_, fun hgx hgy => ?_, fun r hrg hrx hry => ?_⟩
  · rw [getElem_set_set_set, if_pos rfl, hy]
  · rw [getElem_set_set_set, if_neg hxy, if_pos rfl, hx]
  · rw [getElem_set_set_set, if_neg hgy, if_neg hgx, if_pos rfl, hg]
  · rw [getElem_set_set_set, if_neg hry, if_neg hrx, if_neg hrg]

/-! ## The inverse of a byte (40_modarith.md R124) -/

theorem xgcd_modulus_fst_eq_one_iff (a : Nat) : (xgcd a 256).1 = 1 ↔ a % 2 = 1 := by
  rw [xgcd_fst, ← Nat.coprime_iff_gcd_eq_one, show 256 = 2 ^ 8 from rfl, Nat.coprime_pow_right_iff (by decide),
    Nat.coprime_two_right, Nat.odd_iff]

/-- Bezout's equation read modulo 256: the coefficient of `a` inverts it. -/
theorem ofNat_mul_xgcd_coefficient {a : Nat} (h : (xgcd a 256).1 = 1) :
    BitVec.ofNat 8 a * BitVec.ofInt 8 (xgcd a 256).2.1 = 1 := by
  have hbezout := congrArg (BitVec.ofInt 8) (xgcd_bezout a 256)
  rw [h, BitVec.ofInt_add, BitVec.ofInt_mul, BitVec.ofInt_mul] at hbezout
  simpa using hbezout

theorem modinv8_of_odd {u : Byte} (h : u.toNat % 2 = 1) : modinv8 u = some (BitVec.ofInt 8 (xgcd u.toNat 256).2.1) :=
  if_pos ((xgcd_modulus_fst_eq_one_iff u.toNat).2 h)

theorem modinv8_of_even {u : Byte} (h : u.toNat % 2 = 0) : modinv8 u = none :=
  if_neg fun hg => by simp [(xgcd_modulus_fst_eq_one_iff u.toNat).1 hg] at h

theorem mul_eq_one_iff_mod (u r : Byte) : u * r = 1 ↔ u.toNat * r.toNat % 256 = 1 := by
  rw [← BitVec.toNat_inj, BitVec.toNat_mul]
  rfl

theorem odd_of_mul_eq_one {u r : Byte} (h : u * r = 1) : u.toNat % 2 = 1 := by
  rw [mul_eq_one_iff_mod] at h
  have hprod : u.toNat * r.toNat % 2 = 1 := by omega
  exact Nat.odd_iff.1 (Nat.odd_mul.1 (Nat.odd_iff.2 hprod)).1

/-- `modinv8` is told by the equation alone, whichever Bezout pair `xgcd` returns: an inverse in a monoid is unique. -/
theorem modinv8_eq_some_iff (u r : Byte) : modinv8 u = some r ↔ u * r = 1 := by
  have inverse (h : u.toNat % 2 = 1) : u * BitVec.ofInt 8 (xgcd u.toNat 256).2.1 = 1 := by
    simpa using ofNat_mul_xgcd_coefficient ((xgcd_modulus_fst_eq_one_iff u.toNat).2 h)
  constructor
  · intro h
    rcases Nat.mod_two_eq_zero_or_one u.toNat with heven | hodd
    · simp [modinv8_of_even heven] at h
    · rw [modinv8_of_odd hodd, Option.some_inj] at h
      exact h ▸ inverse hodd
  · intro h
    have hodd := odd_of_mul_eq_one h
    rw [modinv8_of_odd hodd, left_inv_eq_right_inv ((mul_comm _ _).trans (inverse hodd)) h]

/-- An odd byte has an inverse. -/
theorem exists_mul_eq_one {u : Byte} (h : u.toNat % 2 = 1) : ∃ r : Byte, u * r = 1 :=
  ⟨_, (modinv8_eq_some_iff _ _).1 (modinv8_of_odd h)⟩

/-- Settles O32: `modinv8 u` is the one solution of `u * r = 1`. -/
theorem modularInverseIsUniqueForOddBytes : Obligations.ModularInverseIsUniqueForOddBytes := by
  intro u
  refine ⟨fun hodd => ?_, modinv8_of_even⟩
  obtain ⟨r, hr⟩ := exists_mul_eq_one hodd
  have hinv := (modinv8_eq_some_iff u r).2 hr
  refine ⟨r, hinv, (mul_eq_one_iff_mod u r).1 hr, fun r' hr' => ?_⟩
  have hinv' := (modinv8_eq_some_iff u r').2 ((mul_eq_one_iff_mod u r').2 hr')
  exact Option.some.inj (hinv'.symm.trans hinv)

/-! ## MODINV and MODRED (40_modarith.md R125, R127) -/

/-- A byte written to a scalar register is zero-extended. -/
theorem wrap32_byteValue (b : Byte) : wrap32 (byteValue b) = b.setWidth 32 := by
  rw [wrap32, byteValue, BitVec.ofInt_natCast, BitVec.ofNat_toNat]

/-- Reducing the register value of an integer reduces the integer: 256 divides 2^32. -/
theorem low8_wrap32 (x : Int) : low8 (wrap32 x) = BitVec.ofInt 8 x := by
  have hmod : ((low8 (wrap32 x)).toNat : Int) = x % 256 := by
    rw [low8_toNat, wrap32_toInt, Int.bmod_def]
    omega
  rw [← BitVec.toNat_inj, BitVec.toNat_ofInt]
  omega

theorem exec_modinv (s : State) (sd sa : SReg) : exec (.modinv sd sa) s = execModinv sd sa s := rfl

theorem exec_modinv_of_some {s : State} {sa : SReg} {r : Byte} (sd : SReg) (h : modinv8 (low8 (scalar s sa)) = some r) :
    exec (.modinv sd sa) s = .next { s with sregs := s.sregs.set sd (r.setWidth 32), pc := s.pc + 1 } := by
  rw [← wrap32_byteValue]
  simp only [exec_modinv, execModinv, h]
  rfl

theorem exec_modinv_of_none {s : State} {sa : SReg} (sd : SReg) (h : modinv8 (low8 (scalar s sa)) = none) :
    exec (.modinv sd sa) s = .next (takeFault .noInverse ((low8 (scalar s sa)).setWidth 32) s) := by
  simp only [exec_modinv, execModinv, h, finish_raise]

theorem exec_modred (s : State) (sd sa : SReg) :
    exec (.modred sd sa) s =
      .next { s with sregs := s.sregs.set sd ((low8 (scalar s sa)).setWidth 32), pc := s.pc + 1 } := by
  rw [← wrap32_byteValue]
  rfl

/-- Settles O33: `u` is `low8` of the source; being inverse to each other is symmetric. -/
theorem modinvInvertsOddValues : Obligations.ModinvInvertsOddValues := by
  intro s sd sa u hu
  have hlow : (low8 (scalar s sa)).toNat = u := by exact_mod_cast (low8_toNat (scalar s sa)).trans hu.symm
  subst hlow
  refine ⟨fun hodd => ?_, fun heven => ?_⟩
  · obtain ⟨r, hr⟩ := exists_mul_eq_one hodd
    have hback : modinv8 r = some (low8 (scalar s sa)) := (modinv8_eq_some_iff _ _).2 ((mul_comm _ _).trans hr)
    refine ⟨r.setWidth 32, ?_, ?_, ?_, exec_modinv_of_some sd ((modinv8_eq_some_iff _ _).2 hr)⟩
    · exact (BitVec.toNat_setWidth_of_le (by decide)).trans_lt r.isLt
    · rw [BitVec.toNat_setWidth_of_le (by decide), (mul_eq_one_iff_mod _ r).1 hr]
    · rw [BitVec.setWidth_setWidth_of_le r (by decide), BitVec.setWidth_eq, BitVec.ofNat_toNat, BitVec.setWidth_eq, hback]
  · rw [raises, exec_modinv_of_none sd (modinv8_of_even heven), BitVec.ofNat_toNat]

/-- Settles O34: MODRED writes `low8`, and `low8` of the Bezout coefficient solves the equation of the inverse. -/
theorem modredReducesAndAgreesWithModinv : Obligations.ModredReducesAndAgreesWithModinv := by
  refine ⟨fun s sd sa => ⟨_, ?_, exec_modred s sd sa⟩, fun a _ hg => ?_⟩
  · rw [BitVec.toNat_setWidth_of_le (by decide), low8_toNat]
    rfl
  · rw [low8_wrap32, modinv8_eq_some_iff]
    exact ofNat_mul_xgcd_coefficient hg

end Sys2Proof.Machine
end

section
/-! SUPPORT. How an instruction goes on after each operand read, check and access (one equation per case), and from these the
statements on the moves and products of matrices and vectors and on the checks of MINVERT (41_matrix.md R142 to R166). -/

namespace Sys2Proof.Machine

/-! ## One step of an instruction: an operand, a check, an access to DMEM -/

section Steps
variable {s : State} {α : Type}

/-- What a part of an instruction gives goes to the rest of it. -/
theorem finish_bind_of_ok {r : Res α} {a : α} (h : r = .ok a) (f : α → Res State) : finish s (r >>= f) = finish s (f a) := by
  rw [h, ok_bind]

/-- What a part of an instruction raises is the fault, whatever the rest would do. -/
theorem finish_bind_of_raise {r : Res α} {c : Cause} {info : Word} (h : r = .error (.raise c info)) (f : α → Res State) :
    finish s (r >>= f) = .next (takeFault c info s) := by
  rw [h]
  rfl

theorem finish_readMat_of_some {i : MReg} {A : Mat} (h : s.mregs[i] = some A) (f : Mat → Res State) :
    finish s (readMat s i >>= f) = finish s (f A) := finish_bind_of_ok (readMat_ok.2 h) f

theorem finish_readMat_of_none {i : MReg} (h : s.mregs[i] = none) (f : Mat → Res State) :
    finish s (readMat s i >>= f) = .next (takeFault .emptyOperand 0 s) := finish_bind_of_raise (readMat_error.2 ⟨h, rfl⟩) f

theorem finish_readVec_of_some {i : VReg} {x : Vec} (h : s.vregs[i] = some x) (f : Vec → Res State) :
    finish s (readVec s i >>= f) = finish s (f x) := finish_bind_of_ok (readVec_ok.2 h) f

theorem finish_readVec_of_none {i : VReg} (h : s.vregs[i] = none) (f : Vec → Res State) :
    finish s (readVec s i >>= f) = .next (takeFault .emptyOperand 0 s) := finish_bind_of_raise (readVec_error.2 ⟨h, rfl⟩) f

theorem finish_require_of_pos {p : Prop} [Decidable p] (h : p) (c : Cause) (info : Word) (f : Unit → Res State) :
    finish s (require (decide p) c info >>= f) = finish s (f ()) := finish_bind_of_ok (require_ok.2 (decide_eq_true h)) f

theorem finish_require_of_neg {p : Prop} [Decidable p] (h : ¬ p) (c : Cause) (info : Word) (f : Unit → Res State) :
    finish s (require (decide p) c info >>= f) = .next (takeFault c info s) :=
  finish_bind_of_raise (require_error.2 ⟨decide_eq_false h, rfl⟩) f

/-- Bytes of DMEM that are held are what a load goes on with, in address order (20_memory.md R64). -/
theorem finish_memRead_of_holds {addr : Int} {n : Nat} {B : Nat → Byte} (hr : inRange addr n)
    (hB : holds s.dmem addr.toNat n B) (f : List Byte → Res State) :
    finish s (memRead s addr n >>= f) = finish s (f (Vec.ofFn n B)) := by
  have hbytes : bytesAt s.dmem addr.toNat n = .ok (Vec.ofFn n B) :=
    bytesAt_ok.2 ⟨vec_ofFn_length n B, fun k hk => by
      simpa [Vec.ofFn] using hB k (by simpa using hk)⟩
  exact finish_bind_of_ok (memRead_ok.2 ⟨hr, hbytes⟩) f

theorem finish_memWrite_of_inRange {addr : Int} {bs : List Byte} (hr : inRange addr bs.length) (f : State → Res State) :
    finish s (memWrite s addr bs >>= f) = finish s (f { s with dmem := putBytes s.dmem addr.toNat bs }) :=
  finish_bind_of_ok (memWrite_ok.2 ⟨hr, rfl⟩) f

/-- A range that starts at a register's value and fails is reported by the register's pattern (60_exceptions.md R264). -/
theorem checkRange_scalarInt_of_not_inRange {sa : SReg} {n : Int} (hr : ¬ inRange (scalarInt s sa) n) :
    checkRange (scalarInt s sa) n = .error (.raise .accessFault s.sregs[sa]) :=
  checkRange_error.2 ⟨hr, by rw [wrap32_scalarInt, scalar]⟩

theorem finish_memRead_of_not_inRange {sa : SReg} {n : Nat} (hr : ¬ inRange (scalarInt s sa) n)
    (f : List Byte → Res State) :
    finish s (memRead s (scalarInt s sa) n >>= f) = .next (takeFault .accessFault s.sregs[sa] s) :=
  finish_bind_of_raise (res_bind_error.2 (.inl (checkRange_scalarInt_of_not_inRange hr))) f

theorem finish_memWrite_of_not_inRange {sa : SReg} {bs : List Byte} (hr : ¬ inRange (scalarInt s sa) bs.length)
    (f : State → Res State) :
    finish s (memWrite s (scalarInt s sa) bs >>= f) = .next (takeFault .accessFault s.sregs[sa] s) :=
  finish_bind_of_raise (res_bind_error.2 (.inl (checkRange_scalarInt_of_not_inRange hr))) f

end Steps

/-! ## Loads (41_matrix.md R142, R162) -/

theorem exec_mload_of_holds {s : State} {sa : SReg} {rows cols : Nat} {B : Nat → Byte} (md : MReg)
    (hr : inRange (scalarInt s sa) (rows * cols : Nat)) (hB : holds s.dmem (scalarInt s sa).toNat (rows * cols) B) :
    exec (.mload md sa rows cols) s = .next (advance (setMat s md
      (Mat.ofFn rows cols fun i j => (Vec.ofFn (rows * cols) B).get (i * cols + j)))) :=
  finish_memRead_of_holds hr hB _

theorem exec_vload_of_holds {s : State} {sa : SReg} {len : Nat} {B : Nat → Byte} (vd : VReg)
    (hr : inRange (scalarInt s sa) len) (hB : holds s.dmem (scalarInt s sa).toNat len B) :
    exec (.vload vd sa len) s = .next (advance (setVec s vd (Vec.ofFn len B))) :=
  finish_memRead_of_holds hr hB _

/-- A row-major position lies inside the matrix. -/
theorem rowMajor_lt {r c i j : Nat} (hi : i < r) (hj : j < c) : i * c + j < r * c :=
  calc i * c + j < (i + 1) * c := by rw [Nat.succ_mul]; omega
    _ ≤ r * c := Nat.mul_le_mul_right c hi

/-- Settles O35: the bytes read are the vector of the `B k`, and the matrix takes them in row-major order. -/
theorem matrixAndVectorLoads : Obligations.MatrixAndVectorLoads := by
  intro s md vd sa rows cols len
  refine ⟨fun B hr hB => ⟨_, exec_mload_of_holds md hr hB, rfl, rfl, ofFn_length _ _ _, fun i j hi hj => ?entry⟩,
    fun hr => ?mloadFault,
    fun B hr hB => ⟨_, exec_vload_of_holds vd hr hB, vec_ofFn_length len B, fun k hk => vec_ofFn_get hk⟩,
    fun hr => ?vloadFault⟩
  case entry => rw [ofFn_get hi hj, vec_ofFn_get (rowMajor_lt hi hj)]
  case mloadFault => exact finish_memRead_of_not_inRange hr _
  case vloadFault => exact finish_memRead_of_not_inRange hr _

/-! ## Stores (41_matrix.md R143, R163) -/

/-- MSTORE of a value stores its entries in row-major order. -/
theorem exec_mstore_of_some {s : State} {ms : MReg} {A : Mat} (sa : SReg) (h : s.mregs[ms] = some A) :
    exec (.mstore ms sa) s = finish s (memWrite s (scalarInt s sa) A.bytes >>= fun t => .ok (advance t)) :=
  finish_readMat_of_some h _

theorem exec_vstore_of_some {s : State} {vs : VReg} {x : Vec} (sa : SReg) (h : s.vregs[vs] = some x) :
    exec (.vstore vs sa) s = finish s (memWrite s (scalarInt s sa) x >>= fun t => .ok (advance t)) :=
  finish_readVec_of_some h _

/-- Byte `k` of a run just written is entry `k` of what was written. -/
theorem cellGet_putBytes_get (m : Memory) (a : Nat) {bs : List Byte} {k : Nat} (hk : k < bs.length) :
    cellGet (putBytes m a bs) (a + k) = some (Vec.get bs k) := by
  rw [cellGet_putBytes_inside hk, Vec.get, List.getD_eq_getElem]

/-- Settles O36: both store a run of bytes, `Mat.bytes` or the vector itself. -/
theorem matrixAndVectorStores : Obligations.MatrixAndVectorStores := by
  intro s ms vs sa
  constructor
  · cases h : s.mregs[ms] with
    | none => exact finish_readMat_of_none h _
    | some A =>
      have hexec := exec_mstore_of_some sa h
      dsimp only
      rw [← bytes_length A]
      split
      next hr =>
        refine ⟨_, hexec.trans (finish_memWrite_of_inRange hr _), fun i j hi hj => ?_,
          fun x hx => cellGet_putBytes_outside hx⟩
        rw [cellGet_putBytes_get _ _ (bytes_length A ▸ rowMajor_lt hi hj), Vec.get, bytes_getD hi hj]
      next hr => exact hexec.trans (finish_memWrite_of_not_inRange hr _)
  · cases h : s.vregs[vs] with
    | none => exact finish_readVec_of_none h _
    | some x =>
      have hexec := exec_vstore_of_some sa h
      dsimp only
      split
      next hr =>
        exact ⟨_, hexec.trans (finish_memWrite_of_inRange hr _), fun k hk => cellGet_putBytes_get _ _ hk,
          fun a ha => cellGet_putBytes_outside ha⟩
      next hr => exact hexec.trans (finish_memWrite_of_not_inRange hr _)

/-! ## Identity, copy and transpose (41_matrix.md R144, R145, R148) -/

theorem exec_mident (s : State) (md : MReg) (n : Nat) :
    exec (.mident md n) s = .next (advance (setMat s md (Mat.identity n))) := rfl

theorem exec_mcopy_of_some {s : State} {ms : MReg} {A : Mat} (md : MReg) (h : s.mregs[ms] = some A) :
    exec (.mcopy md ms) s = .next (advance (setMat s md A)) := finish_readMat_of_some h _

theorem exec_mtrans_of_some {s : State} {ms : MReg} {A : Mat} (md : MReg) (h : s.mregs[ms] = some A) :
    exec (.mtrans md ms) s = .next (advance (setMat s md A.transpose)) := finish_readMat_of_some h _

theorem identity_get {n i j : Nat} (hi : i < n) (hj : j < n) : (Mat.identity n).get i j = if i = j then 1 else 0 :=
  ofFn_get hi hj

theorem transpose_get {A : Mat} {i j : Nat} (hi : i < A.rows) (hj : j < A.cols) : A.transpose.get j i = A.get i j :=
  ofFn_get hj hi

/-- Transposing twice returns the original (41_matrix.md R148). -/
theorem transpose_transpose {A : Mat} (h : A.entries.length = A.rows * A.cols) : A.transpose.transpose = A :=
  mat_ext rfl rfl (ofFn_length _ _ _) h fun _ _ hi hj =>
    (transpose_get (A := A.transpose) hj hi).trans (transpose_get (A := A) hi hj)

/-- Settles O37: each result is an `ofFn`, told by its shape and its entries. -/
theorem identityCopyAndTranspose : Obligations.IdentityCopyAndTranspose := by
  intro s md ms n
  refine ⟨⟨_, exec_mident s md n, rfl, rfl, ofFn_length _ _ _, fun i j => identity_get⟩, ?_⟩
  cases h : s.mregs[ms] with
  | none => exact ⟨finish_readMat_of_none h _, finish_readMat_of_none h _⟩
  | some A =>
    refine ⟨exec_mcopy_of_some md h, _, exec_mtrans_of_some md h, rfl, rfl, ofFn_length _ _ _,
      fun i j => transpose_get, fun hA u hu => ?_⟩
    rw [exec_mtrans_of_some md hu, transpose_transpose hA]
    rfl

/-! ## Products (41_matrix.md R146, R160) -/

theorem mul_get {A B : Mat} {i j : Nat} (hi : i < A.rows) (hj : j < B.cols) :
    (A.mul B).get i j = reduce (dot A.cols (fun t => A.get i t) (fun t => B.get t j)) := ofFn_get hi hj

theorem mul_entries_length (A B : Mat) : (A.mul B).entries.length = A.rows * B.cols := ofFn_length _ _ _

theorem mulVec_get {A : Mat} {x : Vec} {i : Nat} (hi : i < A.rows) :
    Vec.get (A.mulVec x) i = reduce (dot A.cols (fun t => A.get i t) (fun t => x.get t)) := vec_ofFn_get hi

/-- A reduced sum of products is the integer sum, reduced once (41_matrix.md R147). -/
theorem reduce_dot_toNat (k : Nat) (f g : Nat → Byte) :
    (reduce (dot k f g)).toNat = (∑ t ∈ Finset.range k, (f t).toNat * (g t).toNat) % 256 := by
  rw [reduce_toNat, dot_eq]

theorem exec_mmul_of_some {s : State} {ma mb : MReg} {A B : Mat} (md : MReg) (ha : s.mregs[ma] = some A)
    (hb : s.mregs[mb] = some B) : exec (.mmul md ma mb) s = finish s (do
      require (decide (A.cols = B.rows)) .dimensionMismatch 0
      .ok (advance (setMat s md (A.mul B)))) :=
  (finish_readMat_of_some ha _).trans (finish_readMat_of_some hb _)

theorem exec_mvmul_of_some {s : State} {ma : MReg} {vx : VReg} {A : Mat} {x : Vec} (vd : VReg) (ha : s.mregs[ma] = some A)
    (hx : s.vregs[vx] = some x) : exec (.mvmul vd ma vx) s = finish s (do
      require (decide (A.cols = x.length)) .dimensionMismatch 0
      .ok (advance (setVec s vd (A.mulVec x)))) :=
  (finish_readMat_of_some ha _).trans (finish_readVec_of_some hx _)

/-- Settles O38: two operands, then the check of their shapes, then the product. -/
theorem matrixProducts : Obligations.MatrixProducts := by
  intro s md ma mb vd vx
  cases ha : s.mregs[ma] with
  | none => exact ⟨finish_readMat_of_none ha _, finish_readMat_of_none ha _⟩
  | some A =>
    constructor
    · cases hb : s.mregs[mb] with
      | none => exact (finish_readMat_of_some ha _).trans (finish_readMat_of_none hb _)
      | some B =>
        have hexec := exec_mmul_of_some md ha hb
        dsimp only
        split
        next h =>
          refine ⟨_, hexec.trans (finish_require_of_pos h _ _ _), rfl, rfl, mul_entries_length A B, fun i j hi hj => ?_⟩
          rw [mul_get hi hj, reduce_dot_toNat]
        next h => exact hexec.trans (finish_require_of_neg h _ _ _)
    · cases hx : s.vregs[vx] with
      | none => exact (finish_readMat_of_some ha _).trans (finish_readVec_of_none hx _)
      | some x =>
        have hexec := exec_mvmul_of_some vd ha hx
        dsimp only
        split
        next h =>
          refine ⟨_, hexec.trans (finish_require_of_pos h _ _ _), mulVec_length A x, fun i hi => ?_⟩
          rw [mulVec_get hi, reduce_dot_toNat]
        next h => exact hexec.trans (finish_require_of_neg h _ _ _)

/-! ## Vectors (41_matrix.md R164 to R166) -/

theorem add_get {x y : Vec} {k : Nat} (hk : k < x.length) :
    Vec.get (x.add y) k = reduce ((x.get k).toNat + (y.get k).toNat) := vec_ofFn_get hk

theorem sub_get {x y : Vec} {k : Nat} (hk : k < x.length) : Vec.get (x.sub y) k = subMod (x.get k) (y.get k) :=
  vec_ofFn_get hk

/-- `subMod` is the floor remainder of the difference (00_scope.md R7). -/
theorem subMod_toNat (a b : Byte) : ((subMod a b).toNat : Int) = ((a.toNat : Int) - b.toNat) % 256 := by
  rw [subMod, BitVec.toNat_ofInt]
  exact Int.toNat_of_nonneg (Int.emod_nonneg _ (by decide))

theorem exec_vadd_of_some {s : State} {va vb : VReg} {x y : Vec} (vd : VReg) (ha : s.vregs[va] = some x)
    (hb : s.vregs[vb] = some y) : exec (.vadd vd va vb) s = finish s (do
      require (decide (x.length = y.length)) .dimensionMismatch 0
      .ok (advance (setVec s vd (x.add y)))) :=
  (finish_readVec_of_some ha _).trans (finish_readVec_of_some hb _)

theorem exec_vsub_of_some {s : State} {va vb : VReg} {x y : Vec} (vd : VReg) (ha : s.vregs[va] = some x)
    (hb : s.vregs[vb] = some y) : exec (.vsub vd va vb) s = finish s (do
      require (decide (x.length = y.length)) .dimensionMismatch 0
      .ok (advance (setVec s vd (x.sub y)))) :=
  (finish_readVec_of_some ha _).trans (finish_readVec_of_some hb _)

/-- Settles O43: the operands, then the check of the lengths, then the sum or the difference entry by entry. -/
theorem vectorCopySumAndDifference : Obligations.VectorCopySumAndDifference := by
  intro s vd va vb
  cases ha : s.vregs[va] with
  | none => exact ⟨finish_readVec_of_none ha _, finish_readVec_of_none ha _, finish_readVec_of_none ha _⟩
  | some x =>
    refine ⟨finish_readVec_of_some ha _, ?_⟩
    cases hb : s.vregs[vb] with
    | none => exact ⟨(finish_readVec_of_some ha _).trans (finish_readVec_of_none hb _),
        (finish_readVec_of_some ha _).trans (finish_readVec_of_none hb _)⟩
    | some y =>
      have hadd := exec_vadd_of_some vd ha hb
      have hsub := exec_vsub_of_some vd ha hb
      dsimp only
      split
      next h =>
        refine ⟨⟨_, hadd.trans (finish_require_of_pos h _ _ _), add_length x y, fun k hk => ?_⟩,
          ⟨_, hsub.trans (finish_require_of_pos h _ _ _), sub_length x y, fun k hk => ?_⟩⟩
        · rw [add_get hk, reduce_toNat]
        · rw [sub_get hk, subMod_toNat]
      next h => exact ⟨hadd.trans (finish_require_of_neg h _ _ _), hsub.trans (finish_require_of_neg h _ _ _)⟩

/-! ## The checks of MINVERT (41_matrix.md R150, R155, R156) -/

theorem exec_minvert_of_square {s : State} {ms : MReg} {A : Mat} (md : MReg) (h : s.mregs[ms] = some A)
    (hsq : A.rows = A.cols) :
    exec (.minvert md ms) s = finish s (invertOrRaise A >>= fun R => .ok (advance (setMat s md R))) :=
  (finish_readMat_of_some h _).trans (finish_require_of_pos hsq _ _ _)

theorem invertOrRaise_eq (A : Mat) :
    invertOrRaise A = (invert A).mapError fun col => .raise .singularMatrix (BitVec.ofNat 32 col) := by
  unfold invertOrRaise
  cases invert A with
  | ok R => rfl
  | error col => rfl

theorem exec_minvert_of_ok {s : State} {ms : MReg} {A R : Mat} (md : MReg) (h : s.mregs[ms] = some A)
    (hsq : A.rows = A.cols) (hR : invert A = .ok R) : exec (.minvert md ms) s = .next (advance (setMat s md R)) := by
  rw [exec_minvert_of_square md h hsq, invertOrRaise_eq, hR]
  rfl

theorem exec_minvert_of_error {s : State} {ms : MReg} {A : Mat} {col : Nat} (md : MReg) (h : s.mregs[ms] = some A)
    (hsq : A.rows = A.cols) (hcol : invert A = .error col) :
    exec (.minvert md ms) s = .next (takeFault .singularMatrix (BitVec.ofNat 32 col) s) := by
  rw [exec_minvert_of_square md h hsq, invertOrRaise_eq, hcol]
  rfl

/-- Settles O39: an empty source, a source that is not square, and the two outcomes of `invert`. -/
theorem minvertChecksThenInverts : Obligations.MinvertChecksThenInverts := by
  intro s md ms
  cases h : s.mregs[ms] with
  | none => exact finish_readMat_of_none h _
  | some A =>
    dsimp only
    split
    next hsq =>
      cases hA : invert A with
      | ok R => exact exec_minvert_of_ok md h hsq hA
      | error col => exact exec_minvert_of_error md h hsq hA
    next hsq => exact (finish_readMat_of_some h _).trans (finish_require_of_neg hsq _ _ _)

end Sys2Proof.Machine
end

section
/-! SUPPORT. Gauss-Jordan inversion modulo 256 (41_matrix.md R151 to R154). A row of the augmented matrix is read as a linear form,
and a step of the inversion as an exchange of the equations "every form is 0" for others with no solution but theirs. When all
columns are done, the right half solves `A X = I`; when a column stops, its even entries times 128 are a solution of `A x = 0`
other than 0, so the determinant is even. -/

namespace Sys2Proof.Machine

/-! ## The operations of the model in the ring of bytes -/

theorem reduce_eq_natCast (v : Nat) : reduce v = (v : Byte) := rfl

theorem ofInt_eq_intCast (v : Int) : BitVec.ofInt 8 v = (v : Byte) := rfl

theorem natCast_toNat (u : Byte) : (u.toNat : Byte) = u :=
  (BitVec.ofNat_toNat 8 u).trans (BitVec.setWidth_eq u)

theorem reduce_mul (u v : Byte) : reduce (u.toNat * v.toNat) = u * v := by
  rw [reduce_eq_natCast, Nat.cast_mul, natCast_toNat, natCast_toNat]

theorem ofInt_sub_mul (u f v : Byte) : BitVec.ofInt 8 ((u.toNat : Int) - (f.toNat : Int) * (v.toNat : Int)) = u - f * v := by
  rw [ofInt_eq_intCast, Int.cast_sub, Int.cast_mul, Int.cast_natCast, Int.cast_natCast, Int.cast_natCast, natCast_toNat,
    natCast_toNat, natCast_toNat]

theorem reduce_dot (k : Nat) (f g : Nat → Byte) : reduce (dot k f g) = ∑ t ∈ Finset.range k, f t * g t := by
  rw [dot_eq, reduce_eq_natCast, Nat.cast_sum]
  exact Finset.sum_congr rfl fun t _ => reduce_mul (f t) (g t)

/-! ## Units modulo 256 (00_scope.md R7, 41_matrix.md R152) -/

/-- The unit test of the pivot search asks for an odd entry. -/
theorem isUnitByte_iff_odd (u : Byte) : isUnitByte u = true ↔ u.toNat % 2 = 1 := by
  rw [isUnitByte, decide_eq_true_iff, ← xgcd_fst]
  exact xgcd_modulus_fst_eq_one_iff u.toNat

theorem isUnit_iff_odd (u : Byte) : IsUnit u ↔ u.toNat % 2 = 1 := by
  rw [isUnit_iff_exists_inv]
  exact ⟨fun ⟨_, h⟩ => odd_of_mul_eq_one h, exists_mul_eq_one⟩

theorem isUnit_intCast_iff_odd (d : Int) : IsUnit (d : Byte) ↔ d % 2 = 1 := by
  rw [isUnit_iff_odd, ← ofInt_eq_intCast, BitVec.toNat_ofInt]
  omega

/-- Half of the modulus annihilates the even bytes. -/
theorem mul_half_of_even {u : Byte} (h : u.toNat % 2 = 0) : u * 128 = 0 := by
  apply BitVec.eq_of_toNat_eq
  rw [BitVec.toNat_mul]
  change u.toNat * 128 % 256 = 0
  omega

/-! ## Square matrices of the model as matrices over the ring of bytes -/

/-- The entries of the leading square of order `n`. -/
noncomputable def Mat.toMatrix (A : Mat) (n : Nat) : Matrix (Fin n) (Fin n) Byte := Matrix.of fun i j => A.get i j

theorem toMatrix_apply (A : Mat) {n : Nat} (i j : Fin n) : A.toMatrix n i j = A.get i j := rfl

theorem toMatrix_mul {A B : Mat} {n : Nat} (hr : A.rows = n) (hc : A.cols = n) (hB : B.cols = n) :
    (A.mul B).toMatrix n = A.toMatrix n * B.toMatrix n := by
  ext i j : 1
  rw [toMatrix_apply, mul_get (hr ▸ i.isLt) (hB ▸ j.isLt), reduce_dot, hc, Matrix.mul_apply,
    ← Fin.sum_univ_eq_sum_range]
  rfl

theorem toMatrix_identity (n : Nat) : (Mat.identity n).toMatrix n = 1 := by
  ext i j : 1
  rw [toMatrix_apply, identity_get i.isLt j.isLt, Matrix.one_apply]
  simp only [Fin.ext_iff]

/-- A square matrix with all its entries listed is told by its entries. -/
theorem eq_of_toMatrix_eq {A B : Mat} {n : Nat} (hAr : A.rows = n) (hAc : A.cols = n) (hA : A.entries.length = n * n)
    (hBr : B.rows = n) (hBc : B.cols = n) (hB : B.entries.length = n * n) (h : A.toMatrix n = B.toMatrix n) : A = B := by
  refine mat_ext (hAr.trans hBr.symm) (hAc.trans hBc.symm) (by rw [hA, hAr, hAc]) (by rw [hB, hBr, hBc]) fun i j hi hj => ?_
  exact congrFun (congrFun h ⟨i, hAr ▸ hi⟩) ⟨j, hAc ▸ hj⟩

theorem mul_eq_identity_iff {A B : Mat} {n : Nat} (hr : A.rows = n) (hc : A.cols = n) (hB : B.cols = n) :
    A.mul B = Mat.identity n ↔ A.toMatrix n * B.toMatrix n = 1 := by
  rw [← toMatrix_mul hr hc hB, ← toMatrix_identity]
  refine ⟨fun h => by rw [h], eq_of_toMatrix_eq hr hB ?_ rfl rfl (ofFn_length _ _ _)⟩
  rw [mul_entries_length, hr, hB]

/-- The determinant modulo 256 is that over the integers, reduced. -/
theorem det_toMatrix (A : Mat) (n : Nat) : (A.toMatrix n).det =
    ((Matrix.det (Matrix.of fun (i j : Fin n) => ((A.get i.val j.val).toNat : Int)) : Int) : Byte) := by
  refine Eq.trans (congrArg Matrix.det ?_) (RingHom.map_det (Int.castRingHom Byte) _).symm
  ext i j : 1
  exact ((Int.cast_natCast _).trans (natCast_toNat _)).symm

/-! ## The rows of a matrix as equations -/

/-- Row `i` of `W` as a linear form, at `z`. -/
noncomputable def rowValue (W : Mat) (z : Nat → Byte) (i : Nat) : Byte := ∑ j ∈ Finset.range W.cols, W.get i j * z j

/-- `z` solves the equations "row `i` of `W` is 0". -/
def Solves (W : Mat) (z : Nat → Byte) : Prop := ∀ i, i < W.rows → rowValue W z i = 0

/-- The value of a row whose entries are known. -/
theorem rowValue_eq_sum {W : Mat} {n i : Nat} {f z : Nat → Byte} (hn : W.cols = n) (h : ∀ j, j < n → W.get i j = f j) :
    rowValue W z i = ∑ j ∈ Finset.range n, f j * z j := by
  subst hn
  exact Finset.sum_congr rfl fun j hj => by rw [h j (Finset.mem_range.1 hj)]

section RowOperations
variable {W : Mat} {z : Nat → Byte} {i r c : Nat}

theorem swapRows_get {j : Nat} (hi : i < W.rows) (hj : j < W.cols) :
    (swapRows W r c).get i j = if i = r then W.get c j else if i = c then W.get r j else W.get i j := ofFn_get hi hj

theorem scaleRow_get {j : Nat} (hi : i < W.rows) (hj : j < W.cols) (p : Byte) :
    (scaleRow W c p).get i j = if i = c then W.get i j * p else W.get i j := by
  rw [scaleRow, ofFn_get hi hj, reduce_mul]

theorem eliminate_get {j : Nat} (hi : i < W.rows) (hj : j < W.cols) :
    (eliminate W c).get i j = if i = c then W.get i j else W.get i j - W.get i c * W.get c j := by
  rw [eliminate, ofFn_get hi hj, ofInt_sub_mul]

theorem rowValue_swapRows (hi : i < W.rows) : rowValue (swapRows W r c) z i =
    if i = r then rowValue W z c else if i = c then rowValue W z r else rowValue W z i := by
  rw [rowValue_eq_sum (W := swapRows W r c) rfl fun j hj => swapRows_get hi hj]
  split_ifs <;> rfl

theorem rowValue_scaleRow (hi : i < W.rows) (p : Byte) : rowValue (scaleRow W c p) z i =
    if i = c then p * rowValue W z i else rowValue W z i := by
  rw [rowValue_eq_sum (W := scaleRow W c p) rfl fun j hj => scaleRow_get hi hj p]
  split_ifs
  · calc ∑ j ∈ Finset.range W.cols, W.get i j * p * z j
        = ∑ j ∈ Finset.range W.cols, p * (W.get i j * z j) :=
          Finset.sum_congr rfl fun j _ => by rw [mul_comm (W.get i j) p, mul_assoc]
      _ = p * rowValue W z i := (Finset.mul_sum _ _ _).symm
  · rfl

theorem rowValue_eliminate (hi : i < W.rows) : rowValue (eliminate W c) z i =
    if i = c then rowValue W z i else rowValue W z i - W.get i c * rowValue W z c := by
  rw [rowValue_eq_sum (W := eliminate W c) rfl fun j hj => eliminate_get hi hj]
  split_ifs
  · rfl
  · calc ∑ j ∈ Finset.range W.cols, (W.get i j - W.get i c * W.get c j) * z j
        = ∑ j ∈ Finset.range W.cols, (W.get i j * z j - W.get i c * (W.get c j * z j)) :=
          Finset.sum_congr rfl fun j _ => by rw [sub_mul, mul_assoc]
      _ = rowValue W z i - W.get i c * rowValue W z c := by
          rw [Finset.sum_sub_distrib, ← Finset.mul_sum]
          rfl

theorem solves_of_swapRows (hr : r < W.rows) (hc : c < W.rows) (h : Solves (swapRows W r c) z) : Solves W z := by
  intro i hi
  have hri := h r hr
  have hci := h c hc
  have hii := h i hi
  rw [rowValue_swapRows hr, if_pos rfl] at hri
  rw [rowValue_swapRows hc, if_pos rfl] at hci
  rw [rowValue_swapRows hi] at hii
  by_cases hic : i = c
  · rwa [hic]
  · rw [if_neg hic] at hii
    split at hii
    next hir => rwa [if_neg (hir ▸ Ne.symm hic), ← hir] at hci
    next => exact hii

theorem solves_of_scaleRow {p q : Byte} (hq : q * p = 1) (h : Solves (scaleRow W c p) z) : Solves W z := by
  intro i hi
  have hii := h i hi
  rw [rowValue_scaleRow hi] at hii
  split at hii
  · calc rowValue W z i = q * (p * rowValue W z i) := by rw [← mul_assoc, hq, one_mul]
      _ = 0 := by rw [hii, mul_zero]
  · exact hii

theorem solves_of_eliminate (hc : c < W.rows) (h : Solves (eliminate W c) z) : Solves W z := by
  have hci := h c hc
  rw [rowValue_eliminate hc, if_pos rfl] at hci
  intro i hi
  have hii := h i hi
  rw [rowValue_eliminate hi, hci, mul_zero, sub_zero, ite_self] at hii
  exact hii

end RowOperations

/-- Row `i` of `[A | I]` is row `i` of `A` plus one more entry (step 1). -/
theorem rowValue_augment {A : Mat} {i : Nat} (hi : i < A.rows) (z : Nat → Byte) :
    rowValue (augment A) z i = (∑ j ∈ Finset.range A.rows, A.get i j * z j) + z (A.rows + i) := by
  rw [rowValue_eq_sum (augment_cols A) fun j hj => ofFn_get hi hj, two_mul, Finset.sum_range_add]
  congr 1
  · exact Finset.sum_congr rfl fun j hj => by rw [if_pos (Finset.mem_range.1 hj)]
  · rw [Finset.sum_eq_single_of_mem i (Finset.mem_range.2 hi)]
    · rw [if_neg (by omega), if_pos (by omega), one_mul]
    · intro j _ hj
      rw [if_neg (by omega), if_neg (by omega), zero_mul]

/-! ## The pivot search (41_matrix.md R152) -/

theorem pivotFrom_of_odd {W : Mat} {col r : Nat} (h : (W.get r col).toNat % 2 = 1) (k : Nat) :
    pivotFrom W col (k + 1) r = some r := if_pos ((isUnitByte_iff_odd _).2 h)

theorem pivotFrom_of_even {W : Mat} {col r : Nat} (h : (W.get r col).toNat % 2 = 0) (k : Nat) :
    pivotFrom W col (k + 1) r = pivotFrom W col k (r + 1) :=
  if_neg fun hu => absurd ((isUnitByte_iff_odd _).1 hu) (by omega)

/-- A pivot found is an odd entry of the range. -/
theorem odd_of_pivotFrom_eq_some {W : Mat} {col k r p : Nat} (h : pivotFrom W col k r = some p) :
    r ≤ p ∧ p < r + k ∧ (W.get p col).toNat % 2 = 1 := by
  induction k generalizing r with
  | zero => cases h
  | succ k ih =>
    rcases Nat.mod_two_eq_zero_or_one (W.get r col).toNat with heven | hodd
    · rw [pivotFrom_of_even heven] at h
      obtain ⟨hle, hlt, hp⟩ := ih h
      exact ⟨by omega, by omega, hp⟩
    · rw [pivotFrom_of_odd hodd] at h
      cases h
      exact ⟨le_rfl, by omega, hodd⟩

/-- When no pivot is found every entry of the range is even. -/
theorem even_of_pivotFrom_eq_none {W : Mat} {col k r q : Nat} (h : pivotFrom W col k r = none) (hr : r ≤ q) (hq : q < r + k) :
    (W.get q col).toNat % 2 = 0 := by
  induction k generalizing r with
  | zero => omega
  | succ k ih =>
    rcases Nat.mod_two_eq_zero_or_one (W.get r col).toNat with heven | hodd
    · rw [pivotFrom_of_even heven] at h
      rcases hr.eq_or_lt with rfl | hlt
      · exact heven
      · exact ih h hlt (by omega)
    · rw [pivotFrom_of_odd hodd] at h
      cases h

/-! ## One column (41_matrix.md R151, steps 2 to 4) -/

/-- The entry the swap brings to row `c` is the one found in row `r`. -/
theorem swapRows_get_pivot {W : Mat} {r c : Nat} (hrow : c < W.rows) (hcol : c < W.cols) :
    (swapRows W r c).get c c = W.get r c := by
  rw [swapRows_get hrow hcol, if_pos rfl]
  split
  next h => rw [← h]
  next => rfl

theorem invertColumn_eq_bind (W : Mat) (c : Nat) : invertColumn W c =
    (pivotFrom W c (W.rows - c) c).bind fun r =>
      (modinv8 ((swapRows W r c).get c c)).map fun p => eliminate (scaleRow (swapRows W r c) c p) c := by
  unfold invertColumn
  cases pivotFrom W c (W.rows - c) c with
  | none => rfl
  | some r =>
    dsimp only [Option.bind_some]
    cases modinv8 ((swapRows W r c).get c c) with
    | none => rfl
    | some p => rfl

/-- What a column does that has a pivot: the pivot is an odd entry at or below the diagonal, and `p` its inverse. -/
theorem invertColumn_eq_some {W W' : Mat} {c : Nat} (hrow : c < W.rows) (hcol : c < W.cols)
    (h : invertColumn W c = some W') :
    ∃ r p, c ≤ r ∧ r < W.rows ∧ W.get r c * p = 1 ∧ W' = eliminate (scaleRow (swapRows W r c) c p) c := by
  rw [invertColumn_eq_bind, Option.bind_eq_some_iff] at h
  obtain ⟨r, hr, h⟩ := h
  rw [swapRows_get_pivot hrow hcol, Option.map_eq_some_iff] at h
  obtain ⟨p, hp, rfl⟩ := h
  obtain ⟨hle, hlt, -⟩ := odd_of_pivotFrom_eq_some hr
  exact ⟨r, p, hle, by omega, (modinv8_eq_some_iff _ p).1 hp, rfl⟩

/-- A column stops only when it has no odd entry at or below the diagonal (41_matrix.md R153). -/
theorem even_of_invertColumn_eq_none {W : Mat} {c i : Nat} (hrow : c < W.rows) (hcol : c < W.cols)
    (h : invertColumn W c = none) (hci : c ≤ i) (hi : i < W.rows) : (W.get i c).toNat % 2 = 0 := by
  rw [invertColumn_eq_bind, Option.bind_eq_none_iff] at h
  cases hpivot : pivotFrom W c (W.rows - c) c with
  | none => exact even_of_pivotFrom_eq_none hpivot hci (by omega)
  | some r =>
    obtain ⟨-, -, hodd⟩ := odd_of_pivotFrom_eq_some hpivot
    have hnone := h r hpivot
    rw [swapRows_get_pivot hrow hcol, modinv8_of_odd hodd] at hnone
    cases hnone

/-- The first `c` columns of `W` are those of the identity. -/
def UnitColumns (W : Mat) (c : Nat) : Prop := ∀ i j, i < W.rows → j < c → W.get i j = if i = j then 1 else 0

theorem UnitColumns.get_eq_zero {W : Mat} {c i j : Nat} (h : UnitColumns W c) (hci : c ≤ i) (hi : i < W.rows) (hj : j < c) :
    W.get i j = 0 := by
  rw [h i j hi hj, if_neg (by omega)]

/-- To the left the rows exchanged are both 0. -/
theorem unitColumns_swapRows {W : Mat} {r c : Nat} (h : UnitColumns W c) (hcol : c < W.cols) (hcr : c ≤ r)
    (hr : r < W.rows) : UnitColumns (swapRows W r c) c := by
  intro i j hi hj
  change i < W.rows at hi
  have hcj : W.get c j = 0 := h.get_eq_zero le_rfl (by omega) hj
  have hrj : W.get r j = 0 := h.get_eq_zero hcr hr hj
  rw [swapRows_get hi (by omega), hcj, hrj]
  split
  next => rw [if_neg (by omega)]
  next =>
    split
    next => rw [if_neg (by omega)]
    next => exact h i j hi hj

/-- To the left the row scaled is 0. -/
theorem unitColumns_scaleRow {W : Mat} {c : Nat} (h : UnitColumns W c) (hcol : c < W.cols) (p : Byte) :
    UnitColumns (scaleRow W c p) c := by
  intro i j hi hj
  change i < W.rows at hi
  rw [scaleRow_get hi (by omega), ← h i j hi hj]
  split
  next hic => rw [h.get_eq_zero hic.ge hi hj, zero_mul]
  next => rfl

/-- To the left the row subtracted is 0; in the column itself the pivot 1 clears every other entry. -/
theorem unitColumns_eliminate {W : Mat} {c : Nat} (h : UnitColumns W c) (hrow : c < W.rows) (hcol : c < W.cols)
    (hpivot : W.get c c = 1) : UnitColumns (eliminate W c) (c + 1) := by
  intro i j hi hj
  change i < W.rows at hi
  rw [eliminate_get hi (by omega)]
  rcases (Nat.lt_succ_iff.1 hj).eq_or_lt with rfl | hlt
  · split
    next hij => rw [hij, hpivot]
    next => rw [hpivot, mul_one, sub_self]
  · rw [h.get_eq_zero le_rfl hrow hlt, mul_zero, sub_zero, ite_self, h i j hi hlt]

/-! ## All columns -/

/-- Where the inversion of `A` stands before column `c`: the shape, the columns done, and no solution but those of `[A | I]`. -/
def Reduced (A W : Mat) (c : Nat) : Prop :=
  W.rows = A.rows ∧ W.cols = 2 * A.rows ∧ UnitColumns W c ∧ ∀ z, Solves W z → Solves (augment A) z

theorem Reduced.solves {A W : Mat} {c : Nat} {z : Nat → Byte} (h : Reduced A W c) (hz : Solves W z) :
    Solves (Machine.augment A) z := by
  obtain ⟨-, -, -, hsolves⟩ := h
  exact hsolves z hz

theorem Reduced.augment (A : Mat) : Reduced A (augment A) 0 :=
  ⟨rfl, rfl, fun _ _ _ hj => absurd hj (Nat.not_lt_zero _), fun _ => id⟩

theorem Reduced.invertColumn {A W W' : Mat} {c : Nat} (h : Reduced A W c) (hc : c < A.rows)
    (hW : invertColumn W c = some W') : Reduced A W' (c + 1) := by
  obtain ⟨hrows, hcols, hunit, hsolves⟩ := h
  have hrow : c < W.rows := by omega
  have hcol : c < W.cols := by omega
  obtain ⟨r, p, hcr, hr, hp, rfl⟩ := invertColumn_eq_some hrow hcol hW
  have hpivot : (scaleRow (swapRows W r c) c p).get c c = 1 := by
    rw [scaleRow_get (W := swapRows W r c) hrow hcol, if_pos rfl, swapRows_get_pivot hrow hcol, hp]
  have hleft := unitColumns_scaleRow (unitColumns_swapRows hunit hcol hcr hr) hcol p
  refine ⟨hrows, hcols, unitColumns_eliminate hleft hrow hcol hpivot, fun z hz => hsolves z ?_⟩
  exact solves_of_swapRows hr hrow (solves_of_scaleRow hp (solves_of_eliminate hrow hz))

theorem invertColumns_cons (col : Nat) (cols : List Nat) (W : Mat) :
    invertColumns (col :: cols) W = (invertColumn W col).elim (.error col) (invertColumns cols) := by
  rw [invertColumns]
  cases Machine.invertColumn W col with
  | none => rfl
  | some W' => rfl

/-- When the columns are all done the left half is the identity. -/
theorem Reduced.of_invertColumns_eq_ok {A W W' : Mat} {c k : Nat} (h : Reduced A W c) (hk : c + k = A.rows)
    (hW : invertColumns (List.range' c k) W = .ok W') : Reduced A W' A.rows := by
  induction k generalizing c W with
  | zero =>
    cases hW
    exact hk ▸ h
  | succ k ih =>
    rw [List.range'_succ, invertColumns_cons] at hW
    cases hcol : Machine.invertColumn W c with
    | none =>
      rw [hcol] at hW
      cases hW
    | some W1 =>
      rw [hcol, Option.elim_some] at hW
      exact ih (h.invertColumn (by omega) hcol) (by omega) hW

/-- The column that stops has no odd entry at or below the diagonal. -/
theorem Reduced.of_invertColumns_eq_error {A W : Mat} {c k col : Nat} (h : Reduced A W c) (hk : c + k = A.rows)
    (hW : invertColumns (List.range' c k) W = .error col) :
    col < A.rows ∧ ∃ W', Reduced A W' col ∧ ∀ i, col ≤ i → i < A.rows → (W'.get i col).toNat % 2 = 0 := by
  induction k generalizing c W with
  | zero => cases hW
  | succ k ih =>
    rw [List.range'_succ, invertColumns_cons] at hW
    cases hcol : Machine.invertColumn W c with
    | none =>
      rw [hcol] at hW
      cases hW
      obtain ⟨hrows, hcols, -⟩ := id h
      refine ⟨by omega, W, h, fun i hci hi => ?_⟩
      exact even_of_invertColumn_eq_none (by omega) (by omega) hcol hci (by omega)
    | some W1 =>
      rw [hcol, Option.elim_some] at hW
      exact ih (h.invertColumn (by omega) hcol) (by omega) hW

theorem invert_eq_map (A : Mat) : invert A = (invertColumns (List.range A.rows) (augment A)).map fun W =>
    Mat.ofFn A.rows A.rows fun i j => W.get i (A.rows + j) := by
  unfold invert
  cases invertColumns (List.range A.rows) (augment A) with
  | ok W => rfl
  | error col => rfl

theorem invert_eq_ok {A R : Mat} (h : invert A = .ok R) :
    ∃ W, Reduced A W A.rows ∧ R = Mat.ofFn A.rows A.rows fun i j => W.get i (A.rows + j) := by
  rw [invert_eq_map, List.range_eq_range'] at h
  cases hW : invertColumns (List.range' 0 A.rows) (augment A) with
  | ok W =>
    rw [hW] at h
    cases h
    exact ⟨W, (Reduced.augment A).of_invertColumns_eq_ok (Nat.zero_add _) hW, rfl⟩
  | error col =>
    rw [hW] at h
    cases h

theorem invert_eq_error {A : Mat} {col : Nat} (h : invert A = .error col) :
    col < A.rows ∧ ∃ W, Reduced A W col ∧ ∀ i, col ≤ i → i < A.rows → (W.get i col).toNat % 2 = 0 := by
  rw [invert_eq_map, List.range_eq_range'] at h
  cases hW : invertColumns (List.range' 0 A.rows) (augment A) with
  | ok W =>
    rw [hW] at h
    cases h
  | error col =>
    rw [hW] at h
    cases h
    exact (Reduced.augment A).of_invertColumns_eq_error (Nat.zero_add _) hW

/-! ## What the inversion guarantees (41_matrix.md R154) -/

/-- With `c` columns done, a row is one variable and a form in the variables from `c` on. -/
theorem rowValue_of_unitColumns {W : Mat} {c i : Nat} (h : UnitColumns W c) (hi : i < W.rows) (hc : c ≤ W.cols)
    (z : Nat → Byte) : rowValue W z i =
      (if i < c then z i else 0) + ∑ j ∈ Finset.range (W.cols - c), W.get i (c + j) * z (c + j) := by
  conv_lhs => rw [rowValue_eq_sum rfl fun _ _ => rfl, ← Nat.add_sub_cancel' hc, Finset.sum_range_add]
  congr 1
  calc ∑ j ∈ Finset.range c, W.get i j * z j = ∑ j ∈ Finset.range c, if i = j then z j else 0 :=
        Finset.sum_congr rfl fun j hj => by rw [h i j hi (Finset.mem_range.1 hj), ite_mul, one_mul, zero_mul]
    _ = if i < c then z i else 0 := by simp only [Finset.sum_ite_eq, Finset.mem_range]

/-- On `[A | I]` a solution is a vector `x` and what `A x` comes to, negated. -/
theorem mulVec_of_solves_augment {A : Mat} {n : Nat} {z : Nat → Byte} (hn : A.rows = n) (h : Solves (augment A) z)
    (i : Fin n) : (A.toMatrix n).mulVec (fun k => z k) i = -z (n + i) := by
  subst hn
  have hrow := h i i.isLt
  rw [rowValue_augment i.isLt, ← Fin.sum_univ_eq_sum_range] at hrow
  exact eq_neg_of_add_eq_zero_left hrow

/-- Column `j` of the right half of `W`, and under it column `j` of the identity, negated. -/
noncomputable def inverseColumn (W : Mat) (n j k : Nat) : Byte :=
  if k < n then W.get k (n + j) else if k = n + j then -1 else 0

theorem inverseColumn_of_lt {n k : Nat} (hk : k < n) (W : Mat) (j : Nat) : inverseColumn W n j k = W.get k (n + j) :=
  if_pos hk

theorem inverseColumn_add (W : Mat) (n j k : Nat) : inverseColumn W n j (n + k) = if k = j then -1 else 0 :=
  (if_neg (by omega)).trans (if_congr Nat.add_left_cancel_iff rfl rfl)

/-- When the left half is the identity, each column of the right half, set beside the identity's, is a solution. -/
theorem Reduced.solves_inverseColumn {A W : Mat} {j : Nat} (h : Reduced A W A.rows) (hj : j < A.rows) :
    Solves W (inverseColumn W A.rows j) := by
  obtain ⟨hrows, hcols, hunit, -⟩ := h
  intro i hi
  have hi' : i < A.rows := hrows ▸ hi
  have hlen : W.cols - A.rows = A.rows := by omega
  rw [rowValue_of_unitColumns hunit hi (by omega), hlen, if_pos hi', inverseColumn_of_lt hi']
  simp only [inverseColumn_add, mul_ite, mul_neg, mul_one, mul_zero]
  rw [Finset.sum_ite_eq', if_pos (Finset.mem_range.2 hj), add_neg_cancel]

theorem toMatrix_mul_of_invert_eq_ok {A R : Mat} {n : Nat} (hn : A.rows = n) (h : invert A = .ok R) :
    A.toMatrix n * R.toMatrix n = 1 := by
  obtain ⟨W, hred, hR⟩ := invert_eq_ok h
  subst hn
  ext i j : 1
  have hcolumn : (fun k : Fin A.rows => inverseColumn W A.rows j k) = fun k => R.toMatrix A.rows k j := by
    funext k
    rw [inverseColumn_of_lt k.isLt, toMatrix_apply, hR, ofFn_get k.isLt j.isLt]
  calc (A.toMatrix A.rows * R.toMatrix A.rows) i j = (A.toMatrix A.rows).mulVec (fun k => inverseColumn W A.rows j k) i := by
        rw [hcolumn, Matrix.mul_apply', Matrix.mulVec]
    _ = -inverseColumn W A.rows j (A.rows + i) :=
        mulVec_of_solves_augment rfl (hred.solves (hred.solves_inverseColumn j.isLt)) i
    _ = (1 : Matrix _ _ Byte) i j := by
        rw [inverseColumn_add, Matrix.one_apply]
        simp only [Fin.ext_iff, neg_ite, neg_neg, neg_zero]

/-- A solution when column `col` stops: half the modulus there, and above it what the rows done ask for. -/
noncomputable def singularVector (W : Mat) (col k : Nat) : Byte :=
  if k < col then -(W.get k col * 128) else if k = col then 128 else 0

theorem singularVector_self (W : Mat) (col : Nat) : singularVector W col col = 128 :=
  (if_neg (lt_irrefl col)).trans (if_pos rfl)

theorem singularVector_of_gt {col k : Nat} (h : col < k) (W : Mat) : singularVector W col k = 0 :=
  (if_neg h.le.not_gt).trans (if_neg h.ne')

theorem singularVector_of_lt {col k : Nat} (h : k < col) (W : Mat) : singularVector W col k = -(W.get k col * 128) :=
  if_pos h

theorem Reduced.solves_singularVector {A W : Mat} {col : Nat} (h : Reduced A W col) (hcol : col < A.rows)
    (heven : ∀ i, col ≤ i → i < A.rows → (W.get i col).toNat % 2 = 0) : Solves W (singularVector W col) := by
  obtain ⟨hrows, hcols, hunit, -⟩ := h
  intro i hi
  have hrest : ∑ j ∈ Finset.range (W.cols - col), W.get i (col + j) * singularVector W col (col + j) = W.get i col * 128 := by
    rw [Finset.sum_eq_single_of_mem 0 (Finset.mem_range.2 (by omega)), Nat.add_zero, singularVector_self]
    intro j _ hj
    rw [singularVector_of_gt (by omega), mul_zero]
  rw [rowValue_of_unitColumns hunit hi (by omega), hrest]
  split
  next hlt => rw [singularVector_of_lt hlt, neg_add_cancel]
  next hge => rw [zero_add, mul_half_of_even (heven i (by omega) (by omega))]

theorem not_isUnit_det_of_invert_eq_error {A : Mat} {n col : Nat} (hn : A.rows = n) (h : invert A = .error col) :
    ¬ IsUnit (A.toMatrix n).det := by
  intro hunit
  obtain ⟨hcol, W, hred, heven⟩ := invert_eq_error h
  subst hn
  have hkernel : (A.toMatrix A.rows).mulVec (fun k => singularVector W col k) = 0 := by
    funext i
    rw [mulVec_of_solves_augment rfl (hred.solves (hred.solves_singularVector hcol heven)),
      singularVector_of_gt (by omega), neg_zero, Pi.zero_apply]
  have hzero := Matrix.eq_zero_of_det_mem_nonZeroDivisors_of_mulVec_eq_zero hunit.mem_nonZeroDivisors hkernel
  have hentry : singularVector W col col = 0 := congrFun hzero ⟨col, hcol⟩
  rw [singularVector_self] at hentry
  exact absurd hentry (by decide)

theorem shape_of_invert_eq_ok {A R : Mat} (h : invert A = .ok R) :
    R.rows = A.rows ∧ R.cols = A.rows ∧ R.entries.length = A.rows * A.rows := by
  obtain ⟨W, -, rfl⟩ := invert_eq_ok h
  exact ⟨rfl, rfl, ofFn_length _ _ _⟩

/-- What `invert` gives is an inverse on both sides (R154 (a)). -/
theorem invert_mul {A R : Mat} {n : Nat} (hr : A.rows = n) (hc : A.cols = n) (h : invert A = .ok R) :
    A.mul R = Mat.identity n ∧ R.mul A = Mat.identity n := by
  obtain ⟨hRr, hRc, -⟩ := shape_of_invert_eq_ok h
  have hmul := toMatrix_mul_of_invert_eq_ok hr h
  exact ⟨(mul_eq_identity_iff hr hc (hRc.trans hr)).2 hmul,
    (mul_eq_identity_iff (hRr.trans hr) (hRc.trans hr) hc).2 (mul_eq_one_comm.1 hmul)⟩

/-- It is the only inverse on either side. -/
theorem eq_of_invert_eq_ok {A R S : Mat} {n : Nat} (hr : A.rows = n) (hc : A.cols = n) (h : invert A = .ok R)
    (hSr : S.rows = n) (hSc : S.cols = n) (hS : S.entries.length = n * n)
    (hinv : A.mul S = Mat.identity n ∨ S.mul A = Mat.identity n) : S = R := by
  obtain ⟨hRr, hRc, hR⟩ := shape_of_invert_eq_ok h
  have hAR := toMatrix_mul_of_invert_eq_ok hr h
  have hSA : S.toMatrix n * A.toMatrix n = 1 := by
    rcases hinv with hAS | hSA
    · exact mul_eq_one_comm.1 ((mul_eq_identity_iff hr hc hSc).1 hAS)
    · exact (mul_eq_identity_iff hSr hSc hc).1 hSA
  exact eq_of_toMatrix_eq hSr hSc hS (hRr.trans hr) (hRc.trans hr) (by rw [hR, hr]) (left_inv_eq_right_inv hSA hAR)

/-- `invert` succeeds exactly when the determinant over the integers is odd (R154 (b), (c)). -/
theorem invert_eq_ok_iff_odd_det {A : Mat} {n : Nat} (hn : A.rows = n) : (∃ R, invert A = .ok R) ↔
    Matrix.det (Matrix.of fun (i j : Fin n) => ((A.get i.val j.val).toNat : Int)) % 2 = 1 := by
  rw [← isUnit_intCast_iff_odd, ← det_toMatrix]
  constructor
  · rintro ⟨R, h⟩
    exact Matrix.isUnit_det_of_right_inverse (toMatrix_mul_of_invert_eq_ok hn h)
  · intro hunit
    cases h : invert A with
    | ok R => exact ⟨R, rfl⟩
    | error col => exact absurd hunit (not_isUnit_det_of_invert_eq_error hn h)

/-- Settles O42: `invert` decides the parity of the determinant, and gives the one inverse when it succeeds. -/
theorem minvertCompletesExactlyForOddDeterminants : Obligations.MinvertCompletesExactlyForOddDeterminants := by
  intro s md ms A n hA hwf hr hc
  have hsq : A.rows = A.cols := hr.trans hc.symm
  obtain ⟨hpos, hmax, -⟩ := hwf
  refine ⟨fun hodd => ?_, fun heven => ?_⟩
  · obtain ⟨R, hR⟩ := (invert_eq_ok_iff_odd_det hr).2 hodd
    obtain ⟨hRr, hRc, hRlen⟩ := shape_of_invert_eq_ok hR
    obtain ⟨hAR, hRA⟩ := invert_mul hr hc hR
    refine ⟨R, exec_minvert_of_ok md hA hsq hR, ?_, hRr.trans hr, hRc.trans hr, hAR, hRA, fun S hS hSr hSc hinv => ?_⟩
    · exact ⟨by omega, by omega, by omega, by omega, by rw [hRlen, hRr, hRc]⟩
    · obtain ⟨-, -, -, -, hSlen⟩ := hS
      exact eq_of_invert_eq_ok hr hc hR hSr hSc (by rw [hSlen, hSr, hSc]) hinv
  · cases h : invert A with
    | ok R =>
      have hodd := (invert_eq_ok_iff_odd_det hr).1 ⟨R, h⟩
      omega
    | error col =>
      obtain ⟨hcol, -⟩ := invert_eq_error h
      exact ⟨col, hr ▸ hcol, exec_minvert_of_error md hA hsq h⟩

end Sys2Proof.Machine
end

section
/-! SUPPORT. The block transforms entry by entry, the bytes of a run of transformed blocks, what the register forms and the
memory forms of the cipher do after each of their checks, and the statements on them (43_cipher.md R190 to R198). -/

namespace Sys2Proof.Machine

/-! ## Entries of a transformed block (43_cipher.md R191) -/

/-- `subMod` without integers: the modulus is added before the subtraction. -/
theorem subMod_toNat_eq_add_sub_mod (a b : Byte) : (subMod a b).toNat = (256 + a.toNat - b.toNat) % 256 := by
  have h := subMod_toNat a b
  omega

section Entries
variable {A : Mat} {x : Vec} {X : Nat → Byte} {i : Nat}

/-- Entry `i` of an encrypted block whose entries are the `X t`. -/
theorem enc_get_toNat (hsq : A.rows = A.cols) (b : Vec) (hx : ∀ t < A.rows, Vec.get x t = X t) (hi : i < A.rows) :
    (Vec.get (enc A b x) i).toNat =
      (∑ t ∈ Finset.range A.rows, (A.get i t).toNat * (X t).toNat + (Vec.get b i).toNat) % 256 := by
  rw [enc, vec_ofFn_get hi, reduce_toNat, dot_eq, ← hsq,
    Finset.sum_congr rfl fun t ht => by rw [hx t (Finset.mem_range.1 ht)]]

/-- Entry `i` of a decrypted block whose entries are the `X t`. -/
theorem dec_get_toNat (hsq : A.rows = A.cols) (b : Vec) (hx : ∀ t < A.rows, Vec.get x t = X t) (hi : i < A.rows) :
    (Vec.get (dec A b x) i).toNat = (∑ t ∈ Finset.range A.rows,
      (A.get i t).toNat * ((256 + (X t).toNat - (Vec.get b t).toNat) % 256)) % 256 := by
  rw [dec, vec_ofFn_get hi, reduce_dot_toNat, ← hsq,
    Finset.sum_congr rfl fun t ht => by rw [hx t (Finset.mem_range.1 ht), subMod_toNat_eq_add_sub_mod]]

end Entries

/-! ## The register forms (43_cipher.md R192, R194) -/

theorem keyShapeOk_eq (A : Mat) (b : Vec) : keyShapeOk A b = decide (A.rows = A.cols ∧ b.length = A.rows) :=
  (Bool.decide_and _ _).symm

/-- A check lets the instruction go on or ends it in the fault. -/
theorem finish_require {s : State} {p : Prop} [Decidable p] (c : Cause) (info : Word) (f : Unit → Res State) :
    finish s (require (decide p) c info >>= f) = if ¬ p then .next (takeFault c info s) else finish s (f ()) := by
  split
  next h => exact finish_require_of_neg h c info f
  next h => exact finish_require_of_pos (not_not.1 h) c info f

section BlockForms
variable {s : State} {ma : MReg} {vx vb : VReg} {A : Mat} {x b : Vec}

/-- An empty operand is the fault, whichever it is. -/
theorem finish_blockTransform_of_none (h : s.mregs[ma] = none ∨ s.vregs[vx] = none ∨ s.vregs[vb] = none)
    (f : Mat → Vec → Vec → Vec) (vd : VReg) :
    finish s (blockTransform f vd ma vx vb s) = .next (takeFault .emptyOperand 0 s) := by
  cases hA : s.mregs[ma] with
  | none => exact finish_readMat_of_none hA _
  | some A =>
    refine (finish_readMat_of_some hA _).trans ?_
    cases hx : s.vregs[vx] with
    | none => exact finish_readVec_of_none hx _
    | some x =>
      have hb : s.vregs[vb] = none := by simpa [hA, hx] using h
      exact (finish_readVec_of_some hx _).trans (finish_readVec_of_none hb _)

theorem finish_blockTransform_of_some (hA : s.mregs[ma] = some A) (hx : s.vregs[vx] = some x)
    (hb : s.vregs[vb] = some b) (f : Mat → Vec → Vec → Vec) (vd : VReg) :
    finish s (blockTransform f vd ma vx vb s) =
      if A.rows = A.cols ∧ x.length = A.rows ∧ b.length = A.rows then .next (advance (setVec s vd (f A b x)))
      else .next (takeFault .dimensionMismatch 0 s) := by
  have hshape : (keyShapeOk A b && decide (x.length = A.rows)) =
      decide (A.rows = A.cols ∧ x.length = A.rows ∧ b.length = A.rows) := by
    rw [keyShapeOk_eq, ← Bool.decide_and]
    exact decide_eq_decide.2 (by tauto)
  refine (finish_readMat_of_some hA _).trans ((finish_readVec_of_some hx _).trans ((finish_readVec_of_some hb _).trans ?_))
  rw [hshape, finish_require, ite_not]
  rfl

end BlockForms

/-- Settles O44: the checks of the register forms, then the two transforms entry by entry. -/
theorem affineBlockTransforms : Obligations.AffineBlockTransforms := by
  intro s vd ma vx vb
  have hempty (h : s.mregs[ma] = none ∨ s.vregs[vx] = none ∨ s.vregs[vb] = none) :
      raises (.affenc vd ma vx vb) s .emptyOperand 0 ∧ raises (.affdec vd ma vx vb) s .emptyOperand 0 :=
    ⟨finish_blockTransform_of_none h enc vd, finish_blockTransform_of_none h dec vd⟩
  cases hA : s.mregs[ma] with
  | none => exact hempty (.inl hA)
  | some A =>
    cases hx : s.vregs[vx] with
    | none => exact hempty (.inr (.inl hx))
    | some x =>
      cases hb : s.vregs[vb] with
      | none => exact hempty (.inr (.inr hb))
      | some b =>
        have henc := finish_blockTransform_of_some hA hx hb enc vd
        have hdec := finish_blockTransform_of_some hA hx hb dec vd
        dsimp only
        split
        next h =>
          rw [if_pos h] at henc hdec
          obtain ⟨hsq, -⟩ := h
          exact ⟨⟨_, henc, enc_length A b x, fun i hi => enc_get_toNat hsq b (fun _ _ => rfl) hi⟩,
            ⟨_, hdec, dec_length A b x, fun i hi => dec_get_toNat hsq b (fun _ _ => rfl) hi⟩⟩
        next h =>
          rw [if_neg h] at henc hdec
          exact ⟨henc, hdec⟩

/-! ## The bytes of a run of blocks (42_blockcodec.md R180) -/

/-- Lists of one length, put one after the other. -/
theorem length_flatMap_of_length_eq {α : Type} {g : α → Vec} {n : Nat} (hg : ∀ x, (g x).length = n) (l : List α) :
    (l.flatMap g).length = l.length * n := by
  simp [List.length_flatMap, hg]

theorem get_flatMap_of_length_eq {α : Type} {g : α → Vec} {n : Nat} (hg : ∀ x, (g x).length = n) {l : List α} {k r : Nat}
    (hk : k < l.length) (hr : r < n) : Vec.get (l.flatMap g) (k * n + r) = Vec.get (g l[k]) r := by
  unfold Vec.get
  induction l generalizing k with
  | nil => exact absurd hk (Nat.not_lt_zero k)
  | cons x xs ih =>
    rw [List.flatMap_cons]
    cases k with
    | zero => rw [Nat.zero_mul, Nat.zero_add, List.getD_append _ _ _ _ (by rwa [hg]), List.getElem_cons_zero]
    | succ k =>
      have hpos : (k + 1) * n + r = (g x).length + (k * n + r) := by rw [hg]; ring
      rw [hpos, List.getD_append_right _ _ _ _ (Nat.le_add_right _ _), Nat.add_sub_cancel_left,
        ih (Nat.lt_of_succ_lt_succ hk), List.getElem_cons_succ]

@[simp] theorem blocksOf_length (n cnt : Nat) (bytes : List Byte) : (blocksOf n cnt bytes).length = cnt := by
  simp [blocksOf]

/-- Block `k` of a run has the bytes from `k n` upward. -/
theorem blocksOf_ofFn_getElem {n cnt k : Nat} (B : Nat → Byte) (hk : k < (blocksOf n cnt (Vec.ofFn (cnt * n) B)).length) :
    (blocksOf n cnt (Vec.ofFn (cnt * n) B))[k] = Vec.ofFn n fun t => B (k * n + t) := by
  have hcnt : k < cnt := by simpa using hk
  refine List.ext_getElem ?_ fun t _ ht => ?_
  · have hle : (k + 1) * n ≤ cnt * n := Nat.mul_le_mul_right n hcnt
    have hsucc : (k + 1) * n = k * n + n := Nat.succ_mul k n
    simp only [blocksOf, List.getElem_map, List.getElem_range, List.length_take, List.length_drop, vec_ofFn_length]
    omega
  · simp [blocksOf, Vec.ofFn]

/-- A run of transformed blocks has as many bytes as the run itself. -/
theorem flatMap_blocksOf_length {g : Vec → Vec} {n : Nat} (hg : ∀ x, (g x).length = n) (cnt : Nat) (bytes : List Byte) :
    ((blocksOf n cnt bytes).flatMap g).length = cnt * n := by
  rw [length_flatMap_of_length_eq hg, blocksOf_length]

/-- Byte `r` of block `k` of a run of transformed blocks. -/
theorem flatMap_blocksOf_ofFn_get {g : Vec → Vec} {n cnt k r : Nat} (hg : ∀ x, (g x).length = n) (B : Nat → Byte)
    (hk : k < cnt) (hr : r < n) : Vec.get ((blocksOf n cnt (Vec.ofFn (cnt * n) B)).flatMap g) (k * n + r) =
      Vec.get (g (Vec.ofFn n fun t => B (k * n + t))) r := by
  rw [get_flatMap_of_length_eq hg (by rwa [blocksOf_length]) hr, blocksOf_ofFn_getElem]

/-- Bytes that are held are read, in address order. -/
theorem bytesAt_of_holds {m : Memory} {a n : Nat} {B : Nat → Byte} (hB : holds m a n B) :
    bytesAt m a n = .ok (Vec.ofFn n B) :=
  bytesAt_ok.2 ⟨vec_ofFn_length n B, fun k hk => by simpa [Vec.ofFn] using hB k (by simpa using hk)⟩

/-! ## The memory forms (43_cipher.md R197) -/

section RunForms
variable {s : State} {ma : MReg} {vb : VReg} {A : Mat} {b : Vec}

/-- A range that starts at a register's value goes on or is reported by the register's pattern. -/
theorem finish_checkRange_scalarInt (r : SReg) (n : Int) (f : Unit → Res State) :
    finish s (checkRange (scalarInt s r) n >>= f) =
      if ¬ inRange (scalarInt s r) n then .next (takeFault .accessFault s.sregs[r] s) else finish s (f ()) := by
  split
  next h => exact finish_bind_of_raise (checkRange_scalarInt_of_not_inRange h) f
  next h => exact finish_bind_of_ok (checkRange_ok.2 (not_not.1 h)) f

theorem not_partialOverlap_eq (src dst len : Int) :
    (!partialOverlap src dst len) = decide (¬(0 < len ∧ src ≠ dst ∧ src < dst + len ∧ dst < src + len)) := by
  simp only [partialOverlap, Bool.decide_and, decide_not, Bool.and_assoc]

/-- An empty key register is the fault, whichever it is. -/
theorem finish_runTransform_of_none (h : s.mregs[ma] = none ∨ s.vregs[vb] = none) (f : Mat → Vec → Vec → Vec)
    (ssrc sdst scnt : SReg) :
    finish s (runTransform f ma vb ssrc sdst scnt s) = .next (takeFault .emptyOperand 0 s) := by
  cases hA : s.mregs[ma] with
  | none => exact finish_readMat_of_none hA _
  | some A =>
    have hb : s.vregs[vb] = none := by simpa [hA] using h
    exact (finish_readMat_of_some hA _).trans (finish_readVec_of_none hb _)

/-- The checks in their order, then the whole run read, transformed and written. -/
theorem finish_runTransform_of_some (hA : s.mregs[ma] = some A) (hb : s.vregs[vb] = some b) (f : Mat → Vec → Vec → Vec)
    (ssrc sdst scnt : SReg) :
    finish s (runTransform f ma vb ssrc sdst scnt s) =
      if ¬(A.rows = A.cols ∧ b.length = A.rows) then .next (takeFault .dimensionMismatch 0 s)
      else if scalarInt s scnt < 0 then .next (takeFault .operandRange 0 s)
      else if ¬ inRange (scalarInt s ssrc) (scalarInt s scnt * A.rows) then .next (takeFault .accessFault s.sregs[ssrc] s)
      else if ¬ inRange (scalarInt s sdst) (scalarInt s scnt * A.rows) then .next (takeFault .accessFault s.sregs[sdst] s)
      else if 0 < scalarInt s scnt * A.rows ∧ scalarInt s ssrc ≠ scalarInt s sdst ∧
          scalarInt s ssrc < scalarInt s sdst + scalarInt s scnt * A.rows ∧
          scalarInt s sdst < scalarInt s ssrc + scalarInt s scnt * A.rows then
        .next (takeFault .accessFault s.sregs[sdst] s)
      else finish s (bytesAt s.dmem (scalarInt s ssrc).toNat (scalarInt s scnt * A.rows).toNat >>= fun bytes =>
        .ok (advance { s with
          dmem := putBytes s.dmem (scalarInt s sdst).toNat
            ((blocksOf A.rows (scalarInt s scnt).toNat bytes).flatMap (f A b)) })) := by
  refine (finish_readMat_of_some hA _).trans ((finish_readVec_of_some hb _).trans ?_)
  simp only [keyShapeOk_eq, not_partialOverlap_eq, finish_require, finish_checkRange_scalarInt, not_le, not_not,
    wrap32_scalarInt, scalar, res_pure]

end RunForms

/-- What ENCRYPT and DECRYPT share (43_cipher.md R198). -/
theorem exec_encrypt_or_decrypt {i : Instr} {ma : MReg} {vb : VReg} {ssrc sdst scnt : SReg}
    (hi : i = .encrypt ma vb ssrc sdst scnt ∨ i = .decrypt ma vb ssrc sdst scnt) :
    ∃ f : Mat → Vec → Vec → Vec, (∀ s, exec i s = finish s (runTransform f ma vb ssrc sdst scnt s)) ∧
      (∀ A b x, (f A b x).length = A.rows) ∧
      (i = .encrypt ma vb ssrc sdst scnt → f = enc) ∧ (i = .decrypt ma vb ssrc sdst scnt → f = dec) := by
  rcases hi with rfl | rfl
  · exact ⟨enc, fun _ => rfl, enc_length, fun _ => rfl, nofun⟩
  · exact ⟨dec, fun _ => rfl, dec_length, nofun, fun _ => rfl⟩

/-- Settles O47: the checks stand in the order of `finish_runTransform_of_some`; past them the run written is the transformed
blocks one after the other. -/
theorem runsAreTransformedBlockByBlock : Obligations.RunsAreTransformedBlockByBlock := by
  intro s ma vb ssrc sdst scnt i hi
  obtain ⟨f, hexec, hlen, henc, hdec⟩ := exec_encrypt_or_decrypt hi
  have hempty (h : s.mregs[ma] = none ∨ s.vregs[vb] = none) : raises i s .emptyOperand 0 :=
    (hexec s).trans (finish_runTransform_of_none h f ssrc sdst scnt)
  cases hA : s.mregs[ma] with
  | none => exact hempty (.inl hA)
  | some A =>
    cases hb : s.vregs[vb] with
    | none => exact hempty (.inr hb)
    | some b =>
      have hrun := (hexec s).trans (finish_runTransform_of_some hA hb f ssrc sdst scnt)
      dsimp only
      split_ifs at hrun ⊢ with hshape hcnt hsrc hdst hover
      any_goals exact hrun
      intro B hB
      obtain ⟨hsq, -⟩ := hshape
      have hlenRun : (scalarInt s scnt * A.rows).toNat = (scalarInt s scnt).toNat * A.rows := by
        rw [Int.toNat_mul (not_lt.1 hcnt) (Int.natCast_nonneg _), Int.toNat_natCast]
      rw [hlenRun] at hrun
      have hout := flatMap_blocksOf_length (hlen A b) (scalarInt s scnt).toNat
        (Vec.ofFn ((scalarInt s scnt).toNat * A.rows) B)
      refine ⟨_, hrun.trans (finish_bind_of_ok (bytesAt_of_holds hB) _),
        fun a ha => cellGet_putBytes_outside (by rwa [hout]), fun k r hk hr =>
        ⟨_, cellGet_putBytes_get _ _ ((rowMajor_lt hk hr).trans_eq hout.symm), fun h => ?encrypted, fun h => ?decrypted⟩⟩
      all_goals rw [flatMap_blocksOf_ofFn_get (hlen A b) B hk hr]
      case encrypted => rw [henc h, enc_get_toNat hsq b (fun t ht => vec_ofFn_get ht) hr]
      case decrypted => rw [hdec h, dec_get_toNat hsq b (fun t ht => vec_ofFn_get ht) hr]

end Sys2Proof.Machine
end

section
/-! SUPPORT. The enumeration of combinations as the sublists of a given length, its order and its positions, and what RECOVER does
at each of its checks, with the statements on them (44_recovery.md R211 to R216). -/

namespace Sys2Proof.Machine

/-! ## Combinations (44_recovery.md R216) -/

theorem combinations_zero (l : List Nat) : combinations 0 l = [[]] := by cases l <;> rfl

theorem combinations_succ_nil (n : Nat) : combinations (n + 1) [] = [] := rfl

theorem combinations_succ_cons (n x : Nat) (xs : List Nat) :
    combinations (n + 1) (x :: xs) = (combinations n xs).map (x :: ·) ++ combinations (n + 1) xs := rfl

/-- Mathlib's `sublistsLen` makes the selections in the opposite order. -/
theorem combinations_eq_reverse_sublistsLen (n : Nat) (l : List Nat) : combinations n l = (l.sublistsLen n).reverse := by
  induction l generalizing n with
  | nil =>
    cases n with
    | zero => rfl
    | succ n => rfl
  | cons x xs ih =>
    cases n with
    | zero => rw [combinations_zero, List.sublistsLen_zero, List.reverse_singleton]
    | succ n => rw [combinations_succ_cons, List.sublistsLen_succ_cons, List.reverse_append, ← List.map_reverse, ih, ih]

theorem mem_combinations {n : Nat} {l p : List Nat} : p ∈ combinations n l ↔ p.Sublist l ∧ p.length = n := by
  rw [combinations_eq_reverse_sublistsLen, List.mem_reverse, List.mem_sublistsLen]

theorem combinations_length (n : Nat) (l : List Nat) : (combinations n l).length = l.length.choose n := by
  rw [combinations_eq_reverse_sublistsLen, List.length_reverse, List.length_sublistsLen]

/-- The selections are by position, so they do not depend on what stands there. -/
theorem combinations_map (f : Nat → Nat) (n : Nat) (l : List Nat) :
    combinations n (l.map f) = (combinations n l).map (List.map f) := by
  induction l generalizing n with
  | nil =>
    cases n with
    | zero => rfl
    | succ n => rfl
  | cons x xs ih =>
    cases n with
    | zero => rw [combinations_zero, combinations_zero, List.map_singleton, List.map_nil]
    | succ n =>
      rw [List.map_cons, combinations_succ_cons, combinations_succ_cons, ih, ih, List.map_append, List.map_map, List.map_map]
      rfl

/-- From a rising list, the selections with its head come first and each is below every selection without it. -/
theorem combinations_pairwise_lex {l : List Nat} (h : l.Pairwise (· < ·)) :
    ∀ n : Nat, (combinations n l).Pairwise (List.Lex (· < ·)) := by
  induction l with
  | nil =>
    intro n
    cases n with
    | zero => exact List.pairwise_singleton _ _
    | succ n => exact List.Pairwise.nil
  | cons x xs ih =>
    obtain ⟨hx, hxs⟩ := List.pairwise_cons.1 h
    intro n
    cases n with
    | zero => exact List.pairwise_singleton _ _
    | succ n =>
      rw [combinations_succ_cons, List.pairwise_append, List.pairwise_map]
      refine ⟨(ih hxs n).imp List.Lex.cons, ih hxs (n + 1), fun p hp q hq => ?_⟩
      obtain ⟨p, -, rfl⟩ := List.mem_map.1 hp
      obtain ⟨hsub, hlen⟩ := mem_combinations.1 hq
      obtain ⟨y, q, rfl⟩ := List.exists_cons_of_length_eq_add_one hlen
      exact List.Lex.rel (hx y (hsub.subset List.mem_cons_self))

/-- The sublists of the positions are the strictly increasing sequences of them. -/
theorem sublist_range_iff {K : Nat} {p : List Nat} : p.Sublist (List.range K) ↔ p.Pairwise (· < ·) ∧ ∀ x ∈ p, x < K := by
  constructor
  · intro h
    exact ⟨List.pairwise_lt_range.sublist h, fun x hx => List.mem_range.1 (h.subset hx)⟩
  · rintro ⟨hp, hK⟩
    exact List.sublist_of_subperm_of_pairwise (hp.nodup.subperm fun x hx => List.mem_range.2 (hK x hx)) hp
      List.pairwise_lt_range

/-- A list is its positions, each replaced by its entry. -/
theorem map_getD_range (l : List Nat) : (List.range l.length).map (fun j => l.getD j 0) = l := by
  refine List.ext_getElem (by rw [List.length_map, List.length_range]) fun j _ hj => ?_
  rw [List.getElem_map, List.getElem_range, List.getD_eq_getElem _ _ hj]

/-- Settles O52: the combinations of the positions are the sublists of `range K`, and a candidate list is the image of its
positions. -/
theorem combinationsAreTriedInLexicographicOrder : Obligations.CombinationsAreTriedInLexicographicOrder := by
  refine fun n K => ⟨fun p => ?_, combinations_pairwise_lex List.pairwise_lt_range n, ?_, ?_⟩
  · rw [mem_combinations, sublist_range_iff, and_comm]
  · rw [combinations_length, List.length_range]
  · rintro l rfl
    rw [← combinations_map, map_getD_range]

/-! ## The checks of RECOVER (44_recovery.md R213) -/

theorem readCandidates_zero (m : Memory) (count : Int) (a : Nat) : readCandidates m count a 0 = .ok [] := rfl

theorem readCandidates_succ (m : Memory) (count : Int) (a k : Nat) :
    readCandidates m count a (k + 1) = byteAt m a >>= fun lo => byteAt m (a + 1) >>= fun hi =>
      require (decide (((lo.toNat + 256 * hi.toNat : Nat) : Int) < count)) .operandRange 0 >>= fun _ =>
        readCandidates m count (a + 2) k >>= fun cs => .ok ((lo.toNat + 256 * hi.toNat) :: cs) := rfl

/-- A list whose bytes are held is read whole, or refused when an entry is not a block index. -/
theorem readCandidates_of_held {m : Memory} {count : Int} {a k : Nat} {lo hi : Nat → Byte}
    (h : ∀ j < k, cellGet m (a + 2 * j) = some (lo j) ∧ cellGet m (a + 2 * j + 1) = some (hi j)) :
    readCandidates m count a k =
      if ∀ j < k, (((lo j).toNat + 256 * (hi j).toNat : Nat) : Int) < count then
        .ok ((List.range k).map fun j => (lo j).toNat + 256 * (hi j).toNat)
      else raise .operandRange 0 := by
  induction k generalizing a lo hi with
  | zero => rw [readCandidates_zero, if_pos fun j hj => absurd hj j.not_lt_zero, List.range_zero, List.map_nil]
  | succ k ih =>
    obtain ⟨hlo, hhi⟩ := h 0 k.succ_pos
    have htail := ih (a := a + 2) (lo := fun j => lo (j + 1)) (hi := fun j => hi (j + 1)) fun j hj => by
      rw [show a + 2 + 2 * j = a + 2 * (j + 1) by omega]
      exact h (j + 1) (Nat.succ_lt_succ hj)
    rw [Nat.mul_zero, Nat.add_zero] at hlo hhi
    rw [readCandidates_succ, byteAt_ok.2 hlo, ok_bind, byteAt_ok.2 hhi, ok_bind]
    by_cases hhead : (((lo 0).toNat + 256 * (hi 0).toNat : Nat) : Int) < count
    · rw [require_ok.2 (decide_eq_true hhead), ok_bind, htail]
      by_cases hrest : ∀ j < k, (((lo (j + 1)).toNat + 256 * (hi (j + 1)).toNat : Nat) : Int) < count
      · rw [if_pos hrest, if_pos (Nat.forall_lt_succ_left.2 ⟨hhead, hrest⟩), ok_bind, List.range_succ_eq_map,
          List.map_cons, List.map_map]
        rfl
      · rw [if_neg hrest, raise_bind, if_neg fun hall => hrest (Nat.forall_lt_succ_left.1 hall).2]
    · rw [require_error.2 ⟨decide_eq_false hhead, rfl⟩, error_bind, if_neg fun hall => hhead (hall 0 k.succ_pos), raise]

/-- The first line of R213 as one check. -/
theorem recoverScalars_eq (count k anchor : Int) :
    (decide (0 ≤ count) && decide (0 ≤ k) && decide (0 ≤ anchor) && decide (anchor < count)) =
      decide (¬(count < 0 ∨ k < 0 ∨ anchor < 0 ∨ count ≤ anchor)) := by
  rw [← Bool.decide_and, ← Bool.decide_and, ← Bool.decide_and]
  exact decide_eq_decide.2 (by omega)

/-- A check of several parts, told by the condition that makes it fail. -/
theorem finish_require_of_eq {s : State} {b : Bool} {p : Prop} [Decidable p] (hb : b = decide (¬ p)) (c : Cause) (info : Word)
    (f : Unit → Res State) :
    finish s (require b c info >>= f) = if p then .next (takeFault c info s) else finish s (f ()) := by
  rw [hb]
  split
  next hp => exact finish_require_of_neg (not_not.2 hp) c info f
  next hp => exact finish_require_of_pos hp c info f

/-- RECOVER's checks in their order, then the candidate list and the search. -/
theorem exec_recover (md : MReg) (vd : VReg) (n : Nat) (s : State) :
    exec (.recover md vd n) s =
      if scalarInt s 10 < 0 ∨ scalarInt s 13 < 0 ∨ scalarInt s 11 < 0 ∨ scalarInt s 10 ≤ scalarInt s 11 then
        .next (takeFault .operandRange 0 s)
      else if ¬ inRange (scalarInt s 8) (scalarInt s 10 * n) then .next (takeFault .accessFault s.sregs[8] s)
      else if ¬ inRange (scalarInt s 9) (scalarInt s 10 * n) then .next (takeFault .accessFault s.sregs[9] s)
      else if ¬ inRange (scalarInt s 12) (2 * scalarInt s 13) then .next (takeFault .accessFault s.sregs[12] s)
      else finish s (readCandidates s.dmem (scalarInt s 10) (scalarInt s 12).toNat (scalarInt s 13).toNat >>= fun cands =>
        search s.dmem ⟨(scalarInt s 8).toNat, (scalarInt s 9).toNat, n, (scalarInt s 11).toNat⟩ (combinations n cands) >>=
          fun key => .ok (advance (setVec (setMat s md key.1) vd key.2))) := by
  refine (finish_require_of_eq (recoverScalars_eq _ _ _) _ _ _).trans (congrArg (ite _ _) ?_)
  refine (finish_checkRange_scalarInt recoverPbase _ _).trans (congrArg (ite _ _) ?_)
  refine (finish_checkRange_scalarInt recoverCbase _ _).trans (congrArg (ite _ _) ?_)
  exact finish_checkRange_scalarInt recoverCandBase _ _

/-- Settles O50: the checks stand in the order of `exec_recover`; past them the candidate list is refused. -/
theorem recoverValidatesItsInputs : Obligations.RecoverValidatesItsInputs := by
  intro s md vd n
  have hexec := exec_recover md vd n s
  split_ifs at hexec ⊢
  any_goals exact hexec
  rintro lo hi hheld ⟨j, hj, hlarge⟩
  have hread := readCandidates_of_held (count := scalarInt s 10) (k := (scalarInt s 13).toNat)
    fun j hj => hheld j (Int.lt_toNat.1 hj)
  rw [if_neg fun hall => (hall j (Int.lt_toNat.2 hj)).not_ge hlarge] at hread
  exact hexec.trans (finish_bind_of_raise hread _)

end Sys2Proof.Machine
end

section
/-! SUPPORT. What each control and scalar instruction answers, one equation per instruction and case, with the statements on them
(45_support.md R230 to R242). -/

namespace Sys2Proof.Machine

/-! ## NOP and HALT (45_support.md R230, R231) -/

theorem exec_nop (s : State) : exec .nop s = .next { s with pc := s.pc + 1 } := rfl

theorem exec_halt (s : State) :
    exec .halt s = .next { s with pc := s.pc + 1, runState := .halted, stopReq := false } := rfl

/-- In HALTED the interrupt output is the HALT_IE bit (60_exceptions.md R276). -/
theorem irq_of_halted {s : State} (h : s.runState = .halted) : irq s = s.ie.getLsbD 0 := by
  simp [irq, haltIe, h]

/-- A row whose mask is the whole word has one word. -/
theorem eq_pattern_of_decode {w : Word} {i : Instr} {row : EncodingRow} (hrow : row ∈ encodingTable)
    (hmask : row.mask = 0xFFFFFFFF) (hop : row.opcode = i.opcode) (h : decode w = .ok i) : w = row.pattern := by
  obtain ⟨hbits, -⟩ := (decode_ok_iff_legal hrow (hop.trans (opcode_of_decode h))).1 ⟨i, h⟩
  have hall : w &&& 0xFFFFFFFF = w := BitVec.and_allOnes
  rwa [hmask, hall] at hbits

/-- HALT has one word. -/
theorem decode_eq_halt_iff (w : Word) : decode w = .ok .halt ↔ w = 0x02000000 := by
  constructor
  · have hrow : (⟨0x02, 0xFFFFFFFF, 0x02000000, []⟩ : EncodingRow) ∈ encodingTable :=
      List.mem_cons_of_mem _ List.mem_cons_self
    exact eq_pattern_of_decode hrow rfl rfl
  · rintro rfl
    rfl

/-- Settles O21, by NOP's one line and its one word. -/
theorem nopOnlyAdvances : Obligations.NopOnlyAdvances := ⟨exec_nop, decode_eq_nop_iff⟩

/-- Settles O22: the state after HALT is HALTED, so the engine rests, irq shows HALT_IE and START is obeyed. -/
theorem haltStopsTheEngine : Obligations.HaltStopsTheEngine := by
  refine ⟨fun s => ⟨_, exec_halt s, rfl, ?rests, irq_of_halted rfl, ctrlStart_of_idle_or_halted (.inr rfl)⟩,
    decode_eq_halt_iff⟩
  case rests => exact engineStep_of_not_running (by simp)

/-! ## Jumps and branches (45_support.md R232 to R234) -/

/-- The test of the branches is that the pattern is zero. -/
theorem scalarInt_eq_zero_iff (s : State) (i : SReg) : scalarInt s i = 0 ↔ s.sregs[i] = 0 :=
  BitVec.toInt_inj (x := s.sregs[i]) (y := 0)

/-- A branch writes `pc` and nothing else. -/
theorem branch_eq (c : Bool) (target : CodeIndex) (s : State) :
    branch c target s = { s with pc := if c then target else s.pc + 1 } := by
  cases c <;> rfl

theorem exec_jmp (s : State) (target : CodeIndex) : exec (.jmp target) s = .next { s with pc := target } := rfl

theorem exec_beqz (s : State) (sa : SReg) (target : CodeIndex) :
    exec (.beqz sa target) s = .next { s with pc := if s.sregs[sa] = 0 then target else s.pc + 1 } := by
  have hexec : exec (.beqz sa target) s = .next (branch (isZero s sa) target s) := rfl
  simp only [hexec, branch_eq, isZero, decide_eq_true_eq, scalarInt_eq_zero_iff]

theorem exec_bnez (s : State) (sa : SReg) (target : CodeIndex) :
    exec (.bnez sa target) s = .next { s with pc := if s.sregs[sa] = 0 then s.pc + 1 else target } := by
  have hexec : exec (.bnez sa target) s = .next (branch (!isZero s sa) target s) := rfl
  simp only [hexec, branch_eq, isZero, Bool.not_eq_true', decide_eq_false_iff_not, scalarInt_eq_zero_iff, ite_not]

/-- Beyond IMEM there is nothing to fetch: FetchFault with the `pc` (20_memory.md R61). -/
theorem fetch_of_beyond {s : State} (h : Config.imemWords ≤ s.pc.toNat) :
    fetch s = raise .fetchFault (s.pc.setWidth 32) := if_pos h

/-- The engine takes the fault its fetch raises (60_exceptions.md R270). -/
theorem engineStep_of_fetch_raise {s : State} {c : Cause} {info : Word} (hrun : s.runState = .running)
    (hstop : s.stopReq = false) (hfetch : fetch s = raise c info) : engineStep s = .next (takeFault c info s) := by
  have hinstr : fetchInstr s = raise c info := by rw [fetchInstr, hfetch, raise_bind]
  rw [engineStep, if_neg (not_not.2 hrun), if_neg (by simp [hstop]), hinstr, raise]

/-- Settles O23, by the equation of each instruction and of a fetch beyond IMEM. -/
theorem jumpsAndBranchesSetPc : Obligations.JumpsAndBranchesSetPc := by
  refine ⟨fun s sa target => ⟨exec_jmp s target, exec_beqz s sa target, exec_bnez s sa target⟩, ?_⟩
  rintro s target hrun hstop rfl hbeyond
  exact ⟨_, engineStep_of_fetch_raise hrun hstop (fetch_of_beyond hbeyond), rfl, takeFault_epc _ _ s⟩

/-! ## Scalar arithmetic (45_support.md R235 to R238) -/

/-- `wrap32` is the wrapping of 00_scope.md R8. -/
theorem wrapsTo_wrap32 (x : Int) : wrapsTo (wrap32 x) x := by
  refine ⟨BitVec.le_toInt _, BitVec.toInt_lt, ?_⟩
  rw [wrap32_toInt]
  exact Int.dvd_self_sub_bmod

theorem exec_sli (s : State) (sd : SReg) (imm : BitVec 16) :
    exec (.sli sd imm) s = .next { s with sregs := s.sregs.set sd (wrap32 imm.toNat), pc := s.pc + 1 } := rfl

theorem exec_saddi (s : State) (sd sa : SReg) (imm : BitVec 16) :
    exec (.saddi sd sa imm) s =
      .next { s with sregs := s.sregs.set sd (wrap32 (s.sregs[sa].toInt + imm.toInt)), pc := s.pc + 1 } := rfl

theorem exec_sadd (s : State) (sd sa sb : SReg) :
    exec (.sadd sd sa sb) s =
      .next { s with sregs := s.sregs.set sd (wrap32 (s.sregs[sa].toInt + s.sregs[sb].toInt)), pc := s.pc + 1 } := rfl

theorem exec_ssub (s : State) (sd sa sb : SReg) :
    exec (.ssub sd sa sb) s =
      .next { s with sregs := s.sregs.set sd (wrap32 (s.sregs[sa].toInt - s.sregs[sb].toInt)), pc := s.pc + 1 } := rfl

/-- A zero-extended immediate fits a register (00_scope.md R8). -/
theorem wrap32_imm_toInt (imm : BitVec 16) : (wrap32 imm.toNat).toInt = imm.toNat :=
  wrap32_toInt_of_fits (by omega) (by omega)

/-- Settles O24: each instruction writes `wrap32` of its integer result, which is exact for a zero-extended immediate. -/
theorem scalarArithmeticWraps : Obligations.ScalarArithmeticWraps := fun s sd sa sb imm =>
  ⟨⟨_, wrap32_imm_toInt imm, exec_sli s sd imm⟩, ⟨_, wrapsTo_wrap32 _, exec_saddi s sd sa imm⟩,
    ⟨_, wrapsTo_wrap32 _, exec_sadd s sd sa sb⟩, ⟨_, wrapsTo_wrap32 _, exec_ssub s sd sa sb⟩⟩

/-! ## Scalar loads (45_support.md R239, R241) -/

/-- Four bytes make a word without a carry out of it. -/
theorem wordOfBytes_ofFn_toNat (B : Nat → Byte) : (wordOfBytes (Vec.ofFn 4 B)).toNat =
    (B 0).toNat + 2 ^ 8 * (B 1).toNat + 2 ^ 16 * (B 2).toNat + 2 ^ 24 * (B 3).toNat := by
  have hbytes : Vec.ofFn 4 B = [B 0, B 1, B 2, B 3] := rfl
  simp only [hbytes, wordOfBytes, BitVec.toNat_ofNat, List.getD_cons_zero, List.getD_cons_succ]
  omega

theorem exec_sload_of_holds {s : State} {sa : SReg} {B : Nat → Byte} (sd : SReg) (hr : inRange (scalarInt s sa) 4)
    (hB : holds s.dmem (scalarInt s sa).toNat 4 B) :
    exec (.sload sd sa) s =
      .next { s with sregs := s.sregs.set sd (wordOfBytes (Vec.ofFn 4 B)), pc := s.pc + 1 } :=
  finish_memRead_of_holds hr hB _

theorem exec_sloadb_of_holds {s : State} {sa : SReg} {B : Nat → Byte} (sd : SReg) (hr : inRange (scalarInt s sa) 1)
    (hB : holds s.dmem (scalarInt s sa).toNat 1 B) :
    exec (.sloadb sd sa) s = .next { s with sregs := s.sregs.set sd ((B 0).setWidth 32), pc := s.pc + 1 } := by
  rw [← wrap32_byteValue]
  exact finish_memRead_of_holds hr hB _

/-- Settles O25: the bytes held are the word's, low byte first, and one byte is zero-extended. -/
theorem scalarLoadsReadLittleEndian : Obligations.ScalarLoadsReadLittleEndian := by
  intro s sd sa
  refine ⟨fun B hr hB => ⟨_, wordOfBytes_ofFn_toNat B, exec_sload_of_holds sd hr hB⟩, fun hr => ?sloadFault,
    fun B hr hB => ⟨_, BitVec.toNat_setWidth_of_le (by decide), exec_sloadb_of_holds sd hr hB⟩, fun hr => ?sloadbFault⟩
  case sloadFault => exact finish_memRead_of_not_inRange hr _
  case sloadbFault => exact finish_memRead_of_not_inRange hr _

/-! ## Scalar stores (45_support.md R240, R242) -/

/-- Byte `k` of a word in memory order (20_memory.md R68). -/
theorem wordBytes_get (w : Word) {k : Nat} (hk : k < 4) : Vec.get (wordBytes w) k = w.extractLsb' (8 * k) 8 := by
  match k, hk with
  | 0, _ | 1, _ | 2, _ | 3, _ => rfl

/-- The low byte is the register value's remainder modulo 256 (45_support.md R242). -/
theorem low8_eq_ofInt_emod (w : Word) : low8 w = BitVec.ofInt 8 (w.toInt % 256) := by
  rw [← low8_toNat, BitVec.ofInt_natCast, BitVec.ofNat_toNat, BitVec.setWidth_eq]

theorem exec_sstore_of_inRange {s : State} {sa : SReg} (ss : SReg) (hr : inRange (scalarInt s sa) 4) :
    exec (.sstore ss sa) s = .next { s with
      dmem := putBytes s.dmem (scalarInt s sa).toNat (wordBytes s.sregs[ss]), pc := s.pc + 1 } :=
  finish_memWrite_of_inRange hr _

theorem exec_sstoreb_of_inRange {s : State} {sa : SReg} (ss : SReg) (hr : inRange (scalarInt s sa) 1) :
    exec (.sstoreb ss sa) s = .next { s with
      dmem := putBytes s.dmem (scalarInt s sa).toNat [low8 s.sregs[ss]], pc := s.pc + 1 } :=
  finish_memWrite_of_inRange hr _

/-- Settles O26: both store a run of bytes, `wordBytes` or `low8` alone. -/
theorem scalarStoresWriteLittleEndian : Obligations.ScalarStoresWriteLittleEndian := by
  intro s ss sa
  refine ⟨fun hr => ⟨_, exec_sstore_of_inRange ss hr, fun k hk => ?word, fun x hx => cellGet_putBytes_outside hx⟩,
    fun hr => ?sstoreFault,
    fun hr => ⟨_, exec_sstoreb_of_inRange ss hr, fun k hk => ?byte, fun x hx => cellGet_putBytes_outside hx⟩,
    fun hr => ?sstorebFault⟩
  case word =>
    have hlen : k < (wordBytes s.sregs[ss]).length := hk
    rw [cellGet_putBytes_get _ _ hlen, wordBytes_get _ hk]
  case byte =>
    obtain rfl : k = 0 := Nat.lt_one_iff.1 hk
    rw [cellGet_putBytes_get _ _ Nat.one_pos, ← low8_eq_ofInt_emod]
    rfl
  case sstoreFault => exact finish_memWrite_of_not_inRange hr _
  case sstorebFault => exact finish_memWrite_of_not_inRange hr _

end Sys2Proof.Machine
end

section
/-! SUPPORT. How an instruction can end: one rule per shared operation, then one line per instruction, against the table of causes
(60_exceptions.md R266, R290). -/

namespace Sys2Proof.Machine

/-! ## How a computation ends -/

/-- `r` gives a value with the property `P`, or raises a cause of `cs`, or is stuck at a cell never written (log 2). -/
def Ends {α : Type} (cs : List Cause) (P : α → Prop) (r : Res α) : Prop :=
  (∀ a, r = .ok a → P a) ∧ ∀ c info, r = .error (.raise c info) → c ∈ cs

/-- Nothing but registers, `pc` and DMEM differs. -/
def DataOnly (s t : State) : Prop :=
  t = { s with sregs := t.sregs, mregs := t.mregs, vregs := t.vregs, pc := t.pc, dmem := t.dmem }

theorem DataOnly.advance {s t : State} (h : DataOnly s t) : DataOnly s (advance t) := by
  rw [DataOnly] at h
  rw [h]
  rfl

theorem DataOnly.runState {s t : State} (h : DataOnly s t) : t.runState = s.runState := by
  rw [DataOnly] at h
  rw [h]

theorem dataOnly_branch (c : Bool) (target : CodeIndex) (s : State) : DataOnly s (branch c target s) := by
  rw [branch_eq]
  rfl

namespace Ends
variable {α β : Type} {cs cs' : List Cause} {P : β → Prop} {Q : α → Prop}

theorem ok {b : β} (h : P b) : Ends [] P (.ok b) := by
  refine ⟨?_, by rintro _ _ ⟨⟩⟩
  rintro _ ⟨⟩
  exact h

theorem raise (c : Cause) (info : Word) : Ends [c] P (raise c info) := by
  refine ⟨by rintro _ ⟨⟩, ?_⟩
  rintro _ _ ⟨⟩
  exact List.mem_singleton_self c

theorem stuck (f : Fault) : Ends [] P (.error (.stuck f)) := by
  refine ⟨?_, ?_⟩
  · rintro _ ⟨⟩
  · rintro _ _ ⟨⟩

theorem of_subset {r : Res β} (hr : Ends cs P r) (h : cs ⊆ cs') : Ends cs' P r := by
  obtain ⟨hok, hraise⟩ := hr
  exact ⟨hok, fun c info hc => h (hraise c info hc)⟩

/-- A sequence raises what its parts raise. -/
theorem bind {x : Res α} {f : α → Res β} (hx : Ends cs Q x) (hf : ∀ a, Q a → Ends cs' P (f a)) :
    Ends (cs ++ cs') P (x >>= f) := by
  obtain ⟨hok, hraise⟩ := hx
  rcases x with (⟨c, info⟩ | f) | a
  · exact of_subset (.raise c info) (by simp [hraise c info rfl])
  · exact of_subset (.stuck f) (List.nil_subset _)
  · exact of_subset (hf a (hok a rfl)) (List.subset_append_right _ _)

/-! ### Checks and reads -/

theorem require (p : Bool) (c : Cause) (info : Word) : Ends [c] (fun _ => True) (require p c info) := by
  cases p
  · exact .raise c info
  · exact of_subset (.ok trivial) (List.nil_subset _)

theorem checkRange (addr n : Int) : Ends [.accessFault] (fun _ => True) (checkRange addr n) := .require _ _ _

theorem readMat (s : State) (i : MReg) : Ends [.emptyOperand] (fun _ => True) (readMat s i) := by
  unfold Machine.readMat
  split
  · exact of_subset (.ok trivial) (List.nil_subset _)
  · exact .raise _ _

theorem readVec (s : State) (i : VReg) : Ends [.emptyOperand] (fun _ => True) (readVec s i) := by
  unfold Machine.readVec
  split
  · exact of_subset (.ok trivial) (List.nil_subset _)
  · exact .raise _ _

theorem byteAt (m : Memory) (a : Nat) : Ends [] (fun _ => True) (byteAt m a) := by
  unfold Machine.byteAt
  split
  · exact .ok trivial
  · exact .stuck _

theorem bytesAt (m : Memory) (a n : Nat) : Ends [] (fun _ => True) (bytesAt m a n) := by
  induction n generalizing a with
  | zero => exact .ok trivial
  | succ n ih => exact .bind (.byteAt m a) fun _ _ => .bind (ih (a + 1)) fun _ _ => .ok trivial

theorem memRead (s : State) (addr : Int) (n : Nat) : Ends [.accessFault] (fun _ => True) (memRead s addr n) :=
  .bind (.checkRange _ _) fun _ _ => .bytesAt _ _ _

theorem memWrite (s : State) (addr : Int) (bs : List Byte) : Ends [.accessFault] (DataOnly s) (memWrite s addr bs) :=
  .bind (.checkRange _ _) fun _ _ => .ok rfl

/-! ### The parts of single instructions -/

theorem invertOrRaise (A : Mat) : Ends [.singularMatrix] (fun _ => True) (invertOrRaise A) := by
  unfold Machine.invertOrRaise
  split
  · exact of_subset (.ok trivial) (List.nil_subset _)
  · exact .raise _ _

theorem readCandidates (m : Memory) (count : Int) (a k : Nat) :
    Ends [.operandRange] (fun _ => True) (readCandidates m count a k) := by
  induction k generalizing a with
  | zero => exact of_subset (.ok trivial) (List.nil_subset _)
  | succ k ih =>
    refine of_subset (.bind (.byteAt m a) fun _ _ => .bind (.byteAt m (a + 1)) fun _ _ => .bind (.require _ _ _) fun _ _ =>
      .bind (ih (a + 2)) fun _ _ => .ok trivial) ?_
    simp

theorem readBlocks (m : Memory) (base n : Nat) (is : List Nat) : Ends [] (fun _ => True) (readBlocks m base n is) := by
  induction is with
  | nil => exact .ok trivial
  | cons i is ih => exact .bind (.bytesAt _ _ _) fun _ _ => .bind ih fun _ _ => .ok trivial

theorem trial (m : Memory) (p : Samples) (comb : List Nat) : Ends [] (fun _ => True) (trial m p comb) := by
  refine .bind (.bytesAt _ _ _) fun x0 _ => .bind (.readBlocks _ _ _ _) fun xs _ => ?_
  split
  · exact .ok trivial
  · exact .bind (.bytesAt _ _ _) fun _ _ => .bind (.readBlocks _ _ _ _) fun _ _ => .ok trivial

theorem search (m : Memory) (p : Samples) (combs : List (List Nat)) :
    Ends [.recoveryExhausted] (fun _ => True) (search m p combs) := by
  induction combs with
  | nil => exact .raise _ _
  | cons comb combs ih =>
    refine .bind (.trial m p comb) fun key _ => ?_
    cases key with
    | some key => exact of_subset (.ok trivial) (List.nil_subset _)
    | none => exact ih

/-- The register forms of the cipher (43_cipher.md R192, R194). -/
theorem blockTransform (f : Mat → Vec → Vec → Vec) (vd : VReg) (ma : MReg) (vx vb : VReg) (s : State) :
    Ends [.emptyOperand, .emptyOperand, .emptyOperand, .dimensionMismatch] (DataOnly s) (blockTransform f vd ma vx vb s) :=
  .bind (.readMat s ma) fun _ _ => .bind (.readVec s vx) fun _ _ => .bind (.readVec s vb) fun _ _ =>
    .bind (.require _ _ _) fun _ _ => .ok rfl

/-- The memory forms of the cipher (43_cipher.md R197). -/
theorem runTransform (f : Mat → Vec → Vec → Vec) (ma : MReg) (vb : VReg) (ssrc sdst scnt : SReg) (s : State) :
    Ends [.emptyOperand, .emptyOperand, .dimensionMismatch, .operandRange, .accessFault, .accessFault, .accessFault]
      (DataOnly s) (runTransform f ma vb ssrc sdst scnt s) :=
  .bind (.readMat s ma) fun _ _ => .bind (.readVec s vb) fun _ _ => .bind (.require _ _ _) fun _ _ =>
    .bind (.require _ _ _) fun _ _ => .bind (.checkRange _ _) fun _ _ => .bind (.checkRange _ _) fun _ _ =>
    .bind (.require _ _ _) fun _ _ => .bind (.bytesAt _ _ _) fun _ _ => .ok rfl

end Ends

/-! ## How an instruction ends (60_exceptions.md R266, R290) -/

/-- The next state is the effect of a computation that completes, or the fault it raises, taken from the state before it. -/
theorem next_of_finish {s t : State} {r : Res State} {cs cs' : List Cause} {P : State → Prop}
    (h : finish s r = .next t) (hcs : cs ⊆ cs') (hr : Ends cs P r) : P t ∨ ∃ c ∈ cs', ∃ info, t = takeFault c info s := by
  obtain ⟨hok, hraise⟩ := hr
  obtain rfl | ⟨c, info, rfl, rfl⟩ := finish_next.1 h
  · exact .inl (hok t rfl)
  · exact .inr ⟨c, hcs (hraise c info rfl), info, rfl⟩

/-- An instruction is HALT, or changes data only, or takes a fault the table allows it: its operands, checks and accesses follow the
rules above, in the order of its meaning. -/
theorem next_of_exec {i : Instr} {s t : State} (h : exec i s = .next t) :
    (i = .halt ∧ t = { advance s with runState := .halted, stopReq := false }) ∨ DataOnly s t ∨
      ∃ c ∈ allowedCauses i, ∃ info, t = takeFault c info s := by
  cases i with
  | halt =>
    cases h
    exact .inl ⟨rfl, rfl⟩
  | nop | jmp | sli | saddi | sadd | ssub | modred | mident =>
    cases h
    exact .inr (.inl rfl)
  | beqz | bnez =>
    cases h
    exact .inr (.inl (dataOnly_branch _ _ s))
  | sload | sloadb | mload | vload =>
    exact .inr <| next_of_finish h (by simp [allowedCauses]) <|
      .bind (.memRead s _ _) fun _ _ => .ok rfl
  | sstore | sstoreb =>
    exact .inr <| next_of_finish h (by simp [allowedCauses]) <|
      .bind (.memWrite s _ _) fun _ ht => .ok ht.advance
  | mstore =>
    exact .inr <| next_of_finish h (by simp [allowedCauses]) <|
      .bind (.readMat s _) fun _ _ => .bind (.memWrite s _ _) fun _ ht => .ok ht.advance
  | vstore =>
    exact .inr <| next_of_finish h (by simp [allowedCauses]) <|
      .bind (.readVec s _) fun _ _ => .bind (.memWrite s _ _) fun _ ht => .ok ht.advance
  | xgcd => exact .inr <| next_of_finish h (by simp [allowedCauses]) <| .bind (.require _ _ _) fun _ _ => .ok rfl
  | modinv sd sa =>
    refine .inr (next_of_finish h (List.Subset.refl [Cause.noInverse]) ?_)
    split
    · exact .of_subset (.ok rfl) (List.nil_subset _)
    · exact .raise _ _
  | mcopy | mtrans => exact .inr <| next_of_finish h (by simp [allowedCauses]) <| .bind (.readMat s _) fun _ _ => .ok rfl
  | vcopy => exact .inr <| next_of_finish h (by simp [allowedCauses]) <| .bind (.readVec s _) fun _ _ => .ok rfl
  | mmul =>
    exact .inr <| next_of_finish h (by simp [allowedCauses]) <|
      .bind (.readMat s _) fun _ _ => .bind (.readMat s _) fun _ _ =>
      .bind (.require _ _ _) fun _ _ => .ok rfl
  | minvert =>
    exact .inr <| next_of_finish h (by simp [allowedCauses]) <|
      .bind (.readMat s _) fun _ _ => .bind (.require _ _ _) fun _ _ =>
      .bind (.invertOrRaise _) fun _ _ => .ok rfl
  | mvmul =>
    exact .inr <| next_of_finish h (by simp [allowedCauses]) <|
      .bind (.readMat s _) fun _ _ => .bind (.readVec s _) fun _ _ =>
      .bind (.require _ _ _) fun _ _ => .ok rfl
  | vadd | vsub =>
    exact .inr <| next_of_finish h (by simp [allowedCauses]) <|
      .bind (.readVec s _) fun _ _ => .bind (.readVec s _) fun _ _ =>
      .bind (.require _ _ _) fun _ _ => .ok rfl
  | affenc | affdec => exact .inr <| next_of_finish h (by simp [allowedCauses]) <| .blockTransform _ _ _ _ _ s
  | encrypt | decrypt => exact .inr <| next_of_finish h (by simp [allowedCauses]) <| .runTransform _ _ _ _ _ _ s
  | recover =>
    exact .inr <| next_of_finish h (by simp [allowedCauses]) <|
      .bind (.require _ _ _) fun _ _ => .bind (.checkRange _ _) fun _ _ =>
      .bind (.checkRange _ _) fun _ _ => .bind (.checkRange _ _) fun _ _ => .bind (.readCandidates _ _ _ _) fun _ _ =>
      .bind (.search _ _ _) fun _ _ => .ok rfl

/-- Settles O9: HALT ends in HALTED, and an instruction that changes data only leaves the run state as it was. -/
theorem faultingInstructionsChangeOnlyTheFaultRecord : Obligations.FaultingInstructionsChangeOnlyTheFaultRecord := by
  intro i s t hs h ht
  obtain ⟨-, rfl⟩ | hdata | hfault := next_of_exec h
  · cases ht
  · exact absurd (hdata.runState.symm.trans ht) hs
  · exact hfault

end Sys2Proof.Machine
end

section
/-! SUPPORT. What every step of the engine and of the host keeps of the fault record, the engine's step in its order, and taking a
fault (60_exceptions.md R262, R278, R287). -/

namespace Sys2Proof.Machine

/-! ## The fault record (60_exceptions.md R278) -/

/-- Outside FAULTED the record is in order when it is 0. -/
theorem recordOk_iff_of_not_faulted {s : State} (h : s.runState ≠ .faulted) :
    s.recordOk ↔ s.ecause = 0 ∧ s.epc = 0 ∧ s.einfo = 0 :=
  ⟨fun ⟨_, hzero⟩ => hzero h, fun ⟨hc, hrest⟩ => ⟨iff_of_false (not_not.2 hc) h, fun _ => ⟨hc, hrest⟩⟩⟩

theorem causeCode_ne_zero (c : Cause) : causeCode c ≠ 0 := by
  cases c <;> decide

theorem recordOk_takeFault (c : Cause) (info : Word) (s : State) : (takeFault c info s).recordOk :=
  ⟨iff_of_true (causeCode_ne_zero c) rfl, absurd rfl⟩

theorem recordOk_resetEvent (s : State) : (resetEvent s).recordOk :=
  (recordOk_iff_of_not_faulted (by simp)).2 ⟨rfl, rfl, rfl⟩

/-- A record in order stays so when the machine goes from one run state other than FAULTED to another and writes no part of it. -/
theorem recordOk_of_not_faulted {s t : State} (h : s.recordOk) (hs : s.runState ≠ .faulted) (ht : t.runState ≠ .faulted)
    (hc : t.ecause = s.ecause) (hp : t.epc = s.epc) (hi : t.einfo = s.einfo) : t.recordOk := by
  rw [recordOk_iff_of_not_faulted ht, hc, hp, hi]
  exact (recordOk_iff_of_not_faulted hs).1 h

theorem DataOnly.recordOk {s t : State} (h : DataOnly s t) (hs : s.recordOk) : t.recordOk := by
  rw [DataOnly] at h
  rw [h]
  exact hs

theorem recordOk_exec {i : Instr} {s t : State} (h : s.recordOk) (hrun : s.runState = .running) (ht : exec i s = .next t) :
    t.recordOk := by
  obtain ⟨-, rfl⟩ | hdata | ⟨c, -, info, rfl⟩ := next_of_exec ht
  · exact recordOk_of_not_faulted h (by simp [hrun]) (by simp) rfl rfl rfl
  · exact hdata.recordOk h
  · exact recordOk_takeFault c info s

theorem recordOk_clearFault {s : State} (h : s.recordOk) : (clearFault s).recordOk := by
  unfold clearFault
  split
  · exact (recordOk_iff_of_not_faulted (by simp)).2 ⟨rfl, rfl, rfl⟩
  · exact h

theorem recordOk_ctrlStart {s : State} (h : s.recordOk) : (ctrlStart s).recordOk := by
  unfold ctrlStart
  split
  next hrest =>
    have hs : s.runState ≠ .faulted := by rcases hrest with hr | hr <;> simp [hr]
    exact recordOk_of_not_faulted h hs (by simp) rfl rfl rfl
  next => exact h

theorem recordOk_ctrlStop {s : State} (h : s.recordOk) : (ctrlStop s).recordOk := by
  unfold ctrlStop
  split <;> exact h

/-- A command that a write of CTRL sends or does not send. -/
theorem recordOk_ite (b : Bool) {s t : State} (hs : s.recordOk) (ht : t.recordOk) : (if b then s else t).recordOk := by
  cases b <;> assumption

theorem recordOk_ctrlWrite (d : Word) {s : State} (h : s.recordOk) : (ctrlWrite d s).recordOk := by
  have hclear := recordOk_ite (d.getLsbD 2) (recordOk_clearFault h) h
  have hstart := recordOk_ite (d.getLsbD 0) (recordOk_ctrlStart hclear) hclear
  exact recordOk_ite (d.getLsbD 3) (recordOk_resetEvent s) (recordOk_ite (d.getLsbD 1) (recordOk_ctrlStop hstart) hstart)

/-- Of all the host can write, only a write of CTRL reaches the record or the run state. -/
theorem recordOk_hostWrite32 {a : Nat} {d : Word} {s t : State} (h : s.recordOk) (ht : hostWrite32 a d s = some t) :
    t.recordOk := by
  obtain ⟨-, hreg⟩ | ⟨-, -, rfl⟩ := hostWrite32_some ht
  · obtain ⟨-, rfl⟩ | ⟨-, -, rfl⟩ | ⟨-, rfl⟩ | ⟨-, -, rfl⟩ := csrWrite_some hreg
    · exact recordOk_ctrlWrite d h
    all_goals exact h
  · exact h

theorem recordOk_finishWrite {s : State} {r : Option State} (h : s.recordOk) (hr : ∀ t, r = some t → t.recordOk) :
    (finishWrite s r).recordOk := by
  cases r with
  | some t => exact hr t rfl
  | none => exact h

theorem recordOk_hostAct {op : HostOp} {s t : State} (h : s.recordOk) (ht : hostAct op s = .next t) : t.recordOk := by
  cases op with
  | read8 | read32 =>
    obtain ⟨_, -, rfl⟩ := finishRead_next ht
    exact h
  | write8 a d =>
    cases ht
    refine recordOk_finishWrite h fun t ht => ?_
    obtain ⟨-, -, rfl⟩ := hostWrite8_some ht
    exact h
  | write32 a d =>
    cases ht
    exact recordOk_finishWrite h fun _ => recordOk_hostWrite32 h
  | reset =>
    cases ht
    exact recordOk_resetEvent s

/-! ## The engine's step (60_exceptions.md R287) -/

/-- A pending stop request is honoured before the fetch (60_exceptions.md R284). -/
theorem engineStep_of_stopReq {s : State} (hrun : s.runState = .running) (hstop : s.stopReq = true) :
    engineStep s = .next { s with runState := .idle, stopReq := false } := by
  rw [engineStep, if_neg (not_not.2 hrun), if_pos hstop]

theorem engineStep_of_decode {s : State} {w : Word} {i : Instr} (hrun : s.runState = .running) (hstop : s.stopReq = false)
    (hfetch : fetch s = .ok w) (hi : decode w = .ok i) : engineStep s = exec i s := by
  have hinstr : fetchInstr s = .ok i := by simp only [fetchInstr, hfetch, ok_bind, hi, res_pure]
  rw [engineStep, if_neg (not_not.2 hrun), if_neg (by simp [hstop]), hinstr]

/-- Everything a step of the engine can do. -/
theorem engineStep_next {s t : State} (h : engineStep s = .next t) :
    (s.runState ≠ .running ∧ t = s) ∨
    (s.runState = .running ∧
      (t = { s with runState := .idle, stopReq := false } ∨ (∃ i, exec i s = .next t) ∨
        ∃ c info, t = takeFault c info s)) := by
  unfold engineStep at h
  split at h
  next hrest =>
    cases h
    exact .inl ⟨hrest, rfl⟩
  next hrun =>
    refine .inr ⟨not_not.1 hrun, ?_⟩
    split at h
    · cases h
      exact .inl rfl
    · split at h
      next i _ => exact .inr (.inl ⟨i, h⟩)
      next c info _ =>
        cases h
        exact .inr (.inr ⟨c, info, rfl⟩)
      next => cases h

theorem recordOk_engineStep {s t : State} (h : s.recordOk) (ht : engineStep s = .next t) : t.recordOk := by
  obtain ⟨-, rfl⟩ | ⟨hrun, rfl | ⟨i, hi⟩ | ⟨c, info, rfl⟩⟩ := engineStep_next ht
  · exact h
  · exact recordOk_of_not_faulted h (by simp [hrun]) (by simp) rfl rfl rfl
  · exact recordOk_exec h hrun hi
  · exact recordOk_takeFault c info s

/-- Settles O14: the engine's turns and the host's both keep the record in order, and taking the turn off the list touches no part
of it. -/
theorem faultRecordAgreesWithTheRunState : Obligations.FaultRecordAgreesWithTheRunState := by
  refine ⟨(recordOk_iff_of_not_faulted (by simp)).2 ⟨rfl, rfl, rfl⟩, fun s t h ht => ?_⟩
  unfold step turnStep at ht
  split at ht
  next => exact recordOk_engineStep h ht
  next ts _ => exact recordOk_engineStep (s := { s with turns := ts }) h ht
  next op ts _ => exact recordOk_hostAct (s := { s with turns := ts }) h ht

/-- Settles O7, by the equation of the engine's step in each case. -/
theorem engineStepFollowsItsOrder : Obligations.EngineStepFollowsItsOrder := by
  refine fun s => ⟨engineStep_of_not_running, engineStep_of_stopReq, fun hrun hstop => ⟨fun hbeyond => ?_,
    fun w hpc hw => ⟨fun e he => ?_, fun i hi => ?_⟩⟩⟩
  · exact engineStep_of_fetch_raise hrun hstop (fetch_of_beyond hbeyond)
  · exact engineStep_of_illegal hrun hstop (fetch_of_held hpc hw) he
  · exact engineStep_of_decode hrun hstop (fetch_of_held hpc hw) hi

/-! ## Taking a fault (60_exceptions.md R262, R263) -/

/-- In FAULTED the interrupt output is the FAULT_IE bit (60_exceptions.md R276). -/
theorem irq_of_faulted {s : State} (h : s.runState = .faulted) : irq s = s.ie.getLsbD 1 := by
  simp [irq, faultIe, h]

/-- Settles O8: the record is written as the model says, the engine rests in FAULTED, and irq shows FAULT_IE there. -/
theorem faultEntryWritesOnlyTheRecord : Obligations.FaultEntryWritesOnlyTheRecord := by
  intro c info s
  refine ⟨rfl, ?rests, irq_of_faulted (takeFault_runState c info s), by decide⟩
  case rests => exact engineStep_of_not_running (by simp)

end Sys2Proof.Machine
end

section
/-! SUPPORT. The decoder and the encoder are inverse to each other: for every operand form, the fields it accepts are those of one
word, so a word decodes to an instruction exactly when the instruction is well-formed and the word is its encoding
(30_encoding.md R91 to R97). With it, the statements on the two round trips and on the table of match and mask. -/

namespace Sys2Proof

/-! ## The word with given fields (30_encoding.md R91, R92) -/

/-- A word of layout R is told by its fields, the Z nibble being 0. -/
theorem wordR_eq_iff {op f1 f2 f3 f4 f5 : Nat} {w : Word} (ho : op < 256) (h1 : f1 < 16) (h2 : f2 < 16) (h3 : f3 < 16)
    (h4 : f4 < 16) (h5 : f5 < 16) :
    wordR op f1 f2 f3 f4 f5 = w ↔ (fieldOpcode w).toNat = op ∧ (fieldF1 w).toNat = f1 ∧ (fieldF2 w).toNat = f2 ∧
      (fieldF3 w).toNat = f3 ∧ (fieldF4 w).toNat = f4 ∧ (fieldF5 w).toNat = f5 ∧ (fieldZ w).toNat = 0 := by
  constructor
  · rintro rfl
    exact ⟨fieldOpcode_wordR ho h1 h2 h3 h4 h5, fieldF1_wordR ho h1 h2 h3 h4 h5, fieldF2_wordR ho h1 h2 h3 h4 h5,
      fieldF3_wordR ho h1 h2 h3 h4 h5, fieldF4_wordR ho h1 h2 h3 h4 h5, fieldF5_wordR ho h1 h2 h3 h4 h5,
      fieldZ_wordR ho h1 h2 h3 h4 h5⟩
  · rw [fieldOpcode_toNat, fieldF1_toNat, fieldF2_toNat, fieldF3_toNat, fieldF4_toNat, fieldF5_toNat, fieldZ_toNat]
    intro hfields
    apply BitVec.eq_of_toNat_eq
    rw [wordR_toNat ho h1 h2 h3 h4 h5]
    have := w.isLt
    omega

/-- A word of layout I is told by its fields. -/
theorem wordI_eq_iff {op f1 f2 : Nat} {imm : BitVec 16} {w : Word} (ho : op < 256) (h1 : f1 < 16) (h2 : f2 < 16) :
    wordI op f1 f2 imm = w ↔
      (fieldOpcode w).toNat = op ∧ (fieldF1 w).toNat = f1 ∧ (fieldF2 w).toNat = f2 ∧ fieldImm w = imm := by
  constructor
  · rintro rfl
    exact ⟨fieldOpcode_wordI ho h1 h2, fieldF1_wordI ho h1 h2, fieldF2_wordI ho h1 h2, fieldImm_wordI ho h1 h2⟩
  · rw [← BitVec.toNat_inj (x := fieldImm w), fieldOpcode_toNat, fieldF1_toNat, fieldF2_toNat, fieldImm_toNat]
    intro hfields
    apply BitVec.eq_of_toNat_eq
    rw [wordI_toNat ho h1 h2]
    have := w.isLt
    omega

/-! ## What a slot gives (30_encoding.md R93) -/

@[simp] theorem bind_eq_ok_iff {α β : Type} {x : Except Illegal α} {f : α → Except Illegal β} {b : β} :
    (x >>= f) = .ok b ↔ ∃ a, x = .ok a ∧ f a = .ok b := by
  cases x <;> simp [bind, Except.bind]

@[simp] theorem map_eq_ok_iff {α β : Type} {x : Except Illegal α} {f : α → β} {b : β} :
    f <$> x = .ok b ↔ ∃ a, x = .ok a ∧ f a = b := by
  cases x <;> simp [Functor.map, Except.map]

@[simp] theorem pure_eq_ok_iff {α : Type} {a b : α} : (pure a : Except Illegal α) = .ok b ↔ a = b := Except.ok.injEq a b ▸ Iff.rfl

@[simp] theorem slotS_eq_iff {x : BitVec 4} {r : SReg} : slotS x = r ↔ x.toNat = r.val := Fin.ext_iff

@[simp] theorem slotMV_eq_ok_iff {x : BitVec 4} {r : Fin 8} : slotMV x = .ok r ↔ x.toNat = r.val := by
  unfold slotMV
  split
  next h => simp [Fin.ext_iff]
  next h => simp; omega

@[simp] theorem slotD_eq_ok_iff {x : BitVec 4} {d : Nat} : slotD x = .ok d ↔ dimOk d = true ∧ x.toNat = d := by
  unfold slotD
  split
  next h => simp; rintro rfl; exact h
  next h => simp; rintro hd rfl; exact h hd

@[simp] theorem slotZero_eq_ok_iff {x : BitVec 4} {u : Unit} : slotZero x = .ok u ↔ x.toNat = 0 := by
  have hx : x.toNat = 0 ↔ x = 0 := BitVec.toNat_inj (y := 0)
  rw [hx]
  unfold slotZero
  split
  next h => exact iff_of_true rfl h
  next h => exact iff_of_false nofun h

/-! ## What an operand form gives -/

section Forms
variable {w : Word} {op : Nat}

@[simp] theorem tailF5_eq_ok_iff {u : Unit} : tailF5 w = .ok u ↔ (fieldF5 w).toNat = 0 ∧ (fieldZ w).toNat = 0 := by
  simp [tailF5]

@[simp] theorem tailF4_eq_ok_iff {u : Unit} : tailF4 w = .ok u ↔
    (fieldF4 w).toNat = 0 ∧ (fieldF5 w).toNat = 0 ∧ (fieldZ w).toNat = 0 := by
  simp [tailF4]

@[simp] theorem tailF3_eq_ok_iff {u : Unit} : tailF3 w = .ok u ↔
    (fieldF3 w).toNat = 0 ∧ (fieldF4 w).toNat = 0 ∧ (fieldF5 w).toNat = 0 ∧ (fieldZ w).toNat = 0 := by
  simp [tailF3]

@[simp] theorem tailF1_eq_ok_iff {u : Unit} : tailF1 w = .ok u ↔ (fieldF1 w).toNat = 0 ∧ (fieldF2 w).toNat = 0 ∧
    (fieldF3 w).toNat = 0 ∧ (fieldF4 w).toNat = 0 ∧ (fieldF5 w).toNat = 0 ∧ (fieldZ w).toNat = 0 := by
  simp [tailF1]

theorem twoS_eq_ok_iff (hop : (fieldOpcode w).toNat = op) {mk : SReg → SReg → Instr} {a b : SReg}
    (hmk : ∀ a' b', mk a' b' = mk a b ↔ a' = a ∧ b' = b) :
    twoS w mk = .ok (mk a b) ↔ wordR op a b 0 0 0 = w := by
  have ho : op < 256 := hop ▸ (fieldOpcode w).isLt
  rw [wordR_eq_iff ho (by omega) (by omega) (by omega) (by omega) (by omega)]
  simp [twoS, hmk, hop]
  tauto

theorem threeS_eq_ok_iff (hop : (fieldOpcode w).toNat = op) {mk : SReg → SReg → SReg → Instr} {a b c : SReg}
    (hmk : ∀ a' b' c', mk a' b' c' = mk a b c ↔ a' = a ∧ b' = b ∧ c' = c) :
    threeS w mk = .ok (mk a b c) ↔ wordR op a b c 0 0 = w := by
  have ho : op < 256 := hop ▸ (fieldOpcode w).isLt
  rw [wordR_eq_iff ho (by omega) (by omega) (by omega) (by omega) (by omega)]
  simp [threeS, hmk, hop]
  tauto

theorem oneMVoneS_eq_ok_iff (hop : (fieldOpcode w).toNat = op) {mk : Fin 8 → SReg → Instr} {r : Fin 8} {a : SReg}
    (hmk : ∀ r' a', mk r' a' = mk r a ↔ r' = r ∧ a' = a) :
    oneMVoneS w mk = .ok (mk r a) ↔ wordR op r a 0 0 0 = w := by
  have ho : op < 256 := hop ▸ (fieldOpcode w).isLt
  rw [wordR_eq_iff ho (by omega) (by omega) (by omega) (by omega) (by omega)]
  simp [oneMVoneS, hmk, hop]
  tauto

theorem twoMV_eq_ok_iff (hop : (fieldOpcode w).toNat = op) {mk : Fin 8 → Fin 8 → Instr} {r1 r2 : Fin 8}
    (hmk : ∀ a b, mk a b = mk r1 r2 ↔ a = r1 ∧ b = r2) :
    twoMV w mk = .ok (mk r1 r2) ↔ wordR op r1 r2 0 0 0 = w := by
  have ho : op < 256 := hop ▸ (fieldOpcode w).isLt
  rw [wordR_eq_iff ho (by omega) (by omega) (by omega) (by omega) (by omega)]
  simp [twoMV, hmk, hop]

theorem threeMV_eq_ok_iff (hop : (fieldOpcode w).toNat = op) {mk : Fin 8 → Fin 8 → Fin 8 → Instr} {r1 r2 r3 : Fin 8}
    (hmk : ∀ a b c, mk a b c = mk r1 r2 r3 ↔ a = r1 ∧ b = r2 ∧ c = r3) :
    threeMV w mk = .ok (mk r1 r2 r3) ↔ wordR op r1 r2 r3 0 0 = w := by
  have ho : op < 256 := hop ▸ (fieldOpcode w).isLt
  rw [wordR_eq_iff ho (by omega) (by omega) (by omega) (by omega) (by omega)]
  simp [threeMV, hmk, hop]

theorem fourMV_eq_ok_iff (hop : (fieldOpcode w).toNat = op) {mk : Fin 8 → Fin 8 → Fin 8 → Fin 8 → Instr}
    {r1 r2 r3 r4 : Fin 8} (hmk : ∀ a b c d, mk a b c d = mk r1 r2 r3 r4 ↔ a = r1 ∧ b = r2 ∧ c = r3 ∧ d = r4) :
    fourMV w mk = .ok (mk r1 r2 r3 r4) ↔ wordR op r1 r2 r3 r4 0 = w := by
  have ho : op < 256 := hop ▸ (fieldOpcode w).isLt
  rw [wordR_eq_iff ho (by omega) (by omega) (by omega) (by omega) (by omega)]
  simp [fourMV, hmk, hop]

theorem blockRun_eq_ok_iff (hop : (fieldOpcode w).toNat = op) {mk : Fin 8 → Fin 8 → SReg → SReg → SReg → Instr}
    {r1 r2 : Fin 8} {a b c : SReg}
    (hmk : ∀ p q x y z, mk p q x y z = mk r1 r2 a b c ↔ p = r1 ∧ q = r2 ∧ x = a ∧ y = b ∧ z = c) :
    blockRun w mk = .ok (mk r1 r2 a b c) ↔ wordR op r1 r2 a b c = w := by
  have ho : op < 256 := hop ▸ (fieldOpcode w).isLt
  rw [wordR_eq_iff ho (by omega) (by omega) (by omega) (by omega) (by omega)]
  simp [blockRun, hmk, hop]
  tauto

end Forms

/-! ## The two round trips (30_encoding.md R97) -/

open Laws.OpcodeField in
/-- The opcode field of an encoding, for every instruction of the family. -/
theorem fieldOpcode_encode (i : Instr) : Statement i := by
  cases i
  exacts [nop, halt, jmp _, beqz _ _, bnez _ _, sli _ _, saddi _ _ _, sadd _ _ _, ssub _ _ _, sload _ _, sstore _ _,
    sloadb _ _, sstoreb _ _, xgcd _ _ _ _ _, modinv _ _, modred _ _, mload _ _ _ _, mstore _ _, mident _ _, mcopy _ _,
    mmul _ _ _, mtrans _ _, minvert _ _, mvmul _ _ _, vload _ _ _, vstore _ _, vcopy _ _, vadd _ _ _, vsub _ _ _,
    affenc _ _ _ _, affdec _ _ _ _, encrypt _ _ _ _ _, decrypt _ _ _ _ _, recover _ _ _]

/-- With the opcode given, the row of the decoder accepts exactly the word the encoder builds. -/
theorem decode_eq_ok_iff_of_opcode {w : Word} {i : Instr} (hop : (fieldOpcode w).toNat = i.opcode) :
    decode w = .ok i ↔ i.wf = true ∧ encode i = w := by
  rw [decode, hop]
  cases i <;> dsimp only [Instr.opcode, Instr.wf, encode] at hop ⊢ <;> simp only [true_and]
  case sload | sstore | sloadb | sstoreb | modinv | modred => exact twoS_eq_ok_iff hop (by simp)
  case sadd | ssub => exact threeS_eq_ok_iff hop (by simp)
  case mstore | vstore => exact oneMVoneS_eq_ok_iff hop (by simp)
  case mcopy | mtrans | minvert | vcopy => exact twoMV_eq_ok_iff hop (by simp)
  case mmul | mvmul | vadd | vsub => exact threeMV_eq_ok_iff hop (by simp)
  case affenc | affdec => exact fourMV_eq_ok_iff hop (by simp)
  case encrypt | decrypt => exact blockRun_eq_ok_iff hop (by simp)
  case jmp | beqz | bnez | saddi => rw [wordI_eq_iff (by omega) (by omega) (by omega)]; simp [hop]
  case sli => rw [wordI_eq_iff (by omega) (by omega) (by omega)]; simp [hop]; tauto
  case nop | halt =>
    rw [wordR_eq_iff (by omega) (by omega) (by omega) (by omega) (by omega) (by omega)]; simp [hop]
  case xgcd =>
    rw [wordR_eq_iff (by omega) (by omega) (by omega) (by omega) (by omega) (by omega)]; simp [hop]; tauto
  case mident | vload | recover =>
    rw [and_congr_right fun h => wordR_eq_iff (by omega) (by omega) (by omega) (dimOk_lt h) (by omega) (by omega)]
    simp [hop]
    grind
  case mload =>
    rw [Bool.and_eq_true, and_congr_right fun h => wordR_eq_iff (by omega) (by omega) (by omega) (dimOk_lt h.1)
      (dimOk_lt h.2) (by omega)]
    simp [hop]
    grind

theorem decode_eq_ok_iff (w : Word) (i : Instr) : decode w = .ok i ↔ i.wf = true ∧ encode i = w := by
  by_cases hop : (fieldOpcode w).toNat = i.opcode
  · exact decode_eq_ok_iff_of_opcode hop
  · refine iff_of_false (fun h => hop (opcode_of_decode h).symm) ?_
    rintro ⟨hwf, rfl⟩
    exact hop (fieldOpcode_encode i hwf)

/-- Settles O1: the encoding of a well-formed instruction is the word that decodes to it. -/
theorem decodeInvertsEncode : Obligations.DecodeInvertsEncode := fun i hwf => (decode_eq_ok_iff _ i).2 ⟨hwf, rfl⟩

/-- Settles O2: a word that decodes is that encoding. -/
theorem encodeInvertsDecode : Obligations.EncodeInvertsDecode := fun w i h => (decode_eq_ok_iff w i).1 h

/-! ## The table of match and mask (30_encoding.md R95) -/

theorem fieldOpcode_append (x : BitVec 8) (y : BitVec 24) : fieldOpcode (x ++ y : BitVec 32) = x :=
  BitVec.extractLsb'_append_eq_left

/-- A word that passes a row has the row's opcode: the mask holds the opcode byte. -/
theorem opcode_of_legal {w : Word} {row : EncodingRow} (hrow : row ∈ encodingTable) (h : row.legal w) :
    row.opcode = (fieldOpcode w).toNat := by
  obtain ⟨hmask, hpattern⟩ := encodingTable_opcode_byte row hrow
  obtain ⟨hbits, -⟩ := h
  have hlt : ∀ row ∈ encodingTable, row.opcode < 256 := by simp [encodingTable]
  have hand : fieldOpcode (w &&& row.mask) = fieldOpcode w &&& fieldOpcode row.mask := BitVec.extractLsb'_and
  have hall : fieldOpcode w &&& 0xFF#8 = fieldOpcode w := BitVec.and_allOnes
  have hop : fieldOpcode w = BitVec.ofNat 8 row.opcode := by
    rw [hbits, hpattern, hmask, fieldOpcode_append, fieldOpcode_append, hall] at hand
    exact hand.symm
  rw [hop, BitVec.toNat_ofNat, Nat.mod_eq_of_lt (hlt row hrow)]

/-- Settles O3: an opcode of no row is refused, and a word with the opcode of a row decodes exactly when it passes the row. -/
theorem legalWordsAreThoseOfTheEncodingTable : Obligations.LegalWordsAreThoseOfTheEncodingTable := by
  refine ⟨fun w i h => ?_, fun w row hrow hlegal => ?_⟩
  · by_cases hres : ∀ row ∈ encodingTable, row.opcode ≠ (fieldOpcode w).toNat
    · rw [decode_of_reserved hres] at h
      cases h
    · push Not at hres
      obtain ⟨row, hrow, hop⟩ := hres
      exact ⟨row, hrow, hop.trans (opcode_of_decode h).symm, (decode_ok_iff_legal hrow hop).1 ⟨i, h⟩⟩
  · have hop := opcode_of_legal hrow hlegal
    obtain ⟨i, hi⟩ := (decode_ok_iff_legal hrow hop).2 hlegal
    exact ⟨i, hi, (opcode_of_decode hi).trans hop.symm⟩

end Sys2Proof
end

section
/-! SUPPORT. What every instruction but HALT does when it completes: the places it may write, the pc it leaves, and that what it writes
is well-formed; one rule per operation, then one line per instruction (10_state.md R22 to R29, 20_memory.md R66). -/

namespace Sys2Proof.Machine

/-! ## What a computation gives -/

/-- Whatever `r` gives has the property `P`. -/
def Gives {α : Type} (P : α → Prop) (r : Res α) : Prop := ∀ a, r = .ok a → P a

namespace Gives
variable {α β : Type} {P : β → Prop} {Q : α → Prop}

theorem ok {b : β} (h : P b) : Gives P (.ok b) := by
  rintro _ ⟨⟩
  exact h

theorem raise (c : Cause) (info : Word) : Gives P (raise c info) := by
  rintro _ ⟨⟩

theorem bind {x : Res α} {f : α → Res β} (hx : Gives Q x) (hf : ∀ a, Q a → Gives P (f a)) : Gives P (x >>= f) := by
  intro b hb
  obtain ⟨a, ha, hfa⟩ := res_bind_ok.1 hb
  exact hf a (hx a ha) b hfa

theorem require (p : Bool) (c : Cause) (info : Word) : Gives (fun _ => p = true) (require p c info) :=
  fun _ h => require_ok.1 h

theorem checkRange (addr n : Int) : Gives (fun _ => inRange addr n) (checkRange addr n) := fun _ h => checkRange_ok.1 h

theorem readMat (s : State) (i : MReg) : Gives (fun A => s.mregs[i] = some A) (readMat s i) := fun _ h => readMat_ok.1 h

theorem readVec (s : State) (i : VReg) : Gives (fun x => s.vregs[i] = some x) (readVec s i) := fun _ h => readVec_ok.1 h

theorem bytesAt (m : Memory) (a n : Nat) : Gives (fun bs => bs.length = n) (bytesAt m a n) := by
  intro bs h
  obtain ⟨hlen, -⟩ := bytesAt_ok.1 h
  exact hlen

theorem memRead (s : State) (addr : Int) (n : Nat) : Gives (fun bs => bs.length = n) (memRead s addr n) :=
  .bind (.checkRange _ _) fun _ _ => .bytesAt _ _ _

theorem memWrite (s : State) (addr : Int) (bs : List Byte) :
    Gives (fun t => inRange addr bs.length ∧ t = { s with dmem := putBytes s.dmem addr.toNat bs }) (memWrite s addr bs) :=
  fun _ h => memWrite_ok.1 h

theorem invertOrRaise (A : Mat) : Gives (fun R => invert A = .ok R) (invertOrRaise A) := by
  intro R h
  unfold Machine.invertOrRaise at h
  split at h
  · cases h
    assumption
  · cases h

end Gives

/-! ## Well-formed results (10_state.md R24, R27) -/

theorem mul_wf {A B : Mat} (hA : A.wf) (hB : B.wf) : (A.mul B).wf := by
  obtain ⟨h1, h2, -⟩ := hA
  obtain ⟨-, -, h3, h4, -⟩ := hB
  exact ofFn_wf ⟨h1, h2⟩ ⟨h3, h4⟩

theorem transpose_wf {A : Mat} (hA : A.wf) : A.transpose.wf := by
  obtain ⟨h1, h2, h3, h4, -⟩ := hA
  exact ofFn_wf ⟨h3, h4⟩ ⟨h1, h2⟩

/-- What inversion gives has the shape of its argument's rows. -/
theorem wf_of_invert_eq_ok {A R : Mat} (hA : A.wf) (h : invert A = .ok R) : R.wf := by
  obtain ⟨h1, h2, -⟩ := hA
  obtain ⟨W, -, rfl⟩ := invert_eq_ok h
  exact ofFn_wf ⟨h1, h2⟩ ⟨h1, h2⟩

/-- A vector as long as a well-formed one. -/
theorem vec_wf_of_length_eq {x y : Vec} (hx : Vec.wf x) (h : y.length = x.length) : Vec.wf y := by
  obtain ⟨h1, h2⟩ := hx
  exact ⟨h.symm ▸ h1, h.symm ▸ h2⟩

/-- A vector as long as a well-formed matrix is high. -/
theorem vec_wf_of_length_eq_rows {A : Mat} {y : Vec} (hA : A.wf) (h : y.length = A.rows) : Vec.wf y := by
  obtain ⟨h1, h2, -⟩ := hA
  exact ⟨h.symm ▸ h1, h.symm ▸ h2⟩

theorem matsOk_setMat {s : State} {A : Mat} (hs : s.matsOk) (hA : A.wf) (md : MReg) : (setMat s md A).matsOk := by
  intro i B hB
  rw [setMat_mregs, Fin.getElem_fin, Vector.getElem_set] at hB
  split at hB
  · cases hB
    exact hA
  · exact hs i B hB

theorem vecsOk_setVec {s : State} {x : Vec} (hs : s.vecsOk) (hx : Vec.wf x) (vd : VReg) : (setVec s vd x).vecsOk := by
  intro i y hy
  rw [setVec_vregs, Fin.getElem_fin, Vector.getElem_set] at hy
  split at hy
  · cases hy
    exact hx
  · exact hs i y hy

/-! ## The effect of an instruction that completes -/

/-- No register but a destination of `i` differs (10_state.md R22, R25, R27). -/
def KeepsOthers (i : Instr) (s t : State) : Prop :=
  (∀ r : SReg, r ∉ scalarDests i → t.sregs[r] = s.sregs[r]) ∧
    (∀ r : MReg, r ∉ matDests i → t.mregs[r] = s.mregs[r]) ∧ ∀ r : VReg, r ∉ vecDests i → t.vregs[r] = s.vregs[r]

/-- DMEM differs by the bytes `i` stores, which lie inside it (20_memory.md R65, R66). -/
def StoresRange (i : Instr) (s t : State) : Prop :=
  ∃ bs : List Byte, t.dmem = putBytes s.dmem (storeRange s i).1 bs ∧ bs.length = (storeRange s i).2 ∧
    (storeRange s i).1 + bs.length ≤ Config.dmemSize

/-- What an instruction other than HALT has done when it completes. -/
def Effect (i : Instr) (s t : State) : Prop :=
  DataOnly s t ∧ t.pc = (branchTarget s i).getD (s.pc + 1) ∧ KeepsOthers i s t ∧ StoresRange i s t ∧
    (i.wf = true → s.matsOk → s.vecsOk → t.matsOk ∧ t.vecsOk)

/-- A register that is no destination is none of those written. -/
theorem getElem_set_of_notMem {α : Type} {n : Nat} (v : Vector α n) {i r : Fin n} {l : List (Fin n)} (x : α) (hi : i ∈ l)
    (hr : r ∉ l) : (v.set i x)[r] = v[r] := by
  have hne : i.val ≠ r.val := fun h => hr (Fin.ext h ▸ hi)
  simp [hne]

/-- An instruction with no range to store to keeps DMEM. -/
theorem storesRange_of_dmem_eq {i : Instr} {s t : State} (hst : storeRange s i = (0, 0)) (h : t.dmem = s.dmem) :
    StoresRange i s t := by
  refine ⟨[], ?_, ?_, ?_⟩ <;> simp [hst, h, putBytes]

section Writers
variable {i : Instr} {s : State}

theorem effect_pc {x : CodeIndex} (hst : storeRange s i = (0, 0)) (hpc : x = (branchTarget s i).getD (s.pc + 1)) :
    Effect i s { s with pc := x } :=
  ⟨rfl, hpc, ⟨fun _ _ => rfl, fun _ _ => rfl, fun _ _ => rfl⟩, storesRange_of_dmem_eq hst rfl, fun _ hm hv => ⟨hm, hv⟩⟩

theorem effect_sregs {R : Vector Word 16} (hst : storeRange s i = (0, 0)) (hb : branchTarget s i = none)
    (hR : ∀ r, r ∉ scalarDests i → R[r] = s.sregs[r]) : Effect i s (advance { s with sregs := R }) :=
  ⟨rfl, by rw [hb]; rfl, ⟨hR, fun _ _ => rfl, fun _ _ => rfl⟩, storesRange_of_dmem_eq hst rfl, fun _ hm hv => ⟨hm, hv⟩⟩

theorem effect_setScalar {sd : SReg} (w : Word) (hst : storeRange s i = (0, 0)) (hb : branchTarget s i = none)
    (hd : sd ∈ scalarDests i) : Effect i s (advance (setScalar s sd w)) :=
  effect_sregs hst hb fun _ hr => getElem_set_of_notMem _ _ hd hr

theorem effect_setMat {md : MReg} {A : Mat} (hst : storeRange s i = (0, 0)) (hb : branchTarget s i = none)
    (hd : md ∈ matDests i) (hA : i.wf = true → s.matsOk → A.wf) : Effect i s (advance (setMat s md A)) :=
  ⟨rfl, by rw [hb]; rfl, ⟨fun _ _ => rfl, fun _ hr => getElem_set_of_notMem _ _ hd hr, fun _ _ => rfl⟩,
    storesRange_of_dmem_eq hst rfl, fun hi hm hv => ⟨matsOk_setMat hm (hA hi hm) md, hv⟩⟩

theorem effect_setVec {vd : VReg} {x : Vec} (hst : storeRange s i = (0, 0)) (hb : branchTarget s i = none)
    (hd : vd ∈ vecDests i) (hx : i.wf = true → s.matsOk → s.vecsOk → Vec.wf x) : Effect i s (advance (setVec s vd x)) :=
  ⟨rfl, by rw [hb]; rfl, ⟨fun _ _ => rfl, fun _ _ => rfl, fun _ hr => getElem_set_of_notMem _ _ hd hr⟩,
    storesRange_of_dmem_eq hst rfl, fun hi hm hv => ⟨hm, vecsOk_setVec hv (hx hi hm hv) vd⟩⟩

theorem effect_setMat_setVec {md : MReg} {vd : VReg} {A : Mat} {x : Vec} (hst : storeRange s i = (0, 0))
    (hb : branchTarget s i = none) (hmd : md ∈ matDests i) (hvd : vd ∈ vecDests i) (hA : i.wf = true → A.wf)
    (hx : i.wf = true → Vec.wf x) : Effect i s (advance (setVec (setMat s md A) vd x)) :=
  ⟨rfl, by rw [hb]; rfl, ⟨fun _ _ => rfl, fun _ hr => getElem_set_of_notMem _ _ hmd hr,
    fun _ hr => getElem_set_of_notMem _ _ hvd hr⟩, storesRange_of_dmem_eq hst rfl,
    fun hi hm hv => ⟨matsOk_setMat hm (hA hi) md, vecsOk_setVec hv (hx hi) vd⟩⟩

theorem effect_store {a : Int} {bs : List Byte} (hr : inRange a bs.length) (hst : storeRange s i = (a.toNat, bs.length))
    (hb : branchTarget s i = none) : Effect i s (advance { s with dmem := putBytes s.dmem a.toNat bs }) := by
  refine ⟨rfl, by rw [hb]; rfl, ⟨fun _ _ => rfl, fun _ _ => rfl, fun _ _ => rfl⟩, ⟨bs, ?_, ?_, ?_⟩, fun _ hm hv => ⟨hm, hv⟩⟩
  all_goals rw [hst]
  · rfl
  · obtain ⟨h0, hle⟩ := hr
    change a.toNat + bs.length ≤ Config.dmemSize
    omega

end Writers

/-! ## The parts of single instructions -/

/-- The register forms of the cipher, for a transform whose results are as long as the matrix is high (43_cipher.md R191). -/
theorem Gives.blockTransform {i : Instr} {s : State} {f : Mat → Vec → Vec → Vec} {vd : VReg}
    (hf : ∀ A b x, (f A b x).length = A.rows) (hst : storeRange s i = (0, 0)) (hb : branchTarget s i = none)
    (hd : vd ∈ vecDests i) (ma : MReg) (vx vb : VReg) : Gives (Effect i s) (blockTransform f vd ma vx vb s) :=
  .bind (.readMat s ma) fun _ hA => .bind (.readVec s vx) fun _ _ => .bind (.readVec s vb) fun _ _ =>
    .bind (.require _ _ _) fun _ _ => .ok <|
      effect_setVec hst hb hd fun _ hm _ => vec_wf_of_length_eq_rows (hm ma _ hA) (hf _ _ _)

/-- The memory forms of the cipher, for such a transform (43_cipher.md R197). -/
theorem Gives.runTransform {i : Instr} {s : State} {f : Mat → Vec → Vec → Vec} {ma : MReg} {sdst scnt : SReg}
    (hf : ∀ A b x, (f A b x).length = A.rows)
    (hst : ∀ A, s.mregs[ma] = some A →
      storeRange s i = ((scalarInt s sdst).toNat, (scalarInt s scnt).toNat * A.rows))
    (hb : branchTarget s i = none) (vb : VReg) (ssrc : SReg) :
    Gives (Effect i s) (runTransform f ma vb ssrc sdst scnt s) := by
  refine .bind (.readMat s ma) fun A hA => .bind (.readVec s vb) fun b _ => .bind (.require _ _ _) fun _ _ =>
    .bind (.require _ _ _) fun _ hcnt => .bind (.checkRange _ _) fun _ _ => .bind (.checkRange _ _) fun _ hdst =>
    .bind (.require _ _ _) fun _ _ => .bind (.bytesAt _ _ _) fun bytes _ => .ok ?_
  have hlen := flatMap_blocksOf_length (hf A b) (scalarInt s scnt).toNat bytes
  refine effect_store ?_ (by rw [hst A hA, hlen]) hb
  rw [hlen, Nat.cast_mul, Int.toNat_of_nonneg (of_decide_eq_true hcnt)]
  exact hdst

/-- The key of a search is that of a trial. -/
theorem Gives.search {m : Memory} {p : Samples} {P : Mat × Vec → Prop}
    (h : ∀ comb, Gives (fun key => ∀ k ∈ key, P k) (trial m p comb)) (combs : List (List Nat)) :
    Gives P (search m p combs) := by
  induction combs with
  | nil => exact .raise _ _
  | cons comb combs ih =>
    refine .bind (h comb) fun key hkey => ?_
    cases key with
    | some key => exact .ok (hkey key rfl)
    | none => exact ih

/-- A key has the order of the samples (44_recovery.md R215 to R218). -/
theorem Gives.trial (m : Memory) (p : Samples) (comb : List Nat) :
    Gives (fun key => ∀ k ∈ key, (k.1.rows = p.n ∧ k.1.cols = p.n ∧ k.1.entries.length = p.n * p.n) ∧ k.2.length = p.n)
      (trial m p comb) := by
  have any {β : Type} (r : Res β) : Gives (fun _ => True) r := fun _ _ => trivial
  refine .bind (any _) fun x0 _ => .bind (any _) fun xs _ => ?_
  split
  · exact .ok nofun
  next xinv hinv =>
    refine .bind (.bytesAt _ _ _) fun y0 hy0 => .bind (any _) fun ys _ => .ok ?_
    rintro _ ⟨⟩
    obtain ⟨-, hcols, -⟩ := shape_of_invert_eq_ok hinv
    exact ⟨⟨rfl, hcols, by rw [mul_entries_length, hcols]; rfl⟩, (sub_length _ _).trans hy0⟩

/-! ## Every instruction -/

/-- An instruction completes with its effect or takes the fault it raises. -/
theorem effect_or_fault_of_finish {i : Instr} {s t : State} {r : Res State} (h : finish s r = .next t)
    (hr : Gives (Effect i s) r) : Effect i s t ∨ ∃ c info, t = takeFault c info s := by
  obtain hok | ⟨c, info, -, rfl⟩ := finish_next.1 h
  · exact .inl (hr t hok)
  · exact .inr ⟨c, info, rfl⟩

theorem effect_or_fault_of_exec {i : Instr} {s t : State} (hi : i ≠ .halt) (h : exec i s = .next t) :
    Effect i s t ∨ ∃ c info, t = takeFault c info s := by
  have dims {d : Nat} (hd : dimOk d = true) : 1 ≤ d ∧ d ≤ Config.nmax := dimOk_iff.1 hd
  cases i with
  | halt => exact absurd rfl hi
  | nop | jmp =>
    cases h
    exact .inl (effect_pc rfl rfl)
  | beqz sa target =>
    rw [exec_beqz] at h
    cases h
    refine .inl (effect_pc rfl ?_)
    simp only [branchTarget, scalarInt_eq_zero_iff]
    split <;> rfl
  | bnez sa target =>
    rw [exec_bnez] at h
    cases h
    refine .inl (effect_pc rfl ?_)
    simp only [branchTarget, scalarInt_eq_zero_iff]
    split <;> rfl
  | sli sd | saddi sd | sadd sd | ssub sd | modred sd =>
    cases h
    exact .inl (effect_setScalar _ rfl rfl (List.mem_singleton_self sd))
  | sload sd | sloadb sd =>
    exact effect_or_fault_of_finish h (.bind (.memRead s _ _) fun _ _ => .ok <|
      effect_setScalar _ rfl rfl (List.mem_singleton_self sd))
  | sstore | sstoreb =>
    refine effect_or_fault_of_finish h (.bind (.memWrite s _ _) fun t ht => .ok ?_)
    obtain ⟨hr, rfl⟩ := ht
    exact effect_store hr rfl rfl
  | xgcd sg sx sy sa sm =>
    refine effect_or_fault_of_finish h (.bind (.require _ _ _) fun _ _ => .ok (effect_sregs rfl rfl fun r hr => ?_))
    simp only [scalarDests, List.mem_cons, List.not_mem_nil, or_false, not_or] at hr
    obtain ⟨hg, hx, hy⟩ := hr
    refine (getElem_set_set_set _ _ _ _ _ _ _ _).trans ?_
    rw [if_neg hy, if_neg hx, if_neg hg]
  | modinv sd sa =>
    refine effect_or_fault_of_finish h ?_
    split
    · exact .ok (effect_setScalar _ rfl rfl (List.mem_singleton_self sd))
    · exact .raise _ _
  | mload md sa rows cols =>
    refine effect_or_fault_of_finish h (.bind (.memRead s _ _) fun _ _ => .ok <|
      effect_setMat rfl rfl (List.mem_singleton_self md) fun hwf _ => ?_)
    obtain ⟨hrows, hcols⟩ := Bool.and_eq_true_iff.1 hwf
    exact ofFn_wf (dims hrows) (dims hcols)
  | mstore ms sa =>
    refine effect_or_fault_of_finish h (.bind (.readMat s ms) fun A hA => .bind (.memWrite s _ _) fun t ht => .ok ?_)
    obtain ⟨hr, rfl⟩ := ht
    exact effect_store hr (by simp only [storeRange, hA, bytes_length]) rfl
  | mident md n =>
    cases h
    exact .inl (effect_setMat rfl rfl (List.mem_singleton_self md) fun hwf _ => ofFn_wf (dims hwf) (dims hwf))
  | mcopy md ms =>
    exact effect_or_fault_of_finish h <| .bind (.readMat s ms) fun A hA => .ok <|
      effect_setMat rfl rfl (List.mem_singleton_self md) fun _ hm => hm ms A hA
  | mmul md ma mb =>
    exact effect_or_fault_of_finish h <| .bind (.readMat s ma) fun A hA => .bind (.readMat s mb) fun B hB =>
      .bind (.require _ _ _) fun _ _ => .ok <|
        effect_setMat rfl rfl (List.mem_singleton_self md) fun _ hm => mul_wf (hm ma A hA) (hm mb B hB)
  | mtrans md ms =>
    exact effect_or_fault_of_finish h <| .bind (.readMat s ms) fun A hA => .ok <|
      effect_setMat rfl rfl (List.mem_singleton_self md) fun _ hm => transpose_wf (hm ms A hA)
  | minvert md ms =>
    exact effect_or_fault_of_finish h <| .bind (.readMat s ms) fun A hA => .bind (.require _ _ _) fun _ _ =>
      .bind (.invertOrRaise A) fun R hR => .ok <|
        effect_setMat rfl rfl (List.mem_singleton_self md) fun _ hm => wf_of_invert_eq_ok (hm ms A hA) hR
  | mvmul vd ma vx =>
    exact effect_or_fault_of_finish h <| .bind (.readMat s ma) fun A hA => .bind (.readVec s vx) fun x _ =>
      .bind (.require _ _ _) fun _ _ => .ok <| effect_setVec rfl rfl (List.mem_singleton_self vd) fun _ hm _ =>
        vec_wf_of_length_eq_rows (hm ma A hA) (mulVec_length A x)
  | vload vd sa len =>
    refine effect_or_fault_of_finish h (.bind (.memRead s _ _) fun bs hbs => .ok <|
      effect_setVec rfl rfl (List.mem_singleton_self vd) fun hwf _ _ => ?_)
    rw [← hbs] at hwf
    exact dims hwf
  | vstore vs sa =>
    refine effect_or_fault_of_finish h (.bind (.readVec s vs) fun x hx => .bind (.memWrite s _ _) fun t ht => .ok ?_)
    obtain ⟨hr, rfl⟩ := ht
    exact effect_store hr (by simp only [storeRange, hx]) rfl
  | vcopy vd vs =>
    exact effect_or_fault_of_finish h <| .bind (.readVec s vs) fun x hx => .ok <|
      effect_setVec rfl rfl (List.mem_singleton_self vd) fun _ _ hv => hv vs x hx
  | vadd vd va vb =>
    exact effect_or_fault_of_finish h <| .bind (.readVec s va) fun x hx => .bind (.readVec s vb) fun y _ =>
      .bind (.require _ _ _) fun _ _ => .ok <| effect_setVec rfl rfl (List.mem_singleton_self vd) fun _ _ hv =>
        vec_wf_of_length_eq (hv va x hx) (add_length x y)
  | vsub vd va vb =>
    exact effect_or_fault_of_finish h <| .bind (.readVec s va) fun x hx => .bind (.readVec s vb) fun y _ =>
      .bind (.require _ _ _) fun _ _ => .ok <| effect_setVec rfl rfl (List.mem_singleton_self vd) fun _ _ hv =>
        vec_wf_of_length_eq (hv va x hx) (sub_length x y)
  | affenc vd =>
    exact effect_or_fault_of_finish h (.blockTransform enc_length rfl rfl (List.mem_singleton_self vd) _ _ _)
  | affdec vd =>
    exact effect_or_fault_of_finish h (.blockTransform dec_length rfl rfl (List.mem_singleton_self vd) _ _ _)
  | encrypt => exact effect_or_fault_of_finish h (.runTransform enc_length (fun A hA => by simp only [storeRange, hA]) rfl _ _)
  | decrypt => exact effect_or_fault_of_finish h (.runTransform dec_length (fun A hA => by simp only [storeRange, hA]) rfl _ _)
  | recover md vd n =>
    have any {β : Type} (r : Res β) : Gives (fun _ => True) r := fun _ _ => trivial
    refine effect_or_fault_of_finish h (.bind (any _) fun _ _ => .bind (any _) fun _ _ => .bind (any _) fun _ _ =>
      .bind (any _) fun _ _ => .bind (any _) fun _ _ => .bind (.search (.trial _ _) _) fun key hkey => .ok ?_)
    obtain ⟨⟨hr, hc, he⟩, hlen⟩ := hkey
    refine effect_setMat_setVec rfl rfl (List.mem_singleton_self md) (List.mem_singleton_self vd) (fun hwf => ?_)
      fun hwf => ?_
    · obtain ⟨h1, h2⟩ := dims hwf
      exact ⟨by rw [hr]; exact h1, by rw [hr]; exact h2, by rw [hc]; exact h1, by rw [hc]; exact h2, by rw [he, hr, hc]⟩
    · rw [Vec.wf, hlen]
      exact dims hwf

end Sys2Proof.Machine
end

section
/-! SUPPORT. What follows from the effect of an instruction: the frames of registers, DMEM, pc and the run state, and the invariant of
every step of the engine and of the host (10_state.md R22 to R32, 60_exceptions.md R278 to R287). -/

namespace Sys2Proof.Machine

/-! ## Frames of an instruction -/

/-- An instruction is HALT, or completes with its effect, or takes a fault from the state before it. -/
theorem exec_next_cases {i : Instr} {s t : State} (h : exec i s = .next t) :
    (i = .halt ∧ t = { advance s with runState := .halted, stopReq := false }) ∨ Effect i s t ∨
      ∃ c info, t = takeFault c info s := by
  by_cases hi : i = .halt
  · subst hi
    cases h
    exact .inl ⟨rfl, rfl⟩
  · exact .inr (effect_or_fault_of_exec hi h)

/-- Settles O10: HALT and a fault write the run state, and an effect is on data only. -/
theorem onlyHaltAndFaultsChangeTheRunState : Obligations.OnlyHaltAndFaultsChangeTheRunState := by
  intro i s t h
  obtain ⟨rfl, rfl⟩ | ⟨hdata, -⟩ | ⟨c, info, rfl⟩ := exec_next_cases h
  · exact ⟨rfl, rfl, rfl, rfl, .inr ⟨rfl, rfl, rfl, .inr ⟨rfl, rfl, rfl⟩⟩⟩
  · rw [DataOnly] at hdata
    rw [hdata]
    exact ⟨rfl, rfl, rfl, rfl, .inr ⟨rfl, rfl, rfl, .inl ⟨rfl, rfl⟩⟩⟩
  · exact ⟨rfl, rfl, rfl, rfl, .inl rfl⟩

/-- Settles O11: HALT goes to the next word, an effect where the branch goes, a fault nowhere. -/
theorem pcAdvancesJumpsOrStays : Obligations.PcAdvancesJumpsOrStays := by
  intro i s t hrun h
  obtain ⟨rfl, rfl⟩ | ⟨hdata, hpc, -⟩ | ⟨c, info, rfl⟩ := exec_next_cases h
  · exact .inr ⟨nofun, rfl⟩
  · exact .inr ⟨by simp [hdata.runState, hrun], hpc⟩
  · exact .inl ⟨rfl, rfl⟩

/-- Settles O12: HALT and a fault write no register. -/
theorem registersChangeOnlyInTheirDestinations : Obligations.RegistersChangeOnlyInTheirDestinations := by
  intro i s t h
  obtain ⟨rfl, rfl⟩ | ⟨-, -, hkeeps, -⟩ | ⟨c, info, rfl⟩ := exec_next_cases h
  · exact ⟨fun _ _ => rfl, fun _ _ => rfl, fun _ _ => rfl⟩
  · exact hkeeps
  · exact ⟨fun _ _ => rfl, fun _ _ => rfl, fun _ _ => rfl⟩

/-- Settles O13: DMEM differs by the bytes stored, which fill the range. -/
theorem memoryChangesOnlyInTheStoredRange : Obligations.MemoryChangesOnlyInTheStoredRange := by
  intro i s t h x hx
  obtain ⟨rfl, rfl⟩ | ⟨-, -, -, ⟨bs, hdmem, hlen, -⟩, -⟩ | ⟨c, info, rfl⟩ := exec_next_cases h
  · rfl
  · rw [hdmem]
    exact cellGet_putBytes_outside (by rwa [hlen])
  · rfl

/-! ## The invariant -/

theorem causeCode_le (c : Cause) : (causeCode c).toNat ≤ 9 := by
  cases c <;> simp [causeCode]

/-- The invariant asks for memories and registers, and for the fault record and STOPREQ to agree with the run state. -/
theorem inv_of_frame {s t : State} (hs : s.Inv) (himem : t.imem = s.imem) (hdmem : t.dmem = s.dmem)
    (hmregs : t.mregs = s.mregs) (hvregs : t.vregs = s.vregs) (hrec : t.recordOk) (hcause : t.ecause.toNat ≤ 9)
    (hstop : t.stopOk) : t.Inv := by
  obtain ⟨hi, hd, hm, hv, -⟩ := hs
  refine ⟨by rwa [himem], by rwa [hdmem], ?_, ?_, hrec, hcause, hstop⟩
  · rwa [State.matsOk, hmregs]
  · rwa [State.vecsOk, hvregs]

theorem inv_takeFault {s : State} (hs : s.Inv) (c : Cause) (info : Word) : (takeFault c info s).Inv :=
  inv_of_frame hs rfl rfl rfl rfl (recordOk_takeFault c info s) (causeCode_le c) nofun

theorem inv_effect {i : Instr} {s t : State} (hs : s.Inv) (hwf : i.wf = true) (h : Effect i s t) : t.Inv := by
  obtain ⟨himem, hdmem, hm, hv, hrec, hcause, hstop⟩ := hs
  obtain ⟨hdata, -, -, ⟨bs, hbytes, -, hle⟩, hregs⟩ := h
  obtain ⟨hm', hv'⟩ := hregs hwf hm hv
  have hwf' : t.dmem.wf := by
    rw [hbytes]
    exact Memory.wf_putBytes hdmem hle
  refine ⟨?_, hwf', hm', hv', hdata.recordOk hrec, ?_, ?_⟩
  all_goals rw [DataOnly] at hdata; rw [hdata]; assumption

theorem inv_exec {i : Instr} {s t : State} (hs : s.Inv) (hrun : s.runState = .running) (hwf : i.wf = true)
    (h : exec i s = .next t) : t.Inv := by
  obtain ⟨-, -, -, -, hrecord, hcause, -⟩ := id hs
  obtain ⟨rfl, rfl⟩ | heffect | ⟨c, info, rfl⟩ := exec_next_cases h
  · exact inv_of_frame hs rfl rfl rfl rfl (recordOk_exec hrecord hrun h) hcause nofun
  · exact inv_effect hs hwf heffect
  · exact inv_takeFault hs c info

/-! ### The engine -/

/-- What the engine fetches is well-formed: only such instructions have a word (30_encoding.md R97). -/
theorem wf_of_fetchInstr {s : State} {i : Instr} (h : fetchInstr s = .ok i) : i.wf = true := by
  obtain ⟨w, -, hw⟩ := res_bind_ok.1 h
  split at hw
  next j hj =>
    cases hw
    exact ((decode_eq_ok_iff w i).1 hj).1
  next => cases hw

/-- Everything a step of a RUNNING engine can do: stop at a request, execute a well-formed instruction, or take the fault of its
fetch. -/
theorem engineStep_next_of_running {s t : State} (hrun : s.runState = .running) (h : engineStep s = .next t) :
    (s.stopReq = true ∧ t = { s with runState := .idle, stopReq := false }) ∨
      (∃ i : Instr, i.wf = true ∧ exec i s = .next t) ∨ ∃ c info, t = takeFault c info s := by
  rw [engineStep, if_neg (not_not.2 hrun)] at h
  split at h
  next hstop =>
    cases h
    exact .inl ⟨hstop, rfl⟩
  next =>
    split at h
    next i hi => exact .inr (.inl ⟨i, wf_of_fetchInstr hi, h⟩)
    next c info _ =>
      cases h
      exact .inr (.inr ⟨c, info, rfl⟩)
    next => cases h

theorem inv_engineStep {s t : State} (hs : s.Inv) (h : engineStep s = .next t) : t.Inv := by
  by_cases hrun : s.runState = .running
  · obtain ⟨-, -, -, -, hrecord, hcause, -⟩ := id hs
    obtain ⟨-, rfl⟩ | ⟨i, hwf, hi⟩ | ⟨c, info, rfl⟩ := engineStep_next_of_running hrun h
    · exact inv_of_frame hs rfl rfl rfl rfl (recordOk_engineStep hrecord h) hcause nofun
    · exact inv_exec hs hrun hwf hi
    · exact inv_takeFault hs c info
  · rw [engineStep_of_not_running hrun] at h
    cases h
    exact hs

/-! ### The commands of CTRL -/

theorem inv_clearFault {s : State} (hs : s.Inv) : (clearFault s).Inv := by
  obtain ⟨-, -, -, -, hrecord, -, hstop⟩ := id hs
  by_cases h : s.runState = .faulted
  · have hclear := recordOk_clearFault hrecord
    rw [clearFault_of_faulted h] at hclear ⊢
    refine inv_of_frame hs rfl rfl rfl rfl hclear (Nat.zero_le 9) fun hreq => ?_
    have := hstop hreq
    rw [h] at this
    cases this
  · rwa [clearFault_of_not_faulted h]

theorem inv_ctrlStart {s : State} (hs : s.Inv) : (ctrlStart s).Inv := by
  obtain ⟨-, -, -, -, hrecord, hcause, -⟩ := id hs
  have hstart := recordOk_ctrlStart hrecord
  unfold ctrlStart at hstart ⊢
  split at hstart
  next h =>
    rw [if_pos h]
    exact inv_of_frame hs rfl rfl rfl rfl hstart hcause fun _ => rfl
  next h => rwa [if_neg h]

theorem inv_ctrlStop {s : State} (hs : s.Inv) : (ctrlStop s).Inv := by
  obtain ⟨-, -, -, -, hrecord, hcause, -⟩ := id hs
  by_cases h : s.runState = .running
  · rw [ctrlStop_of_running h]
    exact inv_of_frame hs rfl rfl rfl rfl hrecord hcause fun _ => h
  · rwa [ctrlStop_of_not_running h]

theorem inv_resetEvent {s : State} (hs : s.Inv) : (resetEvent s).Inv := by
  obtain ⟨himem, hdmem, -⟩ := hs
  refine ⟨himem, hdmem, ?_, ?_, recordOk_resetEvent s, Nat.zero_le 9, nofun⟩
  · intro i A hA
    simp at hA
  · intro i x hx
    simp at hx

/-- A command that a write of CTRL sends or does not send. -/
theorem inv_ite (b : Bool) {s t : State} (hs : s.Inv) (ht : t.Inv) : (if b then s else t).Inv := by
  cases b <;> assumption

theorem inv_ctrlWrite (d : Word) {s : State} (hs : s.Inv) : (ctrlWrite d s).Inv := by
  have hclear := inv_ite (d.getLsbD 2) (inv_clearFault hs) hs
  have hstart := inv_ite (d.getLsbD 0) (inv_ctrlStart hclear) hclear
  exact inv_ite (d.getLsbD 3) (inv_resetEvent hs) (inv_ite (d.getLsbD 1) (inv_ctrlStop hstart) hstart)

/-! ### The windows and the host's turn -/

theorem inv_setImem {s : State} {a : Nat} (hs : s.Inv) (ha : inCodeWindow a = true) (w : Word) :
    State.Inv { s with imem := cellPut s.imem (codeIndexOf a) w } := by
  obtain ⟨himem, hrest⟩ := hs
  refine ⟨CodeMemory.wf_cellPut himem ?_, hrest⟩
  simp only [inCodeWindow, Bool.and_eq_true, decide_eq_true_eq] at ha
  unfold codeIndexOf
  omega

theorem inv_setDmem {s : State} {a : Nat} (hs : s.Inv) (ha : inDataWindow a = true) (b : Byte) :
    State.Inv { s with dmem := cellPut s.dmem (dataAddrOf a) b } := by
  obtain ⟨himem, hdmem, hrest⟩ := hs
  refine ⟨himem, Memory.wf_cellPut hdmem ?_, hrest⟩
  simp only [inDataWindow, Bool.and_eq_true, decide_eq_true_eq] at ha
  unfold dataAddrOf
  omega

theorem inv_hostWrite32 {a : Nat} {d : Word} {s t : State} (hs : s.Inv) (h : hostWrite32 a d s = some t) : t.Inv := by
  obtain ⟨-, hreg⟩ | ⟨hwindow, -, rfl⟩ := hostWrite32_some h
  · obtain ⟨-, rfl⟩ | ⟨-, -, rfl⟩ | ⟨-, rfl⟩ | ⟨-, -, rfl⟩ := csrWrite_some hreg
    · exact inv_ctrlWrite d hs
    all_goals exact hs
  · exact inv_setImem hs hwindow d

theorem inv_finishWrite {s : State} {r : Option State} (hs : s.Inv) (hr : ∀ t, r = some t → t.Inv) :
    (finishWrite s r).Inv := by
  obtain ⟨t, ht, hfinish⟩ | ⟨-, hfinish⟩ := finishWrite_cases s r
  · rw [hfinish]
    exact hr t ht
  · rw [hfinish]
    exact hs

theorem inv_hostAct {op : HostOp} {s t : State} (hs : s.Inv) (h : hostAct op s = .next t) : t.Inv := by
  cases op with
  | read8 | read32 =>
    obtain ⟨_, -, rfl⟩ := finishRead_next h
    exact hs
  | write8 a d =>
    cases h
    refine inv_finishWrite hs fun t ht => ?_
    obtain ⟨hwindow, -, rfl⟩ := hostWrite8_some ht
    exact inv_setDmem hs hwindow d
  | write32 a d =>
    cases h
    exact inv_finishWrite hs fun t => inv_hostWrite32 hs
  | reset =>
    cases h
    exact inv_resetEvent hs

/-! ### One step of the machine -/

/-- With no turn listed the engine moves. -/
theorem step_of_no_turn {s : State} (h : s.turns = []) : step s = engineStep s := by
  cases s
  subst h
  rfl

theorem step_of_engine_turn {s : State} {ts : List Turn} (h : s.turns = .engine :: ts) :
    step s = engineStep { s with turns := ts } := by
  cases s
  subst h
  rfl

theorem step_of_host_turn {s : State} {op : HostOp} {ts : List Turn} (h : s.turns = .host op :: ts) :
    step s = hostAct op { s with turns := ts } := by
  cases s
  subst h
  rfl

/-- Settles O15: the engine's turns and the host's both keep the invariant, and taking the turn off the list touches no part of it. -/
theorem everyStepKeepsTheInvariant : Obligations.EveryStepKeepsTheInvariant := by
  intro s t hs h
  cases hturns : s.turns with
  | nil =>
    rw [step_of_no_turn hturns] at h
    exact inv_engineStep hs h
  | cons turn ts =>
    cases turn with
    | engine =>
      rw [step_of_engine_turn hturns] at h
      exact inv_engineStep (s := { s with turns := ts }) hs h
    | host op =>
      rw [step_of_host_turn hturns] at h
      exact inv_hostAct (s := { s with turns := ts }) hs h

/-- Settles O16: power-on is the reset event on empty memories. -/
theorem resetSatisfiesTheInvariant : Obligations.ResetSatisfiesTheInvariant := by
  refine ⟨reset_imem_wf, reset_dmem_wf, ?_, ?_, recordOk_resetEvent State.reset, Nat.zero_le 9, nofun⟩
  · intro i A hA
    simp [State.reset] at hA
  · intro i x hx
    simp [State.reset] at hx

/-- Settles O17, field by field. -/
theorem powerOnStateIsTheResetState : Obligations.PowerOnStateIsTheResetState := by
  refine ⟨?_, ?_, ?_, rfl, rfl, rfl, rfl, rfl, rfl, rfl, cellGet_nil, cellGet_nil⟩ <;> simp [State.reset]

/-- Settles O6, by the equation of each kind of turn and of the engine's step on a word that decodes. -/
theorem stepRunsTheDecodedInstruction : Obligations.StepRunsTheDecodedInstruction := by
  refine ⟨fun s w i hrun hstop hpc hw hi => ⟨fun h => ?_, fun ts h => ?_⟩,
    fun s => ⟨step_of_no_turn, fun _ => step_of_engine_turn, fun _ _ => step_of_host_turn⟩⟩
  · rw [step_of_no_turn h]
    exact engineStep_of_decode hrun hstop (fetch_of_held hpc hw) hi
  · rw [step_of_engine_turn h]
    exact engineStep_of_decode (s := { s with turns := ts }) hrun hstop (fetch_of_held hpc hw) hi

/-! ## The return from a fault (60_exceptions.md R277) -/

/-- CLEAR and START undo the taking of a fault from a RUNNING state with a clean record and no stop request: the five fields it
writes have one value in such a state. -/
theorem ctrlStart_clearFault_takeFault {s : State} (hrec : s.recordOk) (hrun : s.runState = .running)
    (hstop : s.stopReq = false) (c : Cause) (info : Word) : ctrlStart (clearFault (takeFault c info s)) = s := by
  obtain ⟨hcause, hepc, heinfo⟩ := (recordOk_iff_of_not_faulted (by simp [hrun])).1 hrec
  rw [clearFault_of_faulted rfl, ctrlStart_of_idle_or_halted (.inl rfl)]
  obtain ⟨⟩ := s
  simp_all [takeFault]

/-- Settles O20: a step into FAULTED is the taking of a fault. -/
theorem clearAndStartReturnToTheFaultingInstruction : Obligations.ClearAndStartReturnToTheFaultingInstruction := by
  intro s t hrec hrun hstop h ht
  obtain ⟨-, rfl⟩ | ⟨i, -, hi⟩ | ⟨c, info, rfl⟩ := engineStep_next_of_running hrun h
  · cases ht
  · obtain ⟨c, -, info, rfl⟩ := faultingInstructionsChangeOnlyTheFaultRecord i s t (by simp [hrun]) hi ht
    exact ctrlStart_clearFault_takeFault hrec hrun hstop c info
  · exact ctrlStart_clearFault_takeFault hrec hrun hstop c info

end Sys2Proof.Machine
end

section
/-! SUPPORT. What an instruction does when the host's side of the state is another: every operand, check and access reads registers
and DMEM only, so the computation commutes with the exchange of the host's fields (70_reset_and_hazards.md R312). -/

namespace Sys2Proof.Machine

/-- `s` with another interrupt enable, other turns, another last reply and another stop request. -/
def withHost (ie : BitVec 2) (ts : List Turn) (r : Option HostReply) (q : Bool) (s : State) : State :=
  { s with ie := ie, turns := ts, lastReply := r, stopReq := q }

section HostFields
variable (ie : BitVec 2) (ts : List Turn) (r : Option HostReply) (q : Bool) {s : State}

/-- The computation `y` gives what `x` gives, with the host's fields exchanged, and stops where `x` stops; what `x` gives has the run
state and the stop request of `s`. -/
def Follows (s : State) (x y : Res State) : Prop :=
  y = x.map (withHost ie ts r q) ∧ Gives (fun t => t.runState = s.runState ∧ t.stopReq = s.stopReq) x

namespace Follows
variable {ie ts r q} {α : Type}

theorem ok {t : State} (h : t.runState = s.runState ∧ t.stopReq = s.stopReq) :
    Follows ie ts r q s (.ok t) (.ok (withHost ie ts r q t)) := ⟨rfl, .ok h⟩

theorem raise (c : Cause) (info : Word) : Follows ie ts r q s (raise c info) (raise c info) := ⟨rfl, .raise c info⟩

theorem bind (x : Res α) {f g : α → Res State} (h : ∀ a, Follows ie ts r q s (f a) (g a)) :
    Follows ie ts r q s (x >>= f) (x >>= g) := by
  cases x with
  | ok a => exact h a
  | error e => exact ⟨rfl, nofun⟩

/-- What is stored does not depend on the host's side. -/
theorem memWrite (addr : Int) (bs : List Byte) :
    Follows ie ts r q s (memWrite s addr bs >>= fun t => .ok (advance t))
      (memWrite (withHost ie ts r q s) addr bs >>= fun t => .ok (advance t)) := by
  unfold Machine.memWrite
  cases checkRange addr bs.length with
  | ok _ => exact .ok ⟨rfl, rfl⟩
  | error e => exact ⟨rfl, nofun⟩

theorem blockTransform (f : Mat → Vec → Vec → Vec) (vd : VReg) (ma : MReg) (vx vb : VReg) :
    Follows ie ts r q s (blockTransform f vd ma vx vb s) (blockTransform f vd ma vx vb (withHost ie ts r q s)) :=
  .bind _ fun _ => .bind _ fun _ => .bind _ fun _ => .bind _ fun _ => .ok ⟨rfl, rfl⟩

theorem runTransform (f : Mat → Vec → Vec → Vec) (ma : MReg) (vb : VReg) (ssrc sdst scnt : SReg) :
    Follows ie ts r q s (runTransform f ma vb ssrc sdst scnt s)
      (runTransform f ma vb ssrc sdst scnt (withHost ie ts r q s)) :=
  .bind _ fun _ => .bind _ fun _ => .bind _ fun _ => .bind _ fun _ => .bind _ fun _ => .bind _ fun _ => .bind _ fun _ =>
    .bind _ fun _ => .ok ⟨rfl, rfl⟩

end Follows

/-- Every instruction but HALT is a computation that follows the exchange of the host's fields. -/
theorem exists_follows {i : Instr} (hi : i ≠ .halt) (s : State) : ∃ x y : Res State,
    exec i s = finish s x ∧ exec i (withHost ie ts r q s) = finish (withHost ie ts r q s) y ∧ Follows ie ts r q s x y := by
  cases i with
  | halt => exact absurd rfl hi
  | nop | jmp | sli | saddi | sadd | ssub | modred | mident => exact ⟨.ok _, .ok _, rfl, rfl, .ok ⟨rfl, rfl⟩⟩
  | beqz | bnez =>
    refine ⟨.ok _, .ok _, rfl, rfl, ?_⟩
    rw [branch_eq, branch_eq]
    exact .ok ⟨rfl, rfl⟩
  | sload | sloadb | mload | vload | xgcd | mcopy | mtrans | vcopy => exact ⟨_, _, rfl, rfl, .bind _ fun _ => .ok ⟨rfl, rfl⟩⟩
  | sstore | sstoreb => exact ⟨_, _, rfl, rfl, .memWrite _ _⟩
  | mstore | vstore => exact ⟨_, _, rfl, rfl, .bind _ fun _ => .memWrite _ _⟩
  | modinv sd sa =>
    cases h : modinv8 (low8 (scalar s sa)) with
    | some u =>
      exact ⟨.ok _, .ok _, exec_modinv_of_some sd h, exec_modinv_of_some (s := withHost ie ts r q s) sd h, .ok ⟨rfl, rfl⟩⟩
    | none =>
      exact ⟨raise .noInverse _, raise .noInverse _, exec_modinv_of_none sd h, exec_modinv_of_none (s := withHost ie ts r q s) sd h, .raise _ _⟩
  | mmul | minvert | mvmul | vadd | vsub => exact ⟨_, _, rfl, rfl, .bind _ fun _ => .bind _ fun _ => .bind _ fun _ => .ok ⟨rfl, rfl⟩⟩
  | affenc | affdec => exact ⟨_, _, rfl, rfl, .blockTransform _ _ _ _ _⟩
  | encrypt | decrypt => exact ⟨_, _, rfl, rfl, .runTransform _ _ _ _ _ _⟩
  | recover => exact ⟨_, _, rfl, rfl, .bind _ fun _ => .bind _ fun _ => .bind _ fun _ => .bind _ fun _ => .bind _ fun _ =>
      .bind _ fun _ => .ok ⟨rfl, rfl⟩⟩

/-- An instruction with another host's side: what completes keeps that side, HALT and a fault drop its stop request. -/
theorem exec_withHost {i : Instr} {t : State} (h : exec i s = .next t) :
    (t.runState = s.runState ∧ t.stopReq = s.stopReq ∧ exec i (withHost ie ts r q s) = .next (withHost ie ts r q t)) ∨
      (t.runState ≠ .running ∧ t.stopReq = false ∧ exec i (withHost ie ts r q s) = .next (withHost ie ts r false t)) := by
  by_cases hi : i = .halt
  · subst hi
    cases h
    exact .inr ⟨nofun, rfl, rfl⟩
  · obtain ⟨x, y, hx, hy, hxy⟩ := exists_follows ie ts r q hi s
    obtain ⟨rfl, hkeeps⟩ := hxy
    rw [hx] at h
    rw [hy]
    obtain rfl | ⟨c, info, rfl, rfl⟩ := finish_next.1 h
    · obtain ⟨hrun, hstop⟩ := hkeeps t rfl
      exact .inl ⟨hrun, hstop, rfl⟩
    · exact .inr ⟨nofun, rfl, rfl⟩

end HostFields

/-- Settles O19: with its own stop request the state keeps it or drops it as before, with another it keeps or drops that one. -/
theorem hostWritesDuringARunDoNotReachInstructions : Obligations.HostWritesDuringARunDoNotReachInstructions := by
  intro i s t ie ts r h
  refine ⟨?_, fun hrun q => ?_⟩
  · obtain ⟨-, hstop, hexec⟩ | ⟨-, hstop, hexec⟩ := exec_withHost ie ts r s.stopReq h
    · exact hexec.trans (by rw [← hstop]; rfl)
    · exact hexec.trans (by rw [← hstop]; rfl)
  · obtain ⟨hsame, -, hexec⟩ | ⟨hdrop, -, hexec⟩ := exec_withHost ie ts r q h
    · rw [if_pos (hsame.trans hrun)]
      exact hexec
    · rw [if_neg hdrop]
      exact hexec

end Sys2Proof.Machine
end

section
/-! SUPPORT. What the host reads in the control and status registers, which of its accesses are errors, and the loading of a program
through the IMEM window (10_state.md R33 to R45, 20_memory.md R62, 60_exceptions.md R276, R280, 70_reset_and_hazards.md R304). -/

namespace Sys2Proof.Machine

/-! ## The control and status registers (10_state.md R33 to R45) -/

theorem runStateCode_le (r : RunState) : runStateCode r ≤ 3 := by
  cases r <;> simp [runStateCode]

/-- STATUS holds the run state in bits 1..0, STOPREQ in bit 2 and irq in bit 3 (10_state.md R37). -/
theorem statusWord_toNat (s : State) :
    (statusWord s).toNat = runStateCode s.runState + 4 * s.stopReq.toNat + 8 * (irq s).toNat := by
  have hcode := runStateCode_le s.runState
  have hstop := Bool.toNat_le s.stopReq
  have hirq := Bool.toNat_le (irq s)
  rw [statusWord, BitVec.toNat_ofNat, Nat.mod_eq_of_lt (by omega)]

/-- The level of the interrupt output (60_exceptions.md R276). -/
theorem irq_iff (s : State) : irq s = true ↔
    (s.ie.getLsbD 0 = true ∧ s.runState = .halted) ∨ (s.ie.getLsbD 1 = true ∧ s.runState = .faulted) := by
  simp [irq, haltIe, faultIe]

theorem irq_of_running {s : State} (h : s.runState = .running) : irq s = false := by
  simp [irq, h]

/-- Settles O55: each register is at an offset of its own, so its read and its write compute; CLEAR and the reset event lead to IDLE
and START to RUNNING, where irq is low. -/
theorem controlRegistersReadAsSpecified : Obligations.ControlRegistersReadAsSpecified := by
  intro s
  refine ⟨?reads, fun _ => hostAct_read32_pc s, ⟨statusWord s, rfl, ?status⟩, ?writes, fun d => rfl, irq_iff s,
    fun h => ?started, fun h => ?cleared, irq_of_idle (resetEvent_runState s)⟩
  case reads =>
    simp only [List.forall_mem_cons]
    exact ⟨rfl, rfl, rfl, rfl, rfl, rfl, rfl, rfl, rfl, nofun⟩
  case status =>
    rw [statusWord_toNat]
    cases s.runState <;> rfl
  case writes =>
    simp only [List.forall_mem_cons]
    exact ⟨fun _ => rfl, fun _ => rfl, fun _ => rfl, fun _ => rfl, fun _ => rfl, fun _ => rfl, fun _ => rfl, fun _ => rfl,
      fun _ => rfl, nofun⟩
  case started =>
    rw [ctrlStart_of_idle_or_halted (.inr h)]
    exact irq_of_running rfl
  case cleared =>
    rw [clearFault_of_faulted h]
    exact irq_of_idle rfl

/-! ## Errors (60_exceptions.md R280) -/

/-- A write of CTRL without SRESET, while RUNNING, can only set STOPREQ: CLEAR and START are ignored (60_exceptions.md R282 to R285). -/
theorem ctrlWrite_of_running {d : Word} {s : State} (hrun : s.runState = .running) (hd : d.getLsbD 3 = false) :
    ctrlWrite d s = { s with stopReq := d.getLsbD 1 || s.stopReq } := by
  have hclear : clearFault s = s := clearFault_of_not_faulted (by simp [hrun])
  have hstart : ctrlStart s = s := ctrlStart_of_running_or_faulted (.inl hrun)
  rw [ctrlWrite_of_not_sreset hd rfl rfl rfl, hclear, ite_self, hstart, ite_self, ctrlStop_of_running hrun]
  cases d.getLsbD 1 <;> rfl

/-- The registers, pc, memories and fault record of `t` are those of `s`. -/
def SameData (s t : State) : Prop :=
  t.sregs = s.sregs ∧ t.mregs = s.mregs ∧ t.vregs = s.vregs ∧ t.pc = s.pc ∧ t.imem = s.imem ∧ t.dmem = s.dmem ∧
    t.ecause = s.ecause ∧ t.epc = s.epc ∧ t.einfo = s.einfo

theorem SameData.refl (s : State) : SameData s s := ⟨rfl, rfl, rfl, rfl, rfl, rfl, rfl, rfl, rfl⟩

/-- Of the writes that are no error while RUNNING, CTRL and IE are all. -/
theorem sameData_hostWrite32_of_running {a : Nat} {d : Word} {s t : State} (hrun : s.runState = .running)
    (hd : a = 0x08 → d.getLsbD 3 = false) (h : hostWrite32 a d s = some t) : SameData s t := by
  obtain ⟨-, hreg⟩ | ⟨-, hrest, -⟩ := hostWrite32_some h
  · obtain ⟨ha, rfl⟩ | ⟨-, hrest, -⟩ | ⟨-, rfl⟩ | ⟨-, hrest, -⟩ := csrWrite_some hreg
    · rw [ctrlWrite_of_running hrun (hd ha)]
      exact .refl s
    · exact absurd hrun hrest
    · exact .refl s
    · exact absurd hrun hrest
  · exact absurd hrun hrest

/-- A write of either size is answered `ok` with its effect or with an error and none. -/
theorem hostAct_write_cases {op : HostOp} {s t : State} (hop : op ≠ .reset) (h : hostAct op s = .next t) :
    (∃ reply, t = { s with lastReply := some reply }) ∨
      (∃ a d u, op = .write8 a d ∧ hostWrite8 a.toNat d s = some u ∧ t = { u with lastReply := some .done }) ∨
      (∃ a d u, op = .write32 a d ∧ hostWrite32 a.toNat d s = some u ∧ t = { u with lastReply := some .done }) := by
  cases op with
  | reset => exact absurd rfl hop
  | read8 | read32 =>
    obtain ⟨reply, -, rfl⟩ := finishRead_next h
    exact .inl ⟨reply, rfl⟩
  | write8 a d =>
    cases h
    obtain ⟨u, hu, hfinish⟩ | ⟨-, hfinish⟩ := finishWrite_cases s (hostWrite8 a.toNat d s)
    · exact .inr (.inl ⟨a, d, u, rfl, hu, hfinish⟩)
    · exact .inl ⟨_, hfinish⟩
  | write32 a d =>
    cases h
    obtain ⟨u, hu, hfinish⟩ | ⟨-, hfinish⟩ := finishWrite_cases s (hostWrite32 a.toNat d s)
    · exact .inr (.inr ⟨a, d, u, rfl, hu, hfinish⟩)
    · exact .inl ⟨_, hfinish⟩

theorem hostAct_read8_of_unmapped {a : HostAddr} (s : State) (h : inDataWindow a.toNat = false) :
    hostAct (.read8 a) s = .next { s with lastReply := some .errorResponse } := by
  rw [hostAct, hostRead8, h]
  rfl

theorem hostAct_write8_of_unmapped {a : HostAddr} (s : State) (h : inDataWindow a.toNat = false) (d : Byte) :
    hostAct (.write8 a d) s = .next { s with lastReply := some .errorResponse } := by
  rw [hostAct, hostWrite8, h]
  rfl

/-- An address where no 32-bit access leads: in neither window, or at an offset that is no register's. -/
def Unmapped32 (a : Nat) : Prop :=
  inCodeWindow a = false ∧ (inCsrBlock a = true → a = 0x28 ∨ (0x34 ≤ a ∧ a < 0x40) ∨ 0x80 ≤ a)

theorem scalarWindow_of_reserved {a : Nat} (h : a = 0x28 ∨ (0x34 ≤ a ∧ a < 0x40) ∨ 0x80 ≤ a) : scalarWindow a = false := by
  rw [Bool.eq_false_iff]
  simp only [scalarWindow, ne_eq, Bool.and_eq_true, decide_eq_true_eq]
  omega

theorem csrRead_of_reserved {a : Nat} (s : State) (h : a = 0x28 ∨ (0x34 ≤ a ∧ a < 0x40) ∨ 0x80 ≤ a) : csrRead a s = none := by
  unfold csrRead
  iterate 12 rw [if_neg (by omega)]
  rw [scalarWindow_of_reserved h]
  rfl

theorem csrWrite_of_reserved {a : Nat} (d : Word) (s : State) (h : a = 0x28 ∨ (0x34 ≤ a ∧ a < 0x40) ∨ 0x80 ≤ a) :
    csrWrite a d s = none := by
  unfold csrWrite
  iterate 3 rw [if_neg (by omega)]
  rw [scalarWindow_of_reserved h]
  rfl

theorem hostAct_read32_of_unmapped {a : HostAddr} (s : State) (h : Unmapped32 a.toNat) :
    hostAct (.read32 a) s = .next { s with lastReply := some .errorResponse } := by
  obtain ⟨hcode, hcsr⟩ := h
  rw [hostAct, hostRead32, hcode]
  split
  next hblock => rw [csrRead_of_reserved s (hcsr hblock)]; rfl
  next => rfl

theorem hostAct_write32_of_unmapped {a : HostAddr} (s : State) (h : Unmapped32 a.toNat) (d : Word) :
    hostAct (.write32 a d) s = .next { s with lastReply := some .errorResponse } := by
  obtain ⟨hcode, hcsr⟩ := h
  rw [hostAct, hostWrite32, hcode]
  split
  next hblock => rw [csrWrite_of_reserved d s (hcsr hblock)]; rfl
  next => rfl

/-- Settles O56: an error and a read only answer; the writes that are no error while RUNNING leave the data; and the listed addresses
lead nowhere. -/
theorem runningEngineIsClosedToTheHost : Obligations.RunningEngineIsClosedToTheHost := by
  refine ⟨fun op s t hop h => ?_, fun s a => ⟨fun ha => ?_, fun ha => ?_⟩⟩
  · obtain ⟨reply, rfl⟩ | ⟨a, d, u, rfl, hu, rfl⟩ | ⟨a, d, u, rfl, hu, rfl⟩ := hostAct_write_cases hop h
    · exact ⟨fun hreply => by cases hreply; rfl, fun _ _ => rfl, fun _ _ => SameData.refl s⟩
    · obtain ⟨-, hrest, -⟩ := hostWrite8_some hu
      exact ⟨nofun, fun _ => by simp, fun hrun => absurd hrun hrest⟩
    · refine ⟨nofun, fun _ => by simp, fun hrun hd => ?_⟩
      have hsame : SameData s u := sameData_hostWrite32_of_running hrun (fun ha => hd d ?_) hu
      · exact hsame
      · rw [BitVec.eq_of_toNat_eq (x := a) (y := 0x08) ha]
  · have hout : inDataWindow a.toNat = false := by
      rw [Bool.eq_false_iff]
      simp only [inDataWindow, ne_eq, Bool.and_eq_true, decide_eq_true_eq]
      omega
    exact ⟨hostAct_read8_of_unmapped s hout, hostAct_write8_of_unmapped s hout⟩
  · have hout : Unmapped32 a.toNat := by
      rw [Unmapped32, Bool.eq_false_iff]
      simp only [inCodeWindow, inCsrBlock, ne_eq, Bool.and_eq_true, decide_eq_true_eq]
      omega
    exact ⟨hostAct_read32_of_unmapped s hout, hostAct_write32_of_unmapped s hout⟩

/-! ## Loading a program (70_reset_and_hazards.md R304) -/

/-- A run goes on from the state of its first step. -/
theorem core_run_succ_of_next {M : Host.Core} {k : Nat} {s s' : M.State} (h : M.step s = .next s') :
    M.run (k + 1) s = M.run k s' := by
  rw [Host.Core.run, h]

/-- One write of the schedule puts its word and takes its turn off the list. -/
theorem step_of_loadProgram_turn {s : State} {i : Nat} {w : Word} {ts : List Turn} (hi : i < Config.imemWords)
    (hrest : s.runState ≠ .running) (hturns : s.turns = .host (.write32 (BitVec.ofNat 21 (0x010000 + 4 * i)) w) :: ts) :
    step s = .next { s with imem := cellPut s.imem i w, turns := ts, lastReply := some .done } := by
  rw [step_of_host_turn hturns, hostAct_write32_codeAddr hi, if_neg hrest]

theorem run_loadProgram {ws : List Word} {i : Nat} {s : State} (hlen : i + ws.length ≤ Config.imemWords)
    (hrest : s.runState ≠ .running) (hturns : s.turns = loadProgram i ws) :
    ∃ m r, Host.Core.run Sys2Proof.core ws.length s = .next { s with imem := m, turns := [], lastReply := r } ∧
      (∀ k, k < ws.length → cellGet m (i + k) = some (ws.getD k 0)) ∧
      ∀ k, k < i ∨ i + ws.length ≤ k → cellGet m k = cellGet s.imem k := by
  induction ws generalizing i s with
  | nil =>
    refine ⟨s.imem, s.lastReply, ?_, fun k hk => absurd hk k.not_lt_zero, fun _ _ => rfl⟩
    have hnil : s.turns = [] := hturns
    exact congrArg Host.Outcome.next (by rw [← hnil])
  | cons w ws ih =>
    rw [List.length_cons] at hlen
    have hstep := step_of_loadProgram_turn (by omega) hrest hturns
    obtain ⟨m, r, hrun, hin, hout⟩ := ih (i := i + 1)
      (s := { s with imem := cellPut s.imem i w, turns := loadProgram (i + 1) ws, lastReply := some .done })
      (by omega) hrest rfl
    refine ⟨m, r, (core_run_succ_of_next (M := Sys2Proof.core) hstep).trans hrun, fun k hk => ?_, fun k hk => ?_⟩
    · cases k with
      | zero => exact (hout i (.inl (by omega))).trans (cellGet_cellPut_self _ _ _)
      | succ k =>
        rw [List.getD_cons_succ, ← hin k (Nat.lt_of_succ_lt_succ hk)]
        congr 1
        omega
    · rw [List.length_cons] at hk
      exact (hout k (by omega)).trans (cellGet_cellPut_ne _ _ _ _ (by omega))

/-- Settles O58: the schedule from word 0 upward. -/
theorem programLoadsThroughTheHostPort : Obligations.ProgramLoadsThroughTheHostPort := by
  intro ws s hlen hrest hturns
  obtain ⟨m, r, hrun, hin, hout⟩ := run_loadProgram (i := 0) (by omega) hrest hturns
  exact ⟨m, r, hrun, fun k hk => by rw [← hin k hk, Nat.zero_add], fun k hk => hout k (.inr (by omega))⟩

end Sys2Proof.Machine
end

section
/-! SUPPORT. Loads after a store at the same address (20_memory.md R68), and the bounds of the coefficients of the extended gcd
(40_modarith.md R121, R123). -/

namespace Sys2Proof.Machine

/-! ## Loads after SSTORE (20_memory.md R68) -/

/-- The little-endian bytes of a word make the word. -/
theorem wordOfBytes_wordBytes (w : Word) : wordOfBytes (Vec.ofFn 4 (Vec.get (wordBytes w))) = w := by
  apply BitVec.eq_of_toNat_eq
  rw [wordOfBytes_ofFn_toNat, wordBytes_get w (by omega), wordBytes_get w (by omega), wordBytes_get w (by omega),
    wordBytes_get w (by omega)]
  simp only [BitVec.extractLsb'_toNat, Nat.shiftRight_eq_div_pow]
  have := w.isLt
  omega

/-- A store that completes was in range, and its bytes are held. -/
theorem holds_of_exec_sstore {s t : State} {ss sa : SReg} (h : exec (.sstore ss sa) s = .next t)
    (ht : t.runState = .running) : inRange (scalarInt t sa) 4 ∧
      holds t.dmem (scalarInt t sa).toNat 4 (Vec.get (wordBytes s.sregs[ss])) := by
  by_cases hr : inRange (scalarInt s sa) 4
  · rw [exec_sstore_of_inRange ss hr] at h
    cases h
    exact ⟨hr, fun k hk => cellGet_putBytes_get _ _ hk⟩
  · rw [show exec (.sstore ss sa) s = _ from finish_memWrite_of_not_inRange hr _] at h
    cases h
    cases ht

/-- Settles O27: the bytes held are those of the stored word, in each of the three reads. -/
theorem loadsSeeTheStoredBytes : Obligations.LoadsSeeTheStoredBytes := by
  intro s t ss sa sd vd _ h ht
  obtain ⟨hr, hB⟩ := holds_of_exec_sstore h ht
  have hr1 : inRange (scalarInt t sa) 1 := by
    obtain ⟨h0, hle⟩ := hr
    exact ⟨h0, by omega⟩
  refine ⟨⟨_, exec_sload_of_holds sd hr hB, ht, ?word⟩,
    ⟨_, exec_sloadb_of_holds sd hr1 fun k hk => hB k (by omega), ht, ?byte⟩,
    ⟨_, Vec.ofFn 4 (Vec.get (wordBytes s.sregs[ss])), exec_vload_of_holds vd hr hB, ht, ?vector, vec_ofFn_length 4 _, fun k hk => ?entry⟩⟩
  case word => simp [wordOfBytes_wordBytes]
  case byte =>
    simp [wordBytes_get _ (show 0 < 4 by omega)]
    omega
  case vector => simp
  case entry => rw [vec_ofFn_get hk, wordBytes_get _ hk]

/-! ## The size of the Bezout coefficients (40_modarith.md R121, R123) -/

/-- Settles O29: the loop told by its Euclidean step. -/
theorem xgcdUnfoldsByTheEuclideanStep : Obligations.XgcdUnfoldsByTheEuclideanStep :=
  ⟨xgcd_zero, fun a _ hm => xgcd_of_pos a hm⟩

/-- When the second operand divides the first, the step ends at once with the second. -/
theorem xgcd_of_dvd {a m : Nat} (hm : 0 < m) (h : m ∣ a) : xgcd a m = (m, 0, 1) := by
  rw [xgcd_of_pos a hm, Nat.mod_eq_zero_of_dvd h, xgcd_zero]
  simp

/-- A proper multiple is at least the double. -/
theorem two_mul_le_of_dvd {g m : Nat} (h : g ∣ m) (hlt : g < m) : 2 * g ≤ m := by
  obtain ⟨k, rfl⟩ := h
  have hk : 1 < k := by
    by_contra hk
    have := Nat.mul_le_mul_left g (not_lt.1 hk)
    omega
  calc 2 * g = g * 2 := mul_comm 2 g
    _ ≤ g * k := Nat.mul_le_mul_left g hk

/-- Each coefficient is at most half the other operand over the gcd, or 1. In a step with remainder `a mod m` not 0, the first
coefficient of `(m, a mod m)` is at most `(a mod m) / 2g`: it is 0 when the remainder is the gcd. -/
theorem xgcd_natAbs_le_half (a m : Nat) (hg : 0 < Nat.gcd a m) :
    (xgcd a m).2.1.natAbs ≤ max 1 (m / (2 * Nat.gcd a m)) ∧ (xgcd a m).2.2.natAbs ≤ max 1 (a / (2 * Nat.gcd a m)) := by
  induction m, a using Nat.gcd.induction with
  | H0 a => simp [xgcd_zero]
  | H1 m a hm ih =>
    by_cases hmod : a % m = 0
    · simp [xgcd_of_dvd hm (Nat.dvd_of_mod_eq_zero hmod)]
    · have hgcd : Nat.gcd m (a % m) = Nat.gcd a m := by rw [Nat.gcd_comm m, ← Nat.gcd_rec, Nat.gcd_comm]
      rw [hgcd] at ih
      obtain ⟨hx, hy⟩ := ih hg
      rw [xgcd_of_pos a hm]
      refine ⟨hy, ?_⟩
      generalize hgdef : Nat.gcd a m = g at *
      have hgr : g ∣ a % m := hgcd ▸ Nat.gcd_dvd_right m (a % m)
      have hgm : g ∣ m := hgdef ▸ Nat.gcd_dvd_right a m
      have hr : g ≤ a % m := Nat.le_of_dvd (Nat.pos_of_ne_zero hmod) hgr
      have hrm : a % m < m := Nat.mod_lt a hm
      have hM : max 1 (m / (2 * g)) = m / (2 * g) :=
        max_eq_right ((Nat.one_le_div_iff (by omega)).2 (two_mul_le_of_dvd hgm (by omega)))
      have hX : (xgcd m (a % m)).2.1.natAbs ≤ a % m / (2 * g) := by
        rcases hr.eq_or_lt with heq | hlt
        · rw [← heq, xgcd_of_dvd hg hgm]
          exact Nat.zero_le _
        · rwa [max_eq_right ((Nat.one_le_div_iff (by omega)).2 (two_mul_le_of_dvd hgr hlt))] at hx
      rw [hM] at hy
      calc ((xgcd m (a % m)).2.1 - (a / m : Nat) * (xgcd m (a % m)).2.2).natAbs
          ≤ (xgcd m (a % m)).2.1.natAbs + a / m * (xgcd m (a % m)).2.2.natAbs := by
            rw [← Int.natAbs_natCast (a / m), ← Int.natAbs_mul]
            exact Int.natAbs_sub_le _ _
        _ ≤ a % m / (2 * g) + a / m * (m / (2 * g)) := by gcongr
        _ ≤ a / (2 * g) := by
            rw [Nat.le_div_iff_mul_le (by omega), add_mul, mul_assoc]
            calc a % m / (2 * g) * (2 * g) + a / m * (m / (2 * g) * (2 * g)) ≤ a % m + a / m * m := by
                  gcongr <;> exact Nat.div_mul_le_self _ _
              _ = a := Nat.mod_add_div' a m
        _ ≤ max 1 (a / (2 * g)) := le_max_right _ _

/-- Settles O30: the coefficients are at most the operands, and at most half of them over the gcd. -/
theorem xgcdResultsFitARegister : Obligations.XgcdResultsFitARegister := by
  intro a m ha hm
  obtain ⟨hx, hy⟩ := xgcd_natAbs_le a m
  refine ⟨?_, by omega, by omega, fun hg => ?_⟩
  · rw [xgcd_fst]
    rcases Nat.eq_zero_or_pos m with rfl | hpos
    · rwa [Nat.gcd_zero_right]
    · exact (Nat.gcd_le_right a hpos).trans_lt hm
  · rw [xgcd_fst] at hg ⊢
    exact xgcd_natAbs_le_half a m hg

end Sys2Proof.Machine
end

section
/-! SUPPORT. Runs of blocks: a run cut into blocks and put together again, the host's chunk and unchunk (42_blockcodec.md R180 to R183),
and the loop over the blocks against the run read and written whole (43_cipher.md R197). -/

namespace Sys2Proof.Machine

/-! ## A run as its blocks (42_blockcodec.md R180) -/

/-- The blocks of a run are its first block and the blocks of the rest. -/
theorem blocksOf_succ (n cnt : Nat) (bytes : List Byte) :
    blocksOf n (cnt + 1) bytes = bytes.take n :: blocksOf n cnt (bytes.drop n) := by
  simp [blocksOf, List.range_succ_eq_map, Nat.succ_mul, Nat.add_comm n]

theorem length_of_mem_blocksOf {n cnt : Nat} {bytes : List Byte} (h : bytes.length = cnt * n) {x : Vec}
    (hx : x ∈ blocksOf n cnt bytes) : x.length = n := by
  induction cnt generalizing bytes with
  | zero => simp [blocksOf] at hx
  | succ cnt ih =>
    rw [Nat.succ_mul] at h
    rw [blocksOf_succ, List.mem_cons] at hx
    rcases hx with rfl | hx
    · rw [List.length_take]
      omega
    · exact ih (by rw [List.length_drop]; omega) hx

/-- The blocks of a run, put one after the other, are the run. -/
theorem flatten_blocksOf {n cnt : Nat} {bytes : List Byte} (h : bytes.length = cnt * n) :
    (blocksOf n cnt bytes).flatten = bytes := by
  induction cnt generalizing bytes with
  | zero =>
    rw [Nat.zero_mul] at h
    simp [blocksOf, List.length_eq_zero_iff.1 h]
  | succ cnt ih =>
    rw [Nat.succ_mul] at h
    rw [blocksOf_succ, List.flatten_cons, ih (by rw [List.length_drop]; omega), List.take_append_drop]

/-- The blocks of a run that was put together of blocks are those. -/
theorem blocksOf_flatMap {g : Vec → Vec} {n : Nat} (hg : ∀ x, (g x).length = n) (l : List Vec) :
    blocksOf n l.length (l.flatMap g) = l.map g := by
  induction l with
  | nil => rfl
  | cons x l ih =>
    rw [List.length_cons, blocksOf_succ, List.flatMap_cons, List.take_left' (hg x), List.drop_left' (hg x), ih,
      List.map_cons]

/-! ## The host's chunk and unchunk (42_blockcodec.md R181 to R183) -/

/-- The number of blocks is the quotient rounded up. -/
theorem blockCount_bounds (len : Nat) {n : Nat} (hn : 1 ≤ n) :
    blockCount len n * n < len + n ∧ len ≤ blockCount len n * n := by
  have hle := Nat.div_mul_le_self (len + n - 1) n
  have hlt := Nat.lt_div_mul_add (a := len + n - 1) hn
  unfold blockCount
  omega

theorem paddedBytes_length (D : List Byte) {n : Nat} (hn : 1 ≤ n) : (paddedBytes D n).length = blockCount D.length n * n := by
  obtain ⟨-, hle⟩ := blockCount_bounds D.length hn
  rw [paddedBytes, List.length_append, List.length_replicate, Nat.add_sub_cancel' hle]

theorem chunk_flatten (D : List Byte) {n : Nat} (hn : 1 ≤ n) : (chunk D n).flatten = paddedBytes D n :=
  flatten_blocksOf (paddedBytes_length D hn)

/-- Settles O59: the blocks are those of the padded bytes, and the padding stands after the bytes. -/
theorem chunkThenUnchunkReproducesTheBytes : Obligations.ChunkThenUnchunkReproducesTheBytes := by
  intro D n hn
  have hcount : (chunk D n).length = blockCount D.length n := blocksOf_length _ _ _
  obtain ⟨hlt, hle⟩ := blockCount_bounds D.length hn
  rw [hcount, unchunk, chunk_flatten D hn]
  exact ⟨hlt, hle, fun x hx => length_of_mem_blocksOf (paddedBytes_length D hn) hx, rfl, List.take_left⟩

/-! ## Reading and writing a run in two parts (20_memory.md R64, R65) -/

theorem putBytes_append (m : Memory) (a : Nat) (xs ys : List Byte) :
    putBytes m a (xs ++ ys) = putBytes (putBytes m a xs) (a + xs.length) ys := by
  induction xs generalizing m a with
  | nil => rfl
  | cons x xs ih => rw [List.cons_append, putBytes, ih, putBytes, List.length_cons, Nat.add_right_comm, Nat.add_assoc]

/-- A run that can be read can be read in two parts. -/
theorem bytesAt_split {m : Memory} {a n k : Nat} {bs : List Byte} (h : bytesAt m a (n + k) = .ok bs) :
    bytesAt m a n = .ok (bs.take n) ∧ bytesAt m (a + n) k = .ok (bs.drop n) := by
  obtain ⟨hlen, hheld⟩ := bytesAt_ok.1 h
  refine ⟨bytesAt_ok.2 ⟨by rw [List.length_take]; omega, fun j hj => ?_⟩,
    bytesAt_ok.2 ⟨by rw [List.length_drop]; omega, fun j hj => ?_⟩⟩
  · rw [List.length_take] at hj
    rw [hheld j (by omega), List.getElem_take]
  · rw [List.length_drop] at hj
    rw [Nat.add_assoc, hheld (n + j) (by omega), List.getElem_drop]

/-- A run reads the same in two memories that agree on it. -/
theorem bytesAt_of_agree {m m' : Memory} {a n : Nat} {bs : List Byte} (h : bytesAt m a n = .ok bs)
    (hagree : ∀ k, k < n → cellGet m' (a + k) = cellGet m (a + k)) : bytesAt m' a n = .ok bs := by
  obtain ⟨hlen, hheld⟩ := bytesAt_ok.1 h
  exact bytesAt_ok.2 ⟨hlen, fun k hk => (hagree k (hlen ▸ hk)).trans (hheld k hk)⟩

/-! ## The loop over the blocks (43_cipher.md R197) -/

/-- Settles O48, by induction on the number of blocks: the block just written lies outside the rest of the source run, so the rest is
read as it was. -/
theorem runTransformIsTheLoopOverBlocks : Obligations.RunTransformIsTheLoopOverBlocks := by
  intro f n cnt src dst m bytes hf hplace hread
  induction cnt generalizing src dst m bytes with
  | zero =>
    rw [blocksOf]
    rfl
  | succ cnt ih =>
    rw [Nat.succ_mul] at hplace
    rw [Nat.succ_mul, Nat.add_comm] at hread
    obtain ⟨hblock, hrest⟩ := bytesAt_split hread
    have hkept : bytesAt (putBytes m dst (f (bytes.take n))) (src + n) (cnt * n) = .ok (bytes.drop n) :=
      bytesAt_of_agree hrest fun k hk => cellGet_putBytes_outside (by rw [hf]; omega)
    rw [blockLoop, hblock, ok_bind, ih (src + n) (dst + n) _ _ (by omega) hkept, blocksOf_succ, List.flatMap_cons,
      putBytes_append, hf]

end Sys2Proof.Machine
end

section
/-! SUPPORT. The pivot search and the inverse told by their properties (41_matrix.md R152, R154), the per-block transforms as sums and
products that undo each other (43_cipher.md R191, R199), and DECRYPT after ENCRYPT on runs. -/

namespace Sys2Proof.Machine

/-! ## The pivot search (41_matrix.md R152) -/

/-- Every row above the pivot found has an even entry. -/
theorem even_of_pivotFrom_eq_some {W : Mat} {col k r p q : Nat} (h : pivotFrom W col k r = some p) (hr : r ≤ q) (hq : q < p) :
    (W.get q col).toNat % 2 = 0 := by
  induction k generalizing r with
  | zero => cases h
  | succ k ih =>
    rcases Nat.mod_two_eq_zero_or_one (W.get r col).toNat with heven | hodd
    · rw [pivotFrom_of_even heven] at h
      rcases hr.eq_or_lt with rfl | hlt
      · exact heven
      · exact ih h hlt
    · rw [pivotFrom_of_odd hodd] at h
      cases h
      omega

/-- Settles O40: the two outcomes of the search. -/
theorem pivotIsTheFirstUnitOfItsColumn : Obligations.PivotIsTheFirstUnitOfItsColumn := by
  intro W col k r
  cases h : pivotFrom W col k r with
  | some p =>
    obtain ⟨hle, hlt, hodd⟩ := odd_of_pivotFrom_eq_some h
    exact ⟨hle, hlt, hodd, fun q => even_of_pivotFrom_eq_some h⟩
  | none => exact fun q => even_of_pivotFrom_eq_none h

/-- Settles O41: the shape of the inverse, and the two products. -/
theorem invertGivesATwoSidedInverse : Obligations.InvertGivesATwoSidedInverse := by
  intro A R hA hsq h
  obtain ⟨hr, hc, -⟩ := shape_of_invert_eq_ok h
  exact ⟨wf_of_invert_eq_ok hA h, hr, hc, invert_mul rfl hsq.symm h⟩

/-! ## The per-block transforms (43_cipher.md R191, R199) -/

theorem reduce_add (u v : Byte) : reduce (u.toNat + v.toNat) = u + v := by
  rw [reduce_eq_natCast, Nat.cast_add, natCast_toNat, natCast_toNat]

/-- Reducing a sum in two steps is reducing it once. -/
theorem reduce_add_toNat (v : Nat) (u : Byte) : reduce (v + u.toNat) = reduce v + u := by
  rw [reduce_eq_natCast, reduce_eq_natCast, Nat.cast_add, natCast_toNat]

theorem enc_get {A : Mat} {i : Nat} (hi : i < A.rows) (b x : Vec) :
    Vec.get (enc A b x) i = reduce (dot A.cols (fun t => A.get i t) (fun t => x.get t)) + b.get i :=
  (vec_ofFn_get hi).trans (reduce_add_toNat _ _)

theorem enc_eq_add (A : Mat) (b x : Vec) : enc A b x = Vec.add (A.mulVec x) b := by
  refine vec_ext (by simp) fun i hi => ?_
  rw [enc_length] at hi
  rw [enc_get hi, add_get (by rwa [mulVec_length]), mulVec_get hi, reduce_add]

theorem dec_eq_mulVec {A : Mat} {y : Vec} (b : Vec) (hy : y.length = A.cols) : dec A b y = A.mulVec (Vec.sub y b) := by
  refine vec_ext (by simp) fun i hi => ?_
  rw [dec_length] at hi
  rw [dec, vec_ofFn_get hi, mulVec_get hi, reduce_dot, reduce_dot]
  refine Finset.sum_congr rfl fun t ht => ?_
  rw [sub_get (by rw [hy]; exact Finset.mem_range.1 ht)]

/-- Settles O45. -/
theorem blockTransformsAreProductsAndSums : Obligations.BlockTransformsAreProductsAndSums :=
  fun A b x _ hx => ⟨enc_eq_add A b x, dec_eq_mulVec b hx⟩

/-- A difference undoes a sum. -/
theorem sub_add_cancel_vec (x b : Vec) : Vec.sub (Vec.add x b) b = x := by
  refine vec_ext (by simp) fun k hk => ?_
  rw [sub_length, add_length] at hk
  rw [sub_get (by rwa [add_length]), add_get hk, reduce_add, subMod_eq, add_sub_cancel_right]

/-- The product of a square matrix with a vector, over the ring of bytes. -/
theorem toMatrix_mulVec {A : Mat} {n : Nat} (hr : A.rows = n) (hc : A.cols = n) (x : Vec) (i : Fin n) :
    Vec.get (A.mulVec x) i = (A.toMatrix n).mulVec (fun k => Vec.get x k) i := by
  rw [mulVec_get (hr ▸ i.isLt), reduce_dot, hc, ← Fin.sum_univ_eq_sum_range]
  rfl

/-- A left inverse takes the product with a vector back. -/
theorem mulVec_mulVec_of_mul_eq_identity {A R : Mat} {x : Vec} {n : Nat} (hAr : A.rows = n) (hAc : A.cols = n) (hRr : R.rows = n)
    (hRc : R.cols = n) (h : R.mul A = Mat.identity n) (hx : x.length = n) : R.mulVec (A.mulVec x) = x := by
  refine vec_ext (by rw [mulVec_length, hRr, hx]) fun k hk => ?_
  rw [mulVec_length, hRr] at hk
  have hAx : (fun j : Fin n => Vec.get (A.mulVec x) j) = (A.toMatrix n).mulVec fun j => Vec.get x j :=
    funext (toMatrix_mulVec hAr hAc x)
  have hRA := (mul_eq_identity_iff hRr hRc hAc).1 h
  rw [toMatrix_mulVec hRr hRc _ ⟨k, hk⟩, hAx, Matrix.mulVec_mulVec, hRA, Matrix.one_mulVec]

theorem dec_enc {A R : Mat} {x : Vec} (b : Vec) (hsq : A.rows = A.cols) (h : invert A = .ok R) (hx : x.length = A.rows) :
    dec R b (enc A b x) = x := by
  obtain ⟨hr, hc, -⟩ := shape_of_invert_eq_ok h
  obtain ⟨-, hRA⟩ := invert_mul rfl hsq.symm h
  rw [dec_eq_mulVec b ((enc_length A b x).trans hc.symm), enc_eq_add, sub_add_cancel_vec,
    mulVec_mulVec_of_mul_eq_identity rfl hsq.symm hr hc hRA hx]

/-- Settles O46. -/
theorem decryptionUndoesEncryptionOfABlock : Obligations.DecryptionUndoesEncryptionOfABlock :=
  fun _ _ b _ _ hsq h _ hx => dec_enc b hsq h hx

/-- Decrypting an encrypted run block by block gives the run. -/
theorem flatMap_dec_enc {A R : Mat} {cnt : Nat} {bytes : List Byte} (b : Vec) (hsq : A.rows = A.cols) (h : invert A = .ok R)
    (hbytes : bytes.length = cnt * A.rows) :
    (blocksOf A.rows cnt ((blocksOf A.rows cnt bytes).flatMap (enc A b))).flatMap (dec R b) = bytes := by
  have hblocks := blocksOf_flatMap (enc_length A b) (blocksOf A.rows cnt bytes)
  rw [blocksOf_length] at hblocks
  have hback : ∀ x ∈ blocksOf A.rows cnt bytes, dec R b (enc A b x) = x :=
    fun x hx => dec_enc b hsq h (length_of_mem_blocksOf hbytes hx)
  rw [hblocks, List.flatMap_map, List.flatMap_congr hback, List.flatMap_id', flatten_blocksOf hbytes]

/-! ## DECRYPT after ENCRYPT on runs (43_cipher.md R197 to R199) -/

section Runs
variable {s t : State} {ma : MReg} {vb : VReg} {ssrc sdst scnt : SReg} {A : Mat} {b : Vec}

/-- The two runs of a memory form may overlap only as one run (20_memory.md R73). -/
def SameOrDisjoint (src dst len : Int) : Prop := src = dst ∨ src + len ≤ dst ∨ dst + len ≤ src

theorem sameOrDisjoint_iff {src dst len : Int} :
    SameOrDisjoint src dst len ↔ src = dst ∨ src + len ≤ dst ∨ dst + len ≤ src := Iff.rfl

theorem runLength_toNat (h : 0 ≤ scalarInt s scnt) (n : Nat) : (scalarInt s scnt * n).toNat = (scalarInt s scnt).toNat * n := by
  rw [Int.toNat_mul h (Int.natCast_nonneg _), Int.toNat_natCast]

/-- Past its checks a memory form writes the transformed run. -/
theorem finish_runTransform_of_bytes (hA : s.mregs[ma] = some A) (hb : s.vregs[vb] = some b) (f : Mat → Vec → Vec → Vec)
    (hsq : A.rows = A.cols) (hlen : b.length = A.rows) (hcnt : 0 ≤ scalarInt s scnt)
    (hsrc : inRange (scalarInt s ssrc) (scalarInt s scnt * A.rows))
    (hdst : inRange (scalarInt s sdst) (scalarInt s scnt * A.rows))
    (hplace : SameOrDisjoint (scalarInt s ssrc) (scalarInt s sdst) (scalarInt s scnt * A.rows)) {bytes : List Byte}
    (hbytes : bytesAt s.dmem (scalarInt s ssrc).toNat ((scalarInt s scnt).toNat * A.rows) = .ok bytes) :
    finish s (runTransform f ma vb ssrc sdst scnt s) = .next (advance { s with
      dmem := putBytes s.dmem (scalarInt s sdst).toNat
        ((blocksOf A.rows (scalarInt s scnt).toNat bytes).flatMap (f A b)) }) := by
  rw [sameOrDisjoint_iff] at hplace
  rw [finish_runTransform_of_some hA hb, if_neg (not_not.2 ⟨hsq, hlen⟩), if_neg (not_lt.2 hcnt), if_neg (not_not.2 hsrc),
    if_neg (not_not.2 hdst), if_neg (by omega), runLength_toNat hcnt, hbytes]
  rfl

/-- A memory form that completes has passed its checks and read its source run. -/
theorem runTransform_completed (hA : s.mregs[ma] = some A) (hb : s.vregs[vb] = some b) {f : Mat → Vec → Vec → Vec}
    (h : finish s (runTransform f ma vb ssrc sdst scnt s) = .next t) (ht : t.runState = .running) :
    0 ≤ scalarInt s scnt ∧ inRange (scalarInt s sdst) (scalarInt s scnt * A.rows) ∧ ∃ bytes,
      bytesAt s.dmem (scalarInt s ssrc).toNat ((scalarInt s scnt).toNat * A.rows) = .ok bytes ∧
      t = advance { s with
        dmem := putBytes s.dmem (scalarInt s sdst).toNat
          ((blocksOf A.rows (scalarInt s scnt).toNat bytes).flatMap (f A b)) } := by
  have no_fault {c : Cause} {info : Word}
      (hfault : Host.Outcome.next (takeFault c info s) = (.next t : Host.Outcome State Fault Refusal)) : False := by
    cases hfault
    cases ht
  rw [finish_runTransform_of_some hA hb] at h
  split_ifs at h with hshape hcnt hsrc hdst hover
  any_goals exact (no_fault h).elim
  have hpos := not_lt.1 hcnt
  rw [runLength_toNat hpos] at h
  obtain hok | ⟨c, info, -, rfl⟩ := finish_next.1 h
  · obtain ⟨bytes, hbytes, hout⟩ := res_bind_ok.1 hok
    cases hout
    exact ⟨hpos, hdst, bytes, hbytes, rfl⟩
  · cases ht

/-- ENCRYPT of a run and DECRYPT of the result with the inverse write the bytes of the source run to any legal place. -/
theorem exec_decrypt_of_exec_encrypt {mi : MReg} {se : SReg} {R : Mat} (hA : s.mregs[ma] = some A) (hsq : A.rows = A.cols)
    (hb : s.vregs[vb] = some b) (hlen : b.length = A.rows) (hR : s.mregs[mi] = some R) (hinv : invert A = .ok R)
    (h : exec (.encrypt ma vb ssrc sdst scnt) s = .next t) (ht : t.runState = .running)
    (hse : inRange (scalarInt s se) (scalarInt s scnt * A.rows))
    (hplace : SameOrDisjoint (scalarInt s sdst) (scalarInt s se) (scalarInt s scnt * A.rows)) :
    ∃ bytes out, bytesAt s.dmem (scalarInt s ssrc).toNat ((scalarInt s scnt).toNat * A.rows) = .ok bytes ∧
      out.length = bytes.length ∧ inRange (scalarInt s sdst) out.length ∧
      t = { s with dmem := putBytes s.dmem (scalarInt s sdst).toNat out, pc := s.pc + 1 } ∧
      exec (.decrypt mi vb sdst se scnt) t =
        .next { t with dmem := putBytes t.dmem (scalarInt s se).toNat bytes, pc := t.pc + 1 } := by
  obtain ⟨hcnt, hdst, bytes, hbytes, htEq⟩ := runTransform_completed hA hb h ht
  obtain ⟨hRr, hRc, -⟩ := shape_of_invert_eq_ok hinv
  obtain ⟨hn, -⟩ := bytesAt_ok.1 hbytes
  have hout := flatMap_blocksOf_length (enc_length A b) (scalarInt s scnt).toNat bytes
  have hlenInt : (((scalarInt s scnt).toNat * A.rows : Nat) : Int) = scalarInt s scnt * A.rows := by
    rw [Nat.cast_mul, Int.toNat_of_nonneg hcnt]
  refine ⟨bytes, _, hbytes, hout.trans hn.symm, by rwa [hout, hlenInt], htEq, ?_⟩
  have hscalar (r : SReg) : scalarInt t r = scalarInt s r := by rw [htEq]; rfl
  have hRt : t.mregs[mi] = some R := by rw [htEq]; exact hR
  have hbt : t.vregs[vb] = some b := by rw [htEq]; exact hb
  have hread := bytesAt_putBytes_self s.dmem (scalarInt s sdst).toNat
    ((blocksOf A.rows (scalarInt s scnt).toNat bytes).flatMap (enc A b))
  have hmem : t.dmem = putBytes s.dmem _ _ := congrArg State.dmem htEq
  rw [hout, ← hmem] at hread
  have hdec := finish_runTransform_of_bytes (ssrc := sdst) (sdst := se) (scnt := scnt) hRt hbt dec (hRr.trans hRc.symm)
    (hlen.trans hRr.symm)
  simp only [hscalar, hRr] at hdec
  have hstored := hdec hcnt hdst hse hplace hread
  rw [flatMap_dec_enc b hsq hinv hn] at hstored
  exact hstored

end Runs

/-- Settles O60: the bytes DECRYPT writes are those ENCRYPT read. -/
theorem decryptionOfAnEncryptedRunGivesTheSource : Obligations.DecryptionOfAnEncryptedRunGivesTheSource := by
  intro s t ma mi vb ss sd se sc A R b _ hA _ hsq hb hlen hR hinv h ht hse hplace
  have hplace' : SameOrDisjoint (scalarInt s sd) (scalarInt s se) (scalarInt s sc * A.rows) := by
    rw [sameOrDisjoint_iff]
    omega
  obtain ⟨bytes, out, hbytes, -, -, rfl, hexec⟩ := exec_decrypt_of_exec_encrypt hA hsq hb hlen hR hinv h ht hse hplace'
  obtain ⟨hn, hheld⟩ := bytesAt_ok.1 hbytes
  refine ⟨_, hexec, fun k hk => ?_, fun x hx => cellGet_putBytes_outside (by rwa [hn])⟩
  rw [cellGet_putBytes_inside (hn ▸ hk), hheld k (hn ▸ hk)]

/-- Settles O49: DMEM after both is in canonical form and reads as before, in the run and outside it. -/
theorem decryptInPlaceRestoresTheRun : Obligations.DecryptInPlaceRestoresTheRun := by
  intro s t ma mi vb sr sc A R b _ hwf hA _ hsq hb hlen hR hinv h ht
  obtain ⟨-, hrange, -⟩ := runTransform_completed hA hb h ht
  obtain ⟨bytes, out, hbytes, hout, hr, rfl, hexec⟩ :=
    exec_decrypt_of_exec_encrypt hA hsq hb hlen hR hinv h ht hrange (.inl rfl)
  obtain ⟨-, hheld⟩ := bytesAt_ok.1 hbytes
  obtain ⟨h0, hle⟩ := hr
  have hend : (scalarInt s sr).toNat + out.length ≤ Config.dmemSize := by omega
  have hback : putBytes (putBytes s.dmem (scalarInt s sr).toNat out) (scalarInt s sr).toNat bytes = s.dmem := by
    refine cells_ext (Memory.wf_putBytes (Memory.wf_putBytes hwf hend) (hout ▸ hend)).1 hwf.1 fun x => ?_
    by_cases hx : x < (scalarInt s sr).toNat ∨ (scalarInt s sr).toNat + bytes.length ≤ x
    · rw [cellGet_putBytes_outside hx, cellGet_putBytes_outside (by rwa [hout])]
    · obtain ⟨k, rfl⟩ := Nat.exists_eq_add_of_le (show (scalarInt s sr).toNat ≤ x by omega)
      have hk : k < bytes.length := by omega
      rw [cellGet_putBytes_inside hk, hheld k hk]
  rw [hexec, hback]

end Sys2Proof.Machine
end

section
/-! SUPPORT. The search of RECOVER on valid inputs: what a trial reads and gives, the first trial that succeeds, and the key it gives
when the samples come from one affine map (44_recovery.md R214 to R222). -/

namespace Sys2Proof.Machine

/-! ## One trial (44_recovery.md R214, R215, R217, R218) -/

/-- The key a combination gives when `X` inverts its plaintext difference matrix (44_recovery.md R217, R218). -/
def keyOf (n anchor : Nat) (P C : Nat → Nat → Byte) (comb : List Nat) (X : Mat) : Mat × Vec :=
  ((diffOf n anchor C comb).mul X,
    Vec.sub (Vec.ofFn n (C anchor)) (((diffOf n anchor C comb).mul X).mulVec (Vec.ofFn n (P anchor))))

/-- The samples `X` of `n` bytes are the blocks at `base` with the given indices. -/
def SamplesHeld (m : Memory) (base n : Nat) (X : Nat → Nat → Byte) (indices : List Nat) : Prop :=
  ∀ i ∈ indices, holds m (base + i * n) n (X i)

theorem readBlock_of_held {m : Memory} {base n i : Nat} {X : Nat → Byte} (h : holds m (base + i * n) n X) :
    readBlock m base n i = .ok (Vec.ofFn n X) := bytesAt_of_holds h

theorem readBlocks_of_held {m : Memory} {base n : Nat} {X : Nat → Nat → Byte} {indices : List Nat}
    (h : SamplesHeld m base n X indices) : readBlocks m base n indices = .ok (indices.map fun i => Vec.ofFn n (X i)) := by
  induction indices with
  | nil => rfl
  | cons i is ih =>
    obtain ⟨hi, his⟩ := List.forall_mem_cons.1 h
    rw [readBlocks, readBlock_of_held hi, ok_bind, ih his, ok_bind]
    rfl

/-- Column `c` of the difference matrix belongs to member `c` of the combination. -/
theorem diffOf_get {n anchor r c : Nat} (X : Nat → Nat → Byte) (comb : List Nat) (hr : r < n) (hc : c < n) :
    (diffOf n anchor X comb).get r c = X (comb.getD c 0) r - X anchor r := ofFn_get hr hc

/-- The difference matrix of the blocks read is that of the samples. -/
theorem differences_eq_diffOf {n anchor : Nat} {X : Nat → Nat → Byte} {comb : List Nat} (hn : comb.length = n) :
    differences n (Vec.ofFn n (X anchor)) (comb.map fun i => Vec.ofFn n (X i)) = diffOf n anchor X comb := by
  refine mat_ext rfl rfl (ofFn_length _ _ _) (ofFn_length _ _ _) fun r c (hr : r < n) (hc : c < n) => ?_
  have hcomb : c < comb.length := hn ▸ hc
  rw [differences, ofFn_get hr hc, diffOf_get X comb hr hc, subMod_eq, vec_ofFn_get hr, List.getD_eq_getElem _ _ (by simpa),
    List.getElem_map, vec_ofFn_get hr, List.getD_eq_getElem _ _ hcomb]

section Trials
variable {m : Memory} {p : Samples} {P C : Nat → Nat → Byte} {comb : List Nat}

/-- A trial inverts the difference matrix of the plaintext samples and reads the ciphertext samples only when that succeeds. -/
theorem trial_of_held (hn : comb.length = p.n) (hP : SamplesHeld m p.pbase p.n P (p.anchor :: comb))
    (hC : SamplesHeld m p.cbase p.n C (p.anchor :: comb)) :
    trial m p comb = match invert (diffOf p.n p.anchor P comb) with
      | .error _ => .ok none
      | .ok X => .ok (some (keyOf p.n p.anchor P C comb X)) := by
  obtain ⟨hP0, hPcomb⟩ := List.forall_mem_cons.1 hP
  obtain ⟨hC0, hCcomb⟩ := List.forall_mem_cons.1 hC
  rw [trial, readBlock_of_held hP0, ok_bind, readBlocks_of_held hPcomb, ok_bind, differences_eq_diffOf hn]
  cases invert (diffOf p.n p.anchor P comb) with
  | error col => rfl
  | ok X =>
    dsimp only
    rw [readBlock_of_held hC0, ok_bind, readBlocks_of_held hCcomb, ok_bind, differences_eq_diffOf hn]
    rfl

end Trials

/-! ## The search (44_recovery.md R219) -/

section Search
variable {m : Memory} {p : Samples} {combs : List (List Nat)}

/-- The search ends with the key of its first trial, or goes on when that gives none. -/
theorem search_cons_of_trial_ok {comb : List Nat} {key : Option (Mat × Vec)} (h : trial m p comb = .ok key) :
    search m p (comb :: combs) = key.elim (search m p combs) .ok := by
  rw [search, h]
  cases key <;> rfl

/-- Combinations whose trials give nothing are passed over. -/
theorem search_append_of_trials_none (h : ∀ comb ∈ combs, trial m p comb = .ok none) (rest : List (List Nat)) :
    search m p (combs ++ rest) = search m p rest := by
  induction combs with
  | nil => rfl
  | cons comb combs ih =>
    obtain ⟨hcomb, hcombs⟩ := List.forall_mem_cons.1 h
    exact (search_cons_of_trial_ok hcomb).trans (ih hcombs)

end Search

/-! ## The instruction on valid inputs (44_recovery.md R211) -/

section Recover
variable {s : State} {n : Nat} {P C : Nat → Nat → Byte} {cands : List Nat}

/-- Where RECOVER looks for its samples. -/
def samplesOf (s : State) (n : Nat) : Samples :=
  ⟨(scalarInt s recoverPbase).toNat, (scalarInt s recoverCbase).toNat, n, (scalarInt s recoverAnchor).toNat⟩

theorem readCandidates_of_inputs (h : RecoverInputs s n P C cands) :
    readCandidates s.dmem (scalarInt s recoverCount) (scalarInt s recoverCandBase).toNat
      (scalarInt s recoverCandCount).toNat = .ok cands := by
  have hbytes (j : Nat) : ∃ lo hi : Byte, j < cands.length →
      (cellGet s.dmem ((scalarInt s recoverCandBase).toNat + 2 * j) = some lo ∧
        cellGet s.dmem ((scalarInt s recoverCandBase).toNat + 2 * j + 1) = some hi) ∧
      cands.getD j 0 = lo.toNat + 256 * hi.toNat := by
    by_cases hj : j < cands.length
    · obtain ⟨lo, hi, hlo, hhi, hval⟩ := h.cands_held j hj
      exact ⟨lo, hi, fun _ => ⟨⟨hlo, hhi⟩, hval⟩⟩
    · exact ⟨0, 0, fun hj' => absurd hj' hj⟩
  choose lo hi hheld using hbytes
  have hentry (j : Nat) (hj : j < cands.length) : (lo j).toNat + 256 * (hi j).toNat = cands[j] := by
    obtain ⟨-, hval⟩ := hheld j hj
    rw [← hval, List.getD_eq_getElem _ _ hj]
  rw [← h.cands_length, Int.toNat_natCast, readCandidates_of_held fun j hj => (hheld j hj).1, if_pos]
  · refine congrArg Except.ok (List.ext_getElem (by simp) fun j _ hj => ?_)
    rw [List.getElem_map, List.getElem_range, hentry j hj]
  · intro j hj
    rw [hentry j hj]
    exact h.cands_lt _ (List.getElem_mem hj)

/-- On valid inputs all checks pass, and the instruction is its search. -/
theorem exec_recover_of_inputs (h : RecoverInputs s n P C cands) (md : MReg) (vd : VReg) :
    exec (.recover md vd n) s = finish s (search s.dmem (samplesOf s n) (combinations n cands) >>=
      fun key => .ok (advance (setVec (setMat s md key.1) vd key.2))) := by
  have hanchor : 0 ≤ scalarInt s 11 := h.anchor_nonneg
  have hlt : scalarInt s 11 < scalarInt s 10 := h.anchor_lt
  have hcount : (cands.length : Int) = scalarInt s 13 := h.cands_length
  have hplain : inRange (scalarInt s 8) (scalarInt s 10 * n) := h.plain_inRange
  have hcipher : inRange (scalarInt s 9) (scalarInt s 10 * n) := h.cipher_inRange
  have hcands : inRange (scalarInt s 12) (2 * scalarInt s 13) := h.cands_inRange
  rw [exec_recover, if_neg (by omega), if_neg (not_not.2 hplain), if_neg (not_not.2 hcipher), if_neg (not_not.2 hcands)]
  exact finish_bind_of_ok (readCandidates_of_inputs h) _

/-- The anchor and the members of a combination are block indices. -/
theorem lt_count_of_mem (h : RecoverInputs s n P C cands) {comb : List Nat} (hcomb : comb ∈ combinations n cands) {i : Nat}
    (hi : i ∈ (scalarInt s 11).toNat :: comb) : (i : Int) < scalarInt s 10 := by
  obtain ⟨hsub, -⟩ := mem_combinations.1 hcomb
  rcases List.mem_cons.1 hi with rfl | hi
  · exact (Int.toNat_of_nonneg h.anchor_nonneg).trans_lt h.anchor_lt
  · exact h.cands_lt i (hsub.subset hi)

theorem trial_of_inputs (h : RecoverInputs s n P C cands) {comb : List Nat} (hcomb : comb ∈ combinations n cands) :
    trial s.dmem (samplesOf s n) comb = match invert (diffOf n (scalarInt s 11).toNat P comb) with
      | .error _ => .ok none
      | .ok X => .ok (some (keyOf n (scalarInt s 11).toNat P C comb X)) := by
  obtain ⟨-, hn⟩ := mem_combinations.1 hcomb
  exact trial_of_held (p := samplesOf s n) hn (fun i hi k => h.plain_held i k (lt_count_of_mem h hcomb hi))
    fun i hi k => h.cipher_held i k (lt_count_of_mem h hcomb hi)

/-- A trial gives nothing when its plaintext difference matrix has no inverse. -/
theorem trial_of_singular (h : RecoverInputs s n P C cands) {comb : List Nat} (hcomb : comb ∈ combinations n cands)
    (hsing : ¬ (invert (diffOf n (scalarInt s 11).toNat P comb)).isOk) :
    trial s.dmem (samplesOf s n) comb = .ok none := by
  rw [trial_of_inputs h hcomb]
  cases hinv : invert (diffOf n (scalarInt s 11).toNat P comb) with
  | error col => rfl
  | ok X => exact absurd (by rw [hinv]; rfl) hsing

end Recover

/-- Settles O51: the search passes over the singular combinations before the first invertible one, or over all of them. -/
theorem recoverReturnsTheFirstInvertibleCombination : Obligations.RecoverReturnsTheFirstInvertibleCombination := by
  intro s md vd n P C cands h
  have hexec := exec_recover_of_inputs h md vd
  split
  next comb hfind =>
    obtain ⟨hok, before, after, hcombs, hbefore⟩ := List.find?_eq_some_iff_append.1 hfind
    obtain ⟨X, hX⟩ : ∃ X, invert (diffOf n (scalarInt s 11).toNat P comb) = .ok X := by
      cases hinv : invert (diffOf n (scalarInt s 11).toNat P comb) with
      | error col => rw [hinv] at hok; cases hok
      | ok X => exact ⟨X, rfl⟩
    have hmem : comb ∈ combinations n cands := List.mem_of_find?_eq_some hfind
    have htrial : trial s.dmem (samplesOf s n) comb = .ok (some (keyOf n (scalarInt s 11).toNat P C comb X)) := by
      rw [trial_of_inputs h hmem, hX]
    have hskip : ∀ c ∈ before, trial s.dmem (samplesOf s n) c = .ok none := fun c hc =>
      trial_of_singular h (hcombs ▸ List.mem_append_left _ hc) (by simpa using hbefore c hc)
    have hsearch : search s.dmem (samplesOf s n) (combinations n cands) = .ok (keyOf n (scalarInt s 11).toNat P C comb X) := by
      rw [hcombs, search_append_of_trials_none hskip, search_cons_of_trial_ok htrial]
      rfl
    exact ⟨X, _, _, hX, rfl, rfl, hexec.trans (finish_bind_of_ok hsearch _)⟩
  next hfind =>
    have hskip : ∀ c ∈ combinations n cands, trial s.dmem (samplesOf s n) c = .ok none := fun c hc =>
      trial_of_singular h hc (List.find?_eq_none.1 hfind c hc)
    have hsearch := search_append_of_trials_none hskip []
    rw [List.append_nil] at hsearch
    exact hexec.trans (finish_bind_of_raise hsearch _)

/-! ## The contract (44_recovery.md R222) -/

/-- A difference undoes a sum with its left summand. -/
theorem sub_add_cancel_left_vec {x b : Vec} (h : b.length = x.length) : Vec.sub (Vec.add x b) x = b := by
  refine vec_ext (by rw [sub_length, add_length, h]) fun k hk => ?_
  rw [sub_length, add_length] at hk
  rw [sub_get (by rwa [add_length]), add_get hk, reduce_add, subMod_eq, add_sub_cancel_left]

section Contract
variable {A : Mat} {b : Vec} {n anchor : Nat} {P C : Nat → Nat → Byte} {comb : List Nat}

/-- The entries of an encrypted sample, over the ring of bytes. -/
theorem entry_of_enc {x y : Nat → Byte} {r : Nat} (hAr : A.rows = n) (hAc : A.cols = n)
    (h : Vec.ofFn n y = enc A b (Vec.ofFn n x)) (hr : r < n) :
    y r = (∑ t ∈ Finset.range n, A.get r t * x t) + b.get r := by
  have hy := congrArg (fun v => Vec.get v r) h
  rw [vec_ofFn_get hr, enc_get (hAr ▸ hr), hAc, reduce_dot] at hy
  rw [hy]
  refine congrArg (· + _) (Finset.sum_congr rfl fun t ht => ?_)
  rw [vec_ofFn_get (Finset.mem_range.1 ht)]

/-- An affine map takes differences to their products with its matrix: the offset cancels. -/
theorem toMatrix_diffOf_of_enc (hAr : A.rows = n) (hAc : A.cols = n) (hn : comb.length = n)
    (h : ∀ i ∈ anchor :: comb, Vec.ofFn n (C i) = enc A b (Vec.ofFn n (P i))) :
    (diffOf n anchor C comb).toMatrix n = A.toMatrix n * (diffOf n anchor P comb).toMatrix n := by
  obtain ⟨hanchor, hcomb⟩ := List.forall_mem_cons.1 h
  ext1 r c
  have hc : comb.getD c 0 ∈ comb := by
    rw [List.getD_eq_getElem _ _ (hn ▸ c.isLt)]
    exact List.getElem_mem _
  rw [Matrix.mul_apply, toMatrix_apply, diffOf_get C comb r.isLt c.isLt, entry_of_enc hAr hAc (hcomb _ hc) r.isLt,
    entry_of_enc hAr hAc hanchor r.isLt, add_sub_add_right_eq_sub, ← Finset.sum_sub_distrib, ← Fin.sum_univ_eq_sum_range
      (fun t => A.get r t * P (comb.getD c 0) t - A.get r t * P anchor t)]
  refine Finset.sum_congr rfl fun t _ => ?_
  rw [toMatrix_apply, toMatrix_apply, diffOf_get P comb t.isLt c.isLt, mul_sub]

/-- The key of an invertible combination of samples of one affine map is that map. -/
theorem keyOf_of_enc {X : Mat} (hA : A.entries.length = n * n) (hAr : A.rows = n) (hAc : A.cols = n) (hb : b.length = n)
    (hn : comb.length = n) (h : ∀ i ∈ anchor :: comb, Vec.ofFn n (C i) = enc A b (Vec.ofFn n (P i)))
    (hX : invert (diffOf n anchor P comb) = .ok X) : keyOf n anchor P C comb X = (A, b) := by
  obtain ⟨hanchor, -⟩ := List.forall_mem_cons.1 h
  obtain ⟨-, (hXc : X.cols = n), -⟩ := shape_of_invert_eq_ok hX
  have hmatrix : (diffOf n anchor C comb).mul X = A := by
    refine eq_of_toMatrix_eq (n := n) rfl hXc (by rw [mul_entries_length, hXc]; rfl) hAr hAc hA ?_
    rw [toMatrix_mul (n := n) rfl rfl hXc, toMatrix_diffOf_of_enc hAr hAc hn h, Matrix.mul_assoc,
      toMatrix_mul_of_invert_eq_ok (n := n) rfl hX, Matrix.mul_one]
  rw [keyOf, hmatrix, hanchor, enc_eq_add, sub_add_cancel_left_vec (by rw [mulVec_length, hb, hAr])]

end Contract

/-- Settles O53: RECOVER completes only with the key of an invertible combination. -/
theorem recoveredKeyIsTheGeneratingKey : Obligations.RecoveredKeyIsTheGeneratingKey := by
  intro s t md vd n P C cands A b h _ hA hAr hAc hb hmap hexec ht
  have hfirst := recoverReturnsTheFirstInvertibleCombination s md vd n P C cands h
  split at hfirst
  next comb hfind =>
    obtain ⟨X, A', b', hX, rfl, rfl, hkey⟩ := hfirst
    have hmem : comb ∈ combinations n cands := List.mem_of_find?_eq_some hfind
    obtain ⟨-, hn⟩ := mem_combinations.1 hmem
    obtain ⟨-, -, -, -, hentries⟩ := hA
    rw [hAr, hAc] at hentries
    have hAb := keyOf_of_enc hentries hAr hAc hb hn (fun i hi => hmap i (lt_count_of_mem h hmem hi)) hX
    obtain ⟨hmd, hvd⟩ := Prod.mk.inj hAb
    rw [hexec] at hkey
    cases hkey
    rw [hvd, hmd]
    exact ⟨Vector.getElem_set_self _, Vector.getElem_set_self _⟩
  next =>
    cases hexec.symm.trans hfirst
    cases ht

end Sys2Proof.Machine
end
